-- ==== Sys2Proof/Word.lean ====
section
/-! DEFINITION. The word types of the block. All values are unsigned (00_scope.md R8); arithmetic on
`Word` is modulo 2^64 (R9), which is what `BitVec` gives. -/

namespace Sys2Proof

/-- One byte of data memory (20_memory.md R35). -/
abbrev Byte := BitVec 8

/-- `u64`: register contents, addresses, lanes, counters (00_scope.md R8). -/
abbrev Word := BitVec 64

/-- A command word (30_encoding.md R54). -/
abbrev Cmd := BitVec 32

/-- A command register number, 0 to 15 (10_state.md R15). -/
abbrev RegNo := Fin 16

/-- A lane number, 0 to 3 (00_scope.md R13, "Lane"). -/
abbrev Lane := Fin 4

/-- Four 64-bit lanes: hash accumulators, `S.L`, `S.F`. -/
abbrev Quad := Vector Word 4

end Sys2Proof
end

