-- ==== Sys2Proof/Config.lean ====
section
/-! DEFINITION. The configuration record of 00_scope.md R6, and what the two platform inputs answer.
Every definition of the model takes them as an argument (`Cfg` or `Env`); the machine itself runs at the
uninterpreted `Config.env`, so that no proof can rest on the value of an OPEN field (R7). -/

namespace Sys2Proof

/-- The two orders of operations of the lane update, `PRNG_UPDATE_FORM` (00_scope.md R6, 43_prng.md R95). -/
inductive UpdateForm where
  | literal
  | addFirst
deriving DecidableEq, Repr, Inhabited

/-- The configuration record `Cfg` of 00_scope.md R6, with the constraints R6 and 10_state.md R25 put on its
fields. The default values only show that the constraints can be met together: nothing rests on them. -/
structure Cfg where
  /-- `NPORTS`, 1 to 255 (R6, R25). -/
  nports : Nat := 1
  nports_pos : 1 ≤ nports := by decide
  nports_le : nports ≤ 255 := by decide
  /-- `USE_STABLE_HASH_FOR_RISKY_HASH`. -/
  useStableHashForRiskyHash : Bool
  /-- `RISKY_IV[0..3]`. -/
  riskyIV : Quad
  /-- `RISKY_P[0..3]`. -/
  riskyP : Quad
  /-- `RISKY_FEED_EMPTY_TAIL`. -/
  riskyFeedEmptyTail : Bool
  /-- `RISKY_FINAL(v[0..3], len, seed)`. -/
  riskyFinal : Quad → Word → Word → Word
  /-- `MIX_NUMERAL(n, seed)`. -/
  mixNumeral : Word → Word → Word
  /-- `PTR_SALT`. -/
  ptrSalt : Word
  /-- `STABLE_Q[0..3]`, 32-bit domain primes. -/
  stableQ : Vector (BitVec 32) 4
  /-- `STABLE_AVAL(start, v[0..3], K, len, ms)`. -/
  stableAval : Word → Quad → Word → Word → Word → Word
  /-- `STABLE_K64`. -/
  stableK64 : Word
  /-- `STABLE_K128A`. -/
  stableK128A : Word := 0
  /-- `STABLE_K128B`. -/
  stableK128B : Word := 1
  stableK128_ne : stableK128A ≠ stableK128B := by decide
  /-- `PRNG_M0`, odd. -/
  prngM0 : Word := 1
  prngM0_odd : prngM0.getLsbD 0 = true := by decide
  /-- `PRNG_M1`, odd. -/
  prngM1 : Word := 1
  prngM1_odd : prngM1.getLsbD 0 = true := by decide
  /-- `PRNG_UPDATE_FORM`. -/
  prngUpdateForm : UpdateForm
  /-- `PRNG_INIT_L[0..3]`. -/
  prngInitL : Quad
  /-- `PRNG_INIT_F[0..3]`. -/
  prngInitF : Quad
  /-- `FEED_ROT0`, 0 to 63. -/
  feedRot0 : Fin 64
  /-- `FEED_ROT1`, 0 to 63. -/
  feedRot1 : Fin 64
  /-- `HAS_RUSAGE`. -/
  hasRusage : Bool
  /-- `RUSAGE_SIZE`, in bytes. -/
  rusageSize : Nat
deriving Inhabited

/-- The configuration together with the two oracles of 60_exceptions.md R116 and R117. -/
structure Env where
  cfg : Cfg
  /-- By how much the clock has advanced at its `k`-th answer: any sequence of increments is any
  non-decreasing sequence of answers (R116). -/
  clockAdvance : Nat → Word
  /-- Byte `j` of the `k`-th resource-usage snapshot (R117). -/
  rusageByte : Nat → Nat → Byte

namespace Config

/-- `RESEED_PERIOD` (00_scope.md R6, FIXED). -/
def reseedPeriod : Nat := 4096
/-- `FEED_MASK` (00_scope.md R6, FIXED). -/
def feedMask : Word := 1023
/-- `JITTER_BASE` (00_scope.md R6, FIXED). -/
def jitterBase : Nat := 16
/-- `ADDR_W` (00_scope.md R6, DECIDED). -/
def addrW : Nat := 64

/-- The configuration of this machine: any one that meets R6's constraints (assumption log 1). -/
opaque cfg : Cfg
/-- FREE VALUE: the clock input (assumption log 6). -/
opaque clockAdvance : Nat → Word
/-- FREE VALUE: the resource-usage input (assumption log 7). -/
opaque rusageByte : Nat → Nat → Byte

/-- What this machine runs with. -/
def env : Env := { cfg := cfg, clockAdvance := clockAdvance, rusageByte := rusageByte }

end Config

end Sys2Proof
end

