-- ==== Sys2Proof/Syntax.lean ====
section
/-! DEFINITION. The ten commands of 30_encoding.md R57, operands in the assembler order of R60
(destinations first), and the pseudo-instructions of R60. -/

namespace Sys2Proof

/-- A command: one constructor per row of spec/opcode_table.json. -/
inductive Instr where
  | mixnum (rd ra rb : RegNo)
  | mixptr (rd ra : RegNo)
  | rhash (rd ra rb rc : RegNo)
  | shash (rd ra rb rc : RegNo)
  | shash128 (rd re ra rb rc : RegNo)
  | shash128b (re ra rb rc : RegNo)
  | rand64 (rd : RegNo)
  | randbytes (ra rb : RegNo)
  | feed (ra rb : RegNo)
  | reseed
deriving DecidableEq, Repr

/-- The mnemonic of a command (30_encoding.md R57). -/
def Instr.mnemonic : Instr → String
  | .mixnum _ _ _ => "MIXNUM"
  | .mixptr _ _ => "MIXPTR"
  | .rhash _ _ _ _ => "RHASH"
  | .shash _ _ _ _ => "SHASH"
  | .shash128 _ _ _ _ _ => "SHASH128"
  | .shash128b _ _ _ _ => "SHASH128B"
  | .rand64 _ => "RAND64"
  | .randbytes _ _ => "RANDBYTES"
  | .feed _ _ => "FEED"
  | .reseed => "RESEED"

/-- `nop` is `mixnum r0, r0, r0` (R59, R60). -/
def Instr.nop : Instr := .mixnum 0 0 0
/-- `rhash0 rd, ra, rb` is `rhash` with seed register r0 (R60). -/
def Instr.rhash0 (rd ra rb : RegNo) : Instr := .rhash rd ra rb 0
/-- `shash0 rd, ra, rb` is `shash` with seed register r0 (R60). -/
def Instr.shash0 (rd ra rb : RegNo) : Instr := .shash rd ra rb 0
/-- `rskip` is `rand64 r0` (R60). -/
def Instr.rskip : Instr := .rand64 0

end Sys2Proof
end

