-- ==== Sys2Proof/WellFormed.lean ====
section
/-! DEFINITION. Which raw inputs are well formed. Every term of `Instr` is: its operands are register
numbers 0 to 15 by their type (30_encoding.md R56). What can be ill formed is a command WORD, checked here
against the match and mask table of R57 and R58 (the decoder of Decode.lean is written from the fields
instead), and a command STREAM, which is shorter than 2^64 words (10_state.md R20). -/

namespace Sys2Proof

/-- A row of the match and mask table of 30_encoding.md R57. -/
structure OpRow where
  mnemonic : String
  pattern : Cmd
  mask : Cmd
deriving DecidableEq, Repr

/-- The table of 30_encoding.md R57 (spec/opcode_table.json). -/
def opcodeTable : List OpRow :=
  [ ⟨"MIXNUM", 0x00000010, 0xFFF000FF⟩,
    ⟨"MIXPTR", 0x00000011, 0xFFFF00FF⟩,
    ⟨"RHASH", 0x00000020, 0xFF0000FF⟩,
    ⟨"SHASH", 0x00000030, 0xFF0000FF⟩,
    ⟨"SHASH128", 0x00000031, 0xF00000FF⟩,
    ⟨"SHASH128B", 0x00000032, 0xF0000FFF⟩,
    ⟨"RAND64", 0x00000040, 0xFFFFF0FF⟩,
    ⟨"RANDBYTES", 0x00000041, 0xFFF00FFF⟩,
    ⟨"FEED", 0x00000042, 0xFFF00FFF⟩,
    ⟨"RESEED", 0x00000043, 0xFFFFFFFF⟩ ]

/-- `(w & mask) = match` (R57). -/
def OpRow.holds (r : OpRow) (w : Cmd) : Bool := w &&& r.mask == r.pattern

/-- The word is one of the ten commands; every other word is illegal (R58). -/
def wordLegal (w : Cmd) : Bool := opcodeTable.any fun r => r.holds w

/-- A command stream has fewer than 2^64 words (10_state.md R20). -/
def streamWf (cs : List Cmd) : Bool := decide (cs.length < 2 ^ 64)

end Sys2Proof
end

