-- ==== Sys2Proof/Decode.lean ====
section
/-! DEFINITION. The decoder of a command word, total, naming why a word is illegal (30_encoding.md R58); then the
encoder, written from the same field table (R55, R57), and the assembler spelling (R60). -/

namespace Sys2Proof

/-- The three kinds of illegal word of 30_encoding.md R58. -/
inductive Illegal where
  /-- An `op` that is not one of the ten. -/
  | unknownOp
  /-- A listed `op` with `z ≠ 0`. -/
  | reservedBits
  /-- A listed `op` with a non-zero field it does not use. -/
  | unusedField
deriving DecidableEq, Repr

/-- The 4-bit register field that begins at bit `lo` (30_encoding.md R55, R56). -/
def regField (w : Cmd) (lo : Nat) : RegNo := (w.extractLsb' lo 4).toFin

/-- `i`, if the reserved bits 31:28 and every unused field are 0 (30_encoding.md R55, R58). -/
def accept (w : Cmd) (unused : List RegNo) (i : Instr) : Except Illegal Instr :=
  if w.extractLsb' 28 4 ≠ 0 then .error .reservedBits
  else if unused.all (· = 0) then .ok i
  else .error .unusedField

/-- Decoding of a command word, by the opcode map of 30_encoding.md R57. -/
def decode (w : Cmd) : Except Illegal Instr :=
  let op := w.extractLsb' 0 8
  let rd := regField w 8
  let ra := regField w 12
  let rb := regField w 16
  let rc := regField w 20
  let re := regField w 24
  if op = 0x10 then accept w [rc, re] (.mixnum rd ra rb)
  else if op = 0x11 then accept w [rb, rc, re] (.mixptr rd ra)
  else if op = 0x20 then accept w [re] (.rhash rd ra rb rc)
  else if op = 0x30 then accept w [re] (.shash rd ra rb rc)
  else if op = 0x31 then accept w [] (.shash128 rd re ra rb rc)
  else if op = 0x32 then accept w [rd] (.shash128b re ra rb rc)
  else if op = 0x40 then accept w [ra, rb, rc, re] (.rand64 rd)
  else if op = 0x41 then accept w [rd, rc, re] (.randbytes ra rb)
  else if op = 0x42 then accept w [rd, rc, re] (.feed ra rb)
  else if op = 0x43 then accept w [rd, ra, rb, rc, re] .reseed
  else .error .unknownOp

/-- A register number in the 4-bit field that begins at bit `lo`. -/
def putReg (r : RegNo) (lo : Nat) : Cmd := BitVec.ofNat 32 r.val <<< lo

/-- The word `z<<28 | re<<24 | rc<<20 | rb<<16 | ra<<12 | rd<<8 | op` with `z = 0` (30_encoding.md R61). -/
def assemble (op : BitVec 8) (rd ra rb rc re : RegNo) : Cmd :=
  putReg re 24 ||| putReg rc 20 ||| putReg rb 16 ||| putReg ra 12 ||| putReg rd 8 ||| op.setWidth 32

/-- The word of a command (30_encoding.md R55, R57). -/
def encode : Instr → Cmd
  | .mixnum rd ra rb => assemble 0x10 rd ra rb 0 0
  | .mixptr rd ra => assemble 0x11 rd ra 0 0 0
  | .rhash rd ra rb rc => assemble 0x20 rd ra rb rc 0
  | .shash rd ra rb rc => assemble 0x30 rd ra rb rc 0
  | .shash128 rd re ra rb rc => assemble 0x31 rd ra rb rc re
  | .shash128b re ra rb rc => assemble 0x32 0 ra rb rc re
  | .rand64 rd => assemble 0x40 rd 0 0 0 0
  | .randbytes ra rb => assemble 0x41 0 ra rb 0 0
  | .feed ra rb => assemble 0x42 0 ra rb 0 0
  | .reseed => assemble 0x43 0 0 0 0 0

/-- What the decoder reads from the low `nbits` bits of `w`. A command word is a number, not bytes in memory, so no byte
order applies (30_encoding.md R54); what lies above its 32 bits is no part of it. -/
def decodeTableWord (nbits w : Nat) : Option Instr :=
  match decode (BitVec.ofNat 32 (w % 2 ^ nbits)) with
  | .ok i => some i
  | .error _ => none

/-- The assembler name of a register (30_encoding.md R60). -/
def regName (r : RegNo) : String := "r" ++ toString r.val

/-- The assembler line of a command: lower-case mnemonic, destinations first (30_encoding.md R60). -/
def Instr.asm : Instr → String
  | .mixnum rd ra rb => asmLine "mixnum" [rd, ra, rb]
  | .mixptr rd ra => asmLine "mixptr" [rd, ra]
  | .rhash rd ra rb rc => asmLine "rhash" [rd, ra, rb, rc]
  | .shash rd ra rb rc => asmLine "shash" [rd, ra, rb, rc]
  | .shash128 rd re ra rb rc => asmLine "shash128" [rd, re, ra, rb, rc]
  | .shash128b re ra rb rc => asmLine "shash128b" [re, ra, rb, rc]
  | .rand64 rd => asmLine "rand64" [rd]
  | .randbytes ra rb => asmLine "randbytes" [ra, rb]
  | .feed ra rb => asmLine "feed" [ra, rb]
  | .reseed => "reseed"
where
  asmLine (mnemonic : String) (rs : List RegNo) : String :=
    mnemonic ++ " " ++ String.intercalate ", " (rs.map regName)

end Sys2Proof
end

