-- ==== Sys2Proof/Machine/State.lean ====
section
/-! DEFINITION. Everything the spec gives the machine to hold, as plain data: what is private to each port
(`Port`), what all ports share (`Shared`, 60_exceptions.md R120), and the launch's admission (20_memory.md R36).
The state after reset is that of 10_state.md R34. -/

namespace Sys2Proof.Machine

/-- The answer one access gets (10_state.md R30, R32). A port keeps the answers its command in flight has had. -/
inductive Ans where
  /-- A write answers nothing. -/
  | done
  | word (v : Word)
  | byte (b : Byte)
  /-- A resource-usage snapshot. -/
  | bytes (bs : List Byte)
deriving DecidableEq, Repr

/-- One command port: everything 60_exceptions.md R120 calls private to each port. -/
structure Port where
  /-- The stored words of `x[0..15]`; entry 0 is never read (10_state.md R15). -/
  regs : Vector Word 16
  /-- Which of `r1` to `r15` have been written since reset; entry 0 is never read (10_state.md R18). -/
  written : Vector Bool 16
  /-- The command stream `CS` in the port's command FIFO (10_state.md R19). -/
  stream : List Cmd
  /-- The command index (10_state.md R19, R20). -/
  ci : Word
  /-- `STATUS` (10_state.md R23; its fields are read and written in Machine/Flags.lean). -/
  status : Word
  /-- `FAULT_CI` (10_state.md R24). -/
  faultCi : Word
  /-- `FAULT_CMD` (10_state.md R24). -/
  faultCmd : Word
  /-- `FAULT_ADDR` (10_state.md R24). -/
  faultAddr : Word
  /-- The hidden state of a command in flight (10_state.md R32): the answers of its accesses so far, oldest first.
  Empty between commands. -/
  flight : List Ans
deriving DecidableEq, Repr

/-- A port after reset (10_state.md R34). The stored words of the unwritten registers are no value of theirs:
nothing reads them (assumption log 3). -/
def Port.reset : Port :=
  { regs := Vector.replicate 16 0, written := Vector.replicate 16 false, stream := [], ci := 0, status := 0,
    faultCi := 0, faultCmd := 0, faultAddr := 0, flight := [] }

/-- The shared PRNG state (10_state.md R26 to R29). -/
structure Prng where
  /-- The generator lanes `S.L[0..3]`. -/
  lanes : Quad
  /-- The draw counter `S.CNT`. -/
  cnt : Word
  /-- The feed buffer `S.F[0..3]`. -/
  feed : Quad
  /-- The feed offset `S.FOFS`. -/
  fofs : BitVec 2
deriving DecidableEq, Repr

/-- The fresh PRNG state (70_reset_and_hazards.md R124). -/
def Prng.reset (c : Cfg) : Prng := { lanes := c.prngInitL, cnt := 0, feed := c.prngInitF, fofs := 0 }

/-- The clock input (60_exceptions.md R116): the last timestamp it answered, and how many it has answered. -/
structure Clock where
  last : Word
  calls : Nat
deriving DecidableEq, Repr

/-- What all ports share (60_exceptions.md R120). -/
structure Shared where
  prng : Prng
  /-- Data memory: the bytes that differ from `launchByte`, by rising address (20_memory.md R35). -/
  mem : List Host.Cell
  clock : Clock
  /-- How many resource-usage snapshots have been answered (60_exceptions.md R117). -/
  rusageCalls : Nat
deriving DecidableEq, Repr

/-- A run of bytes the host admits (20_memory.md R36). -/
structure Region where
  base : Nat
  size : Nat
  readable : Bool
  writable : Bool
deriving DecidableEq, Repr

/-- The block. The ports in order of their numbers are `before`, then `port`, then `after`; `port` is the one that moves
at the next step (assumption log 9). -/
structure State where
  before : List Port
  port : Port
  after : List Port
  shared : Shared
  /-- The admission predicate `Ok` of the launch (20_memory.md R36). -/
  admits : List Region
deriving DecidableEq, Repr

/-- Why the model stops. Every fault of the spec is a next state (60_exceptions.md R109), so this is none of those. -/
inductive Fault where
  /-- Raised by `step` only: the moving port is busy and its `ci` lies past the end of its stream, where the spec gives no
  move (10_state.md R20, 70_reset_and_hazards.md R126). No run reaches it. Safe: the model stops (assumption log 11). -/
  | indexPastStream
deriving DecidableEq, Repr

/-- Why the model refuses an instruction. -/
inductive Refusal where
  /-- Raised by an arm of `exec` whose instruction has no meaning yet; no arm does. Safe: the model stops. -/
  | notModelled (mnemonic : String)
deriving DecidableEq, Repr

/-- The state after reset of a block configured by `c` (10_state.md R34), before the host has admitted any buffer or written
any memory (assumption log 4 and 5). -/
def State.resetOf (c : Cfg) : State :=
  { before := [], port := Port.reset, after := List.replicate (c.nports - 1) Port.reset,
    shared := { prng := Prng.reset c, mem := [], clock := { last := 0, calls := 0 }, rusageCalls := 0 }, admits := [] }

/-- The machine right after reset. -/
def State.reset : State := State.resetOf Config.cfg

end Sys2Proof.Machine
end

