-- ==== Sys2Proof/Machine/Flags.lean ====
section
/-! DEFINITION. The block has no condition flags (10_state.md R22). What stands here is the layout of the two
registers made of bits: `STATUS` (R23) with the cause codes of 60_exceptions.md R106, and `CFG` (R25). -/

namespace Sys2Proof.Machine

/-- The fault causes of 60_exceptions.md R106; code 0, `NONE`, is no cause. -/
inductive Cause where
  | illegalCmd
  | undefReg
  | nullBuffer
  | memFault
deriving DecidableEq, Repr

/-- The cause code recorded in `STATUS.CAUSE` (60_exceptions.md R106). -/
def Cause.code : Cause → BitVec 8
  | .illegalCmd => 1
  | .undefReg => 2
  | .nullBuffer => 3
  | .memFault => 4

/-- `w` with bit `i` set to `b`. -/
def setBit (w : Word) (i : Nat) (b : Bool) : Word :=
  (w &&& ~~~(1#64 <<< i)) ||| ((BitVec.ofBool b).setWidth 64 <<< i)

/-- `STATUS.BUSY`, bit 0 (10_state.md R23). -/
def statusBusy (st : Word) : Bool := st.getLsbD 0
/-- `STATUS.DONE`, bit 1. -/
def statusDone (st : Word) : Bool := st.getLsbD 1
/-- `STATUS.FAULT`, bit 2. -/
def statusFault (st : Word) : Bool := st.getLsbD 2
/-- `STATUS.CAUSE`, bits 15:8. -/
def statusCause (st : Word) : BitVec 8 := st.extractLsb' 8 8

/-- `STATUS.BUSY <- b`. -/
def setBusy (st : Word) (b : Bool) : Word := setBit st 0 b
/-- `STATUS.DONE <- b`. -/
def setDone (st : Word) (b : Bool) : Word := setBit st 1 b
/-- `STATUS.FAULT <- b`. -/
def setFault (st : Word) (b : Bool) : Word := setBit st 2 b
/-- `STATUS.CAUSE <- c`. -/
def setCause (st : Word) (c : BitVec 8) : Word := (st &&& ~~~(0xFF#64 <<< 8)) ||| (c.setWidth 64 <<< 8)

/-- The legal values of `STATUS` (10_state.md R23): reserved bits 7:3 and 63:16 are 0, no two of `BUSY`, `DONE` and `FAULT`
are 1, and `CAUSE` is non-zero exactly when `FAULT` is 1. -/
def statusLegal (st : Word) : Bool :=
  st &&& ~~~0xFF07#64 == 0 &&
    !(statusBusy st && statusDone st) && !(statusBusy st && statusFault st) && !(statusDone st && statusFault st) &&
    (statusFault st == (statusCause st != 0))

/-- The read-only `CFG` register (10_state.md R25). -/
def cfgRegister (c : Cfg) : Word :=
  setBit (setBit ((BitVec.ofNat 8 c.nports).setWidth 64 <<< 8) 0 c.useStableHashForRiskyHash) 1 c.hasRusage

end Sys2Proof.Machine
end

