-- ==== Sys2Proof/Machine/Action.lean ====
section
/-! DEFINITION. A command as the list of accesses its pseudocode makes, one at a time and in that order (10_state.md
R30, 20_memory.md R43, R44). Between two accesses of a command another agent may move (R47, R49), so what a
command DOES is kept apart from who else moves meanwhile: Machine/Ops.lean runs it in one go, Machine/Fetch.lean
one access at a time. -/

namespace Sys2Proof.Machine

/-- One access to what the ports share, atomic (10_state.md R30, 20_memory.md R44, 60_exceptions.md R116, R117). -/
inductive Access where
  | readL (i : Lane)
  | writeL (i : Lane) (v : Word)
  | readCnt
  | writeCnt (v : Word)
  | readF (i : Lane)
  | writeF (i : Lane) (v : Word)
  | readFofs
  | writeFofs (v : BitVec 2)
  | clock
  | rusage
  | readByte (a : Word)
  | writeByte (a : Word) (b : Byte)
deriving DecidableEq, Repr

/-- The rest of a command: complete with these register writes, raise a fault, or make an access and go on from its
answer. -/
inductive Act where
  /-- Complete: the destination registers are written, in this order (10_state.md R17, R20). -/
  | complete (writes : List (RegNo × Word))
  /-- `raise <Cause>(info)` (60_exceptions.md R109). -/
  | raise (c : Cause) (info : Word)
  | access (q : Access) (k : Ans → Act)

/-- The word an access answered. Only a word access is asked for one (assumption log 16). -/
def Ans.toWord : Ans → Word
  | .word v => v
  | .done | .byte _ | .bytes _ => 0

/-- The byte an access answered. Only a byte read is asked for one (assumption log 16). -/
def Ans.toByte : Ans → Byte
  | .byte b => b
  | .done | .word _ | .bytes _ => 0

/-- The byte string an access answered. Only a snapshot is asked for one (assumption log 16). -/
def Ans.toBytes : Ans → List Byte
  | .bytes bs => bs
  | .done | .word _ | .byte _ => []

/-- `v <- S.L[i]`. -/
def readL (i : Lane) (k : Word → Act) : Act := .access (.readL i) fun r => k r.toWord
/-- `S.L[i] <- v`. -/
def writeL (i : Lane) (v : Word) (k : Act) : Act := .access (.writeL i v) fun _ => k
/-- `v <- S.CNT`. -/
def readCnt (k : Word → Act) : Act := .access .readCnt fun r => k r.toWord
/-- `S.CNT <- v`. -/
def writeCnt (v : Word) (k : Act) : Act := .access (.writeCnt v) fun _ => k
/-- `v <- S.F[i]`. -/
def readF (i : Lane) (k : Word → Act) : Act := .access (.readF i) fun r => k r.toWord
/-- `S.F[i] <- v`. -/
def writeF (i : Lane) (v : Word) (k : Act) : Act := .access (.writeF i v) fun _ => k
/-- `k <- S.FOFS`. -/
def readFofs (k : BitVec 2 → Act) : Act := .access .readFofs fun r => k (r.toWord.setWidth 2)
/-- `S.FOFS <- v`. -/
def writeFofs (v : BitVec 2) (k : Act) : Act := .access (.writeFofs v) fun _ => k
/-- `t <- Clock()` (60_exceptions.md R116). -/
def clock (k : Word → Act) : Act := .access .clock fun r => k r.toWord
/-- `u <- Rusage()` (60_exceptions.md R117). -/
def rusage (k : List Byte → Act) : Act := .access .rusage fun r => k r.toBytes

/-- Reads `n` bytes from `a` upwards, each once (20_memory.md R37, R43). -/
def readBytes : Nat → Word → (List Byte → Act) → Act
  | 0, _, k => k []
  | n + 1, a, k => .access (.readByte a) fun r => readBytes n (a + 1) fun bs => k (r.toByte :: bs)

/-- Writes the bytes from `a` upwards, each once (20_memory.md R38, R43). -/
def writeBytes : List Byte → Word → Act → Act
  | [], _, k => k
  | b :: bs, a, k => .access (.writeByte a b) fun _ => writeBytes bs (a + 1) k

end Sys2Proof.Machine
end

