-- ==== Sys2Proof/Machine/Ops.lean ====
section
/-! DEFINITION. The named operations over registers, memory, the PRNG words and the platform inputs; a command run in
one go; completing a command; taking a fault, and Reset(), the only way out of one. -/

namespace Sys2Proof.Machine

/-! ### Command registers (10_state.md R15 to R18) -/

/-- `x[i]`: 0 for r0, the last value written for a written register, none for an unwritten one (10_state.md R16, R18). -/
def Port.readReg (p : Port) (i : RegNo) : Option Word :=
  if i = 0 then some 0 else if p.written.get i then some (p.regs.get i) else none

/-- `x[i] <- v`: nothing for r0; otherwise the register holds `v` and is written (10_state.md R17, R18). -/
def Port.writeReg (p : Port) (i : RegNo) (v : Word) : Port :=
  if i = 0 then p
  else { p with regs := p.regs.set i v, written := p.written.set i true }

/-- Register writes in order; a later one of the same register stands (42_stablehash.md R92, D30). -/
def Port.writeRegs (p : Port) (ws : List (RegNo × Word)) : Port := ws.foldl (fun p w => p.writeReg w.1 w.2) p

/-! ### Data memory (20_memory.md R35, R47) -/

abbrev Memory := List Host.Cell

/-- What a byte that nobody has written reads as (assumption log 4). -/
def launchByte : Byte := 0

/-- `ByteAt(a)` (20_memory.md R37, R47). -/
def Memory.read : Memory → Nat → Byte
  | [], _ => launchByte
  | (k, b) :: m, a => if k = a then b else Memory.read m a

/-- A cell put in its place among cells of rising address. -/
def Memory.insert : Memory → Nat → Byte → Memory
  | [], a, b => [(a, b)]
  | (k, c) :: m, a, b => if a < k then (a, b) :: (k, c) :: m else (k, c) :: Memory.insert m a b

/-- One byte write (20_memory.md R38, R44). A byte that becomes `launchByte` is not listed. -/
def Memory.write (m : Memory) (a : Nat) (b : Byte) : Memory :=
  let rest := m.filter fun c => c.1 ≠ a
  if b = launchByte then rest else Memory.insert rest a b

/-- The one canonical form: rising addresses below 2^64, no entry equal to what an unlisted byte reads as. -/
abbrev Memory.wf (m : Memory) : Prop :=
  m.Pairwise (fun c d => c.1 < d.1) ∧ ∀ c ∈ m, c.1 < 2 ^ 64 ∧ c.2 ≠ launchByte

/-- The bytes `a, a+1, ...` read in order: what `n` byte reads see when nobody writes between them. -/
def Memory.readRange (m : Memory) (a : Word) : Nat → List Byte
  | 0 => []
  | n + 1 => Memory.read m a.toNat :: Memory.readRange m (a + 1) n

/-- Byte writes to `a, a+1, ...` in order (20_memory.md R38). -/
def Memory.writeRange (m : Memory) (a : Word) : List Byte → Memory
  | [] => m
  | b :: bs => Memory.writeRange (Memory.write m a.toNat b) (a + 1) bs

/-! ### Admission (20_memory.md R36) -/

/-- `k ∈ {read, write}`. -/
inductive AccessKind where
  | read
  | write
deriving DecidableEq, Repr

/-- `Ok(b, k)`: some region of the launch holds byte `b` and grants `k`. -/
def okByte (admits : List Region) (k : AccessKind) (b : Nat) : Bool :=
  admits.any fun r => decide (r.base ≤ b) && decide (b < r.base + r.size) &&
    (match k with
     | .read => r.readable
     | .write => r.writable)

/-- The first of the `n` byte addresses from `a` that is not `Ok`. -/
def firstBad (admits : List Region) (k : AccessKind) : Nat → Nat → Option Nat
  | _, 0 => none
  | a, n + 1 => if okByte admits k a then firstBad admits k (a + 1) n else some a

/-- The first rejected address of the range of `n` bytes at `a`, none when the range is admitted; 0 for a range that
only wraps (20_memory.md R36). -/
def rejected (admits : List Region) (k : AccessKind) (a : Word) (n : Nat) : Option Word :=
  match firstBad admits k a.toNat (min n (2 ^ Config.addrW - a.toNat)) with
  | some b => some (BitVec.ofNat 64 b)
  | none => if 2 ^ Config.addrW < a.toNat + n then some 0 else none

/-! ### Platform inputs (60_exceptions.md R116, R117) -/

/-- The next timestamp: never below the last, and it stays at 2^64 - 1 (60_exceptions.md R116). -/
def clockNext (e : Env) (c : Clock) : Word :=
  let inc := e.clockAdvance c.calls
  if c.last.toNat + inc.toNat < 2 ^ 64 then c.last + inc else BitVec.allOnes 64

/-- The `k`-th snapshot: `RUSAGE_SIZE` bytes (60_exceptions.md R117). -/
def snapshot (e : Env) (k : Nat) : List Byte := (List.range e.cfg.rusageSize).map (e.rusageByte k)

/-! ### One access, and a command in one go -/

/-- The PRNG state as a state to update within what is shared. -/
def Shared.setPrng (h : Shared) (p : Prng) : Shared := { h with prng := p }

/-- One atomic access: its answer and what it leaves (10_state.md R30, R31; 20_memory.md R44). -/
def perform (e : Env) (h : Shared) : Access → Ans × Shared
  | .readL i => (.word (h.prng.lanes.get i), h)
  | .writeL i v => (.done, h.setPrng { h.prng with lanes := h.prng.lanes.set i v })
  | .readCnt => (.word h.prng.cnt, h)
  | .writeCnt v => (.done, h.setPrng { h.prng with cnt := v })
  | .readF i => (.word (h.prng.feed.get i), h)
  | .writeF i v => (.done, h.setPrng { h.prng with feed := h.prng.feed.set i v })
  | .readFofs => (.word (h.prng.fofs.setWidth 64), h)
  | .writeFofs v => (.done, h.setPrng { h.prng with fofs := v })
  | .clock => (.word (clockNext e h.clock), { h with clock := { last := clockNext e h.clock, calls := h.clock.calls + 1 } })
  | .rusage => (.bytes (snapshot e h.rusageCalls), { h with rusageCalls := h.rusageCalls + 1 })
  | .readByte a => (.byte (Memory.read h.mem a.toNat), h)
  | .writeByte a b => (.done, { h with mem := Memory.write h.mem a.toNat b })

def State.setPort (s : State) (p : Port) : State := { s with port := p }
def State.setShared (s : State) (h : Shared) : State := { s with shared := h }

/-- The end of a stream: `BUSY <- 0`, `DONE <- 1` (70_reset_and_hazards.md R126). -/
def Port.endStream (p : Port) : Port := { p with status := setDone (setBusy p.status false) true }

/-- `ci <- ci + 1`, and in the same step the end of the stream when `ci` reaches its length (10_state.md R20,
70_reset_and_hazards.md R126). The command's hidden state is gone (10_state.md R32). -/
def Port.advance (p : Port) : Port :=
  let q := { p with ci := p.ci + 1, flight := [] }
  if q.ci.toNat = q.stream.length then q.endStream else q

/-- What completing a command does: its register writes, last of all it does, then `ci` (10_state.md R17, R20). -/
def retire (ws : List (RegNo × Word)) (s : State) : State := s.setPort (s.port.writeRegs ws).advance

/-- The command word `CS[ci]`; none past the end of the stream (10_state.md R19). -/
def Port.fetch (p : Port) : Option Cmd := p.stream[p.ci.toNat]?

/-- Taking a fault, `raise <Cause>(info)` (60_exceptions.md R109): the port records it and halts; `ci`, its registers and
everything shared stay as they are (R110). -/
def Port.enterFault (p : Port) (c : Cause) (info : Word) : Port :=
  { p with
    faultCi := p.ci
    faultCmd := (p.fetch.getD 0).setWidth 64
    faultAddr := info
    status := setDone (setBusy (setFault (setCause p.status c.code) true) false) false
    flight := [] }

/-- `Port.enterFault` in the port that moves; other ports are not affected (60_exceptions.md R109). -/
def enterFault (c : Cause) (info : Word) (s : State) : State := s.setPort (s.port.enterFault c info)

/-- `Reset()` (70_reset_and_hazards.md R123): every port and the PRNG take their reset values, a command in flight is
abandoned; data memory, the platform inputs and the launch's admission stay. There is no return from a fault, so this is the
only way out of one (60_exceptions.md R111). -/
def resetBlock (e : Env) (s : State) : State :=
  { before := s.before.map fun _ => Port.reset
    port := Port.reset
    after := s.after.map fun _ => Port.reset
    shared := s.shared.setPrng (Prng.reset e.cfg)
    admits := s.admits }

/-- A command in one go: its accesses in order with nobody moving between them, then its completion or its fault. -/
def Act.run (e : Env) : Act → State → State
  | .complete ws, s => retire ws s
  | .raise c info, s => enterFault c info s
  | .access q k, s => Act.run e (k (perform e s.shared q).1) (s.setShared (perform e s.shared q).2)

/-- What is left of a command after its first accesses had these answers (10_state.md R32). -/
def Act.resume : Act → List Ans → Act
  | .access _ k, r :: rs => Act.resume (k r) rs
  | a, _ => a

/-- The accesses a command makes when nobody moves between them, in order. -/
def Act.trace (e : Env) : Act → Shared → List Access
  | .complete _, _ => []
  | .raise _ _, _ => []
  | .access q k, h => q :: Act.trace e (k (perform e h q).1) (perform e h q).2

/-- A command with its meaning as a whole: it always leaves a next state, a fault of the spec being one (60_exceptions.md
R109, 70_reset_and_hazards.md R127). -/
def runWhole (a : Act) (s : State) : Host.Outcome State Fault Refusal := .next (a.run Config.env s)

end Sys2Proof.Machine
end

