-- ==== Sys2Proof/Machine/Operands.lean ====
section
/-! DEFINITION. The operand form of the block, a register number (30_encoding.md R56), and the checks every command makes
on its operands before its first access, in the order of 60_exceptions.md R108. -/

namespace Sys2Proof.Machine

/-- The value of source register `i`, or `UNDEF_REG` with the register's number (10_state.md R18, 60_exceptions.md R106). -/
def source (s : State) (i : RegNo) (k : Word → Act) : Act :=
  match s.port.readReg i with
  | some v => k v
  | none => .raise .undefReg (BitVec.ofNat 64 i.val)

/-- The null-buffer rule for `n` bytes at `a` (20_memory.md R42). -/
def notNull (a : Word) (n : Nat) (k : Act) : Act := if a = 0 ∧ 0 < n then .raise .nullBuffer 0 else k

/-- Admission of `n` bytes at `a`, or `MEM_FAULT` with the first rejected address (20_memory.md R36, R41). -/
def admitted (s : State) (kind : AccessKind) (a : Word) (n : Nat) (k : Act) : Act :=
  match rejected s.admits kind a n with
  | none => k
  | some b => .raise .memFault b

end Sys2Proof.Machine
end

