-- ==== Sys2Proof/Machine/Mixing.lean ====
section
/-! DEFINITION. The mixing commands MIXNUM and MIXPTR (40_mixing.md R66 to R69). -/

namespace Sys2Proof.Machine

/-- `mix_pointer(p)` (40_mixing.md R67): the address first, the fixed salt second. -/
def mixPointer (c : Cfg) (p : Word) : Word := c.mixNumeral p c.ptrSalt

/-- `MIXNUM rd, ra, rb` (40_mixing.md R68). -/
def planMixnum (e : Env) (rd ra rb : RegNo) (s : State) : Act :=
  source s ra fun n => source s rb fun seed => .complete [(rd, e.cfg.mixNumeral n seed)]

/-- `MIXPTR rd, ra` (40_mixing.md R69): the address is never dereferenced. -/
def planMixptr (e : Env) (rd ra : RegNo) (s : State) : Act :=
  source s ra fun p => .complete [(rd, mixPointer e.cfg p)]

def execMixnum (rd ra rb : RegNo) (s : State) : Host.Outcome State Fault Refusal :=
  runWhole (planMixnum Config.env rd ra rb s) s

def execMixptr (rd ra : RegNo) (s : State) : Host.Outcome State Fault Refusal :=
  runWhole (planMixptr Config.env rd ra s) s

end Sys2Proof.Machine
end

