-- ==== Sys2Proof/Machine/Primitives.lean ====
section
/-! DEFINITION. The internal primitives of 40_mixing.md R62 to R65 on words and byte strings. -/

namespace Sys2Proof.Machine

/-- `rotl64(v, r)` (40_mixing.md R62). -/
def rotl64 (v : Word) (r : Nat) : Word :=
  let s := r % 64
  if s = 0 then v else (v <<< s) ||| (v >>> (64 - s))

/-- The number a byte string stands for, byte 0 lowest: `Σ_j B[j]·2^(8j)` (20_memory.md R37, 40_mixing.md R65). -/
def leNat : List Byte → Nat
  | [] => 0
  | b :: bs => b.toNat + 256 * leNat bs

/-- `pack_le` of the given bytes (40_mixing.md R65); of eight bytes it is `le64` (R64). -/
def packLe (bs : List Byte) : Word := BitVec.ofNat 64 (leNat bs)

/-- Byte `j` of a word, `(v >> 8j) & 0xFF` (20_memory.md R38). -/
def byteOf (v : Word) (j : Nat) : Byte := (v >>> (8 * j)).setWidth 8

/-- The eight bytes of a word in address order (20_memory.md R38, R39). -/
def leBytes (v : Word) : List Byte := (List.range 8).map (byteOf v)

/-- `bswap64(v)` (40_mixing.md R63): byte `j` of the result is byte `7-j` of `v`. -/
def bswap64 (v : Word) : Word := packLe (leBytes v).reverse

/-- `le64` at offset `o` of a byte string, which is how the hash engines read a buffer (41_riskyhash.md R78). -/
def le64At (bs : List Byte) (o : Nat) : Word := packLe ((bs.drop o).take 8)

end Sys2Proof.Machine
end

