-- ==== Sys2Proof/Machine/Stable.lean ====
section
/-! DEFINITION. StableHash (42_stablehash.md R81 to R90) as a function of the byte string read, and its commands SHASH,
SHASH128 and SHASH128B (R91 to R93). -/

namespace Sys2Proof.Machine

/-- The mixed seed `ms` (42_stablehash.md R81). -/
def stableSeed (seed len : Word) : Word :=
  let s1 := seed + len
  let s2 := s1 ^^^ rotl64 s1 47
  (s2 <<< 1) ||| 1

/-- `SRound(i, w)` on lane `i` (42_stablehash.md R83); the prime is zero-extended (00_scope.md R10). -/
def stableRound (c : Cfg) (ms : Word) (i : Lane) (w : Word) (v : Quad) : Quad :=
  let q := (c.stableQ.get i).setWidth 64
  v.set i ((v.get i + w + q) * q + (rotl64 w 19 + ms))

/-- One word into each lane, in the order 0 to 3. -/
def stableRounds (c : Cfg) (ms : Word) (w : Lane → Word) (v : Quad) : Quad :=
  [0, 1, 2, 3].foldl (fun v i => stableRound c ms i (w i) v) v

/-- Full block `b` of the input (42_stablehash.md R84). -/
def stableBlock (c : Cfg) (ms : Word) (bs : List Byte) (v : Quad) (b : Nat) : Quad :=
  stableRounds c ms (fun i => le64At bs (32 * b + 8 * i.val)) v

/-- The tail block read as four words, the length added into the last (42_stablehash.md R85). -/
def stableTailWord (bs : List Byte) (j : Lane) : Word :=
  let w := le64At (bs.drop (32 * (bs.length / 32))) (8 * j.val)
  if j = 3 then w + BitVec.ofNat 64 bs.length else w

/-- The four lanes after the tail round, the internal 256-bit state (42_stablehash.md R82 to R86). -/
def stableLanes (c : Cfg) (bs : List Byte) (ms : Word) : Quad :=
  let v := (List.range (bs.length / 32)).foldl (stableBlock c ms bs) (Vector.replicate 4 ms)
  stableRounds c ms (stableTailWord bs) v

/-- The lane sum, modulo 2^64 (42_stablehash.md R88). -/
def laneSum (v : Quad) : Word := v.get 0 + v.get 1 + v.get 2 + v.get 3

/-- The lane XOR (42_stablehash.md R89). -/
def laneXor (v : Quad) : Word := v.get 0 ^^^ v.get 1 ^^^ v.get 2 ^^^ v.get 3

/-- `stable_hash_bytes(B, seed)` (42_stablehash.md R88). -/
def stableHash (c : Cfg) (bs : List Byte) (seed : Word) : Word :=
  let len := BitVec.ofNat 64 bs.length
  let ms := stableSeed seed len
  let v := stableLanes c bs ms
  c.stableAval (laneSum v) v c.stableK64 len ms

/-- `stable_hash128` of a byte string: `(h0, h1)` (42_stablehash.md R89). -/
def stableHash128 (c : Cfg) (bs : List Byte) (seed : Word) : Word × Word :=
  let len := BitVec.ofNat 64 bs.length
  let ms := stableSeed seed len
  let v := stableLanes c bs ms
  (c.stableAval (laneSum v) v c.stableK128A len ms, c.stableAval (laneXor v) v c.stableK128B len ms)

/-- `SHASH rd, ra, rb, rc` (42_stablehash.md R91). -/
def planShash (e : Env) (rd ra rb rc : RegNo) (s : State) : Act :=
  source s ra fun a => source s rb fun n => source s rc fun seed =>
  notNull a n.toNat <| admitted s .read a n.toNat <|
  readBytes n.toNat a fun bs => .complete [(rd, stableHash e.cfg bs seed)]

/-- `SHASH128 rd, re, ra, rb, rc` (42_stablehash.md R92): `rd` is written before `re`. -/
def planShash128 (e : Env) (rd re ra rb rc : RegNo) (s : State) : Act :=
  source s ra fun a => source s rb fun n => source s rc fun seed =>
  notNull a n.toNat <| admitted s .read a n.toNat <|
  readBytes n.toNat a fun bs =>
  .complete [(rd, (stableHash128 e.cfg bs seed).1), (re, (stableHash128 e.cfg bs seed).2)]

/-- `SHASH128B re, ra, rb, rc` (42_stablehash.md R93): all reads, then `h0` and `h1` at `x[re]`, little-endian. -/
def planShash128b (e : Env) (re ra rb rc : RegNo) (s : State) : Act :=
  source s ra fun a => source s rb fun n => source s rc fun seed => source s re fun d =>
  notNull a n.toNat <| notNull d 16 <|
  admitted s .read a n.toNat <| admitted s .write d 16 <|
  readBytes n.toNat a fun bs =>
  let h := stableHash128 e.cfg bs seed
  writeBytes (leBytes h.1 ++ leBytes h.2) d <| .complete []

def execShash (rd ra rb rc : RegNo) (s : State) : Host.Outcome State Fault Refusal :=
  runWhole (planShash Config.env rd ra rb rc s) s

def execShash128 (rd re ra rb rc : RegNo) (s : State) : Host.Outcome State Fault Refusal :=
  runWhole (planShash128 Config.env rd re ra rb rc s) s

def execShash128b (re ra rb rc : RegNo) (s : State) : Host.Outcome State Fault Refusal :=
  runWhole (planShash128b Config.env re ra rb rc s) s

end Sys2Proof.Machine
end

