-- ==== Sys2Proof/Machine/Risky.lean ====
section
/-! DEFINITION. RiskyHash (41_riskyhash.md R70 to R79) as a function of the byte string read, and its command RHASH
(R80). -/

namespace Sys2Proof.Machine

/-- `RRound(i, w)` on lane `i` (41_riskyhash.md R70). -/
def riskyRound (c : Cfg) (i : Lane) (w : Word) (v : Quad) : Quad :=
  v.set i ((rotl64 (v.get i + w) 29 + w) * c.riskyP.get i)

/-- Lane initialisation and seed injection (41_riskyhash.md R72): seed 0 leaves the lanes at `RISKY_IV`. -/
def riskyInit (c : Cfg) (seed : Word) : Quad :=
  if seed = 0 then c.riskyIV
  else Vector.ofFn fun i => if i = 0 then c.riskyIV.get i * seed else c.riskyIV.get i * seed ^^^ seed

/-- Full block `b` of the input (41_riskyhash.md R73). -/
def riskyBlock (c : Cfg) (bs : List Byte) (v : Quad) (b : Nat) : Quad :=
  [0, 1, 2, 3].foldl (fun v i => riskyRound c i (le64At bs (32 * b + 8 * i.val)) v) v

/-- The lane of the tail word, `(len mod 32) div 8` (41_riskyhash.md R76). -/
def riskyTailLane (len : Nat) : Lane := ⟨len % 32 / 8, by omega⟩

/-- The tail word `tw` (41_riskyhash.md R75). -/
def riskyTailWord (bs : List Byte) : Word :=
  packLe (bs.drop (8 * (bs.length / 8))) ||| (BitVec.ofNat 64 (bs.length % 256) <<< 56)

/-- Whole 8-byte tail words into lanes 0, 1, 2 in order (41_riskyhash.md R74). -/
def riskyTailWords (c : Cfg) (bs : List Byte) (v : Quad) : Quad :=
  ([0, 1, 2].filter fun j => j < riskyTailLane bs.length).foldl
    (fun v j => riskyRound c j (le64At bs (32 * (bs.length / 32) + 8 * j.val)) v) v

/-- The four lanes before the finaliser (41_riskyhash.md R72 to R76). -/
def riskyLanes (c : Cfg) (bs : List Byte) (seed : Word) : Quad :=
  let v := (List.range (bs.length / 32)).foldl (riskyBlock c bs) (riskyInit c seed)
  let v := riskyTailWords c bs v
  if bs.length % 8 ≠ 0 ∨ c.riskyFeedEmptyTail then riskyRound c (riskyTailLane bs.length) (riskyTailWord bs) v else v

/-- `risky_hash_bytes(B, seed)` (41_riskyhash.md R78), or StableHash when the redirect is set. -/
def riskyHash (c : Cfg) (bs : List Byte) (seed : Word) : Word :=
  if c.useStableHashForRiskyHash then stableHash c bs seed
  else c.riskyFinal (riskyLanes c bs seed) (BitVec.ofNat 64 bs.length) seed

/-- `RHASH rd, ra, rb, rc` (41_riskyhash.md R80). -/
def planRhash (e : Env) (rd ra rb rc : RegNo) (s : State) : Act :=
  source s ra fun a => source s rb fun n => source s rc fun seed =>
  notNull a n.toNat <| admitted s .read a n.toNat <|
  readBytes n.toNat a fun bs => .complete [(rd, riskyHash e.cfg bs seed)]

def execRhash (rd ra rb rc : RegNo) (s : State) : Host.Outcome State Fault Refusal :=
  runWhole (planRhash Config.env rd ra rb rc s) s

end Sys2Proof.Machine
end

