-- ==== Sys2Proof/Machine/Random.lean ====
section
/-! DEFINITION. The PRNG procedures Draw, Reseed, Feed and RandBytes (43_prng.md R94 to R101), each the list of accesses its
pseudocode makes, and the commands RAND64, RANDBYTES, FEED and RESEED (R102 to R105). -/

namespace Sys2Proof.Machine

/-! ### Draw (43_prng.md R94 to R96) -/

/-- The multiplier `m[i]` (43_prng.md R95). -/
def laneMultiplier (c : Cfg) (i : Lane) : Word :=
  if i = 0 then c.prngM0 else if i = 1 then c.prngM1 else if i = 2 then ~~~c.prngM0 else ~~~c.prngM1

/-- The additive term `add[i]` (43_prng.md R95). -/
def laneAddend (i : Lane) (cnt : Word) : Word := if i = 0 ∨ i = 2 then cnt else 0

/-- `LaneNext(i, s, c)` (43_prng.md R95). -/
def laneNext (c : Cfg) (i : Lane) (s cnt : Word) : Word :=
  match c.prngUpdateForm with
  | .literal => (rotl64 s 33 + laneAddend i cnt) * laneMultiplier c i + s
  | .addFirst => (s + rotl64 s 33 + laneAddend i cnt) * laneMultiplier c i

/-- The drawn value of the four updated lanes (43_prng.md R96). -/
def drawOutput (n0 n1 n2 n3 : Word) : Word := rotl64 n0 31 + rotl64 n1 29 + rotl64 n2 27 + rotl64 n3 30

/-! ### Reseed (43_prng.md R98) -/

/-- The jitter sample count, 16 to 31, from `S.L[0]` at entry (43_prng.md R98). -/
def sampleCount (l0 : Word) : Nat := Config.jitterBase + (l0 &&& 15).toNat

/-- `m` jitter samples, the first of them number `i` (43_prng.md R98). -/
def jitter (c : Cfg) : Nat → Nat → Act → Act
  | 0, _, k => k
  | m + 1, i, k =>
    clock fun t => readCnt fun cnt =>
    readL 0 fun l0 => writeL 0 (l0 ^^^ c.mixNumeral (t + cnt) (l0 + BitVec.ofNat 64 i)) <|
    readL 1 fun l1 => writeL 1 (l1 ^^^ c.mixNumeral (t + cnt) (l1 + BitVec.ofNat 64 i)) <|
    jitter c m (i + 1) k

/-- The resource-usage step, once and only with `HAS_RUSAGE` (43_prng.md R98, 60_exceptions.md R117). -/
def mixRusage (c : Cfg) (k : Act) : Act :=
  if c.hasRusage then rusage fun u => readL 0 fun l0 => writeL 0 (l0 ^^^ riskyHash c u l0) k else k

/-- The feed mix into lanes 2 and 3 and the update of the feed buffer (43_prng.md R98). -/
def mixFeed (c : Cfg) (k : Act) : Act :=
  readF 0 fun f0 => readF 1 fun f1 => readF 2 fun f2 => readF 3 fun f3 =>
  readL 0 fun l0 => readL 1 fun l1 =>
  readL 2 fun l2 => writeL 2 (l2 ^^^ (c.mixNumeral f0 l0 + c.mixNumeral f1 l1)) <|
  readL 3 fun l3 => writeL 3 (l3 ^^^ (c.mixNumeral f2 l0 + c.mixNumeral f3 l1)) <|
  writeF 0 (rotl64 f0 c.feedRot0.val) <| writeF 1 (rotl64 f1 c.feedRot1.val) <|
  writeF 2 (f2 ^^^ rotl64 f0 c.feedRot0.val) <| writeF 3 (f3 ^^^ rotl64 f1 c.feedRot1.val) k

/-- `Reseed()` (43_prng.md R98): jitter, resource usage, feed mix, feed update, counter, in this order. -/
def reseed (c : Cfg) (k : Act) : Act :=
  readL 0 fun l0 => jitter c (sampleCount l0) 0 <| mixRusage c <| mixFeed c <|
  readCnt fun cnt => writeCnt (cnt + BitVec.ofNat 64 (sampleCount l0)) k

/-- `s <- S.L[i]; n <- LaneNext(i, s, c); S.L[i] <- n` (43_prng.md R94). -/
def updateLane (c : Cfg) (cnt : Word) (i : Lane) (k : Word → Act) : Act :=
  readL i fun s => writeL i (laneNext c i s cnt) (k (laneNext c i s cnt))

/-- The lane updates and the output of a draw, from the second read of `S.CNT` on (43_prng.md R94). -/
def drawLanes (c : Cfg) (k : Word → Act) : Act :=
  readCnt fun cnt =>
  updateLane c cnt 0 fun n0 => updateLane c cnt 1 fun n1 => updateLane c cnt 2 fun n2 => updateLane c cnt 3 fun n3 =>
  k (drawOutput n0 n1 n2 n3)

/-- The counter value at which a draw reseeds first (43_prng.md R94). -/
def reseedDue (cnt : Word) : Bool := cnt.toNat % Config.reseedPeriod == 0

/-- `Draw()` (43_prng.md R94). -/
def draw (c : Cfg) (k : Word → Act) : Act :=
  readCnt fun cnt => writeCnt (cnt + 1) <|
  if reseedDue (cnt + 1) then reseed c (drawLanes c k) else drawLanes c k

/-! ### Feed and bulk fill (43_prng.md R100, R101) -/

/-- The feed lane an offset selects (10_state.md R29). -/
def feedLane (k : BitVec 2) : Lane := k.toFin

/-- `S.F[k] <- S.F[k] ^ w; k <- (k + 1) mod 4` (43_prng.md R100). -/
def feedWord (w : Word) (k : BitVec 2) (next : BitVec 2 → Act) : Act :=
  readF (feedLane k) fun f => writeF (feedLane k) (f ^^^ w) <| next (k + 1)

/-- `m` 8-byte chunks from `a` on (43_prng.md R100). -/
def feedChunks : Nat → Word → BitVec 2 → (BitVec 2 → Act) → Act
  | 0, _, k, next => next k
  | m + 1, a, k, next =>
    readBytes 8 a fun bs => feedWord (packLe bs) k fun k => feedChunks m (a + 8) k next

/-- `Feed(a, n)` for the masked length `n` (43_prng.md R100). -/
def feed (a : Word) (n : Nat) (k : Act) : Act :=
  if n = 0 then k
  else
    readFofs fun o => feedChunks (n / 8) a o fun o =>
    if n % 8 = 0 then writeFofs o k
    else readBytes (n % 8) (a + BitVec.ofNat 64 (8 * (n / 8))) fun bs => feedWord (packLe bs) o fun o => writeFofs o k

/-- Four draws in order, and their 32 bytes, little-endian (43_prng.md R101). -/
def drawBatch (c : Cfg) (k : List Byte → Act) : Act :=
  draw c fun d0 => draw c fun d1 => draw c fun d2 => draw c fun d3 =>
  k (leBytes d0 ++ leBytes d1 ++ leBytes d2 ++ leBytes d3)

/-- `m` batches written whole from `a` on (43_prng.md R101). -/
def fillBlocks (c : Cfg) : Nat → Word → (Word → Act) → Act
  | 0, a, k => k a
  | m + 1, a, k => drawBatch c fun bs => writeBytes bs a <| fillBlocks c m (a + 32) k

/-- `RandBytes(a, n)` (43_prng.md R101): a last batch only for a remainder, and only its first bytes. -/
def randBytes (c : Cfg) (a : Word) (n : Nat) (k : Act) : Act :=
  fillBlocks c (n / 32) a fun a =>
  if n % 32 = 0 then k else drawBatch c fun bs => writeBytes (bs.take (n % 32)) a k

/-! ### Commands -/

/-- `RAND64 rd` (43_prng.md R102). -/
def planRand64 (e : Env) (rd : RegNo) (_ : State) : Act := draw e.cfg fun v => .complete [(rd, v)]

/-- `RANDBYTES ra, rb` (43_prng.md R103). -/
def planRandbytes (e : Env) (ra rb : RegNo) (s : State) : Act :=
  source s ra fun a => source s rb fun n =>
  notNull a n.toNat <| admitted s .write a n.toNat <|
  randBytes e.cfg a n.toNat <| .complete []

/-- `FEED ra, rb` (43_prng.md R104): only `x[rb] & 1023` counts. -/
def planFeed (ra rb : RegNo) (s : State) : Act :=
  source s ra fun a => source s rb fun len =>
  let n := (len &&& Config.feedMask).toNat
  notNull a n <| admitted s .read a n <| feed a n <| .complete []

/-- `RESEED` (43_prng.md R105). -/
def planReseed (e : Env) (_ : State) : Act := reseed e.cfg <| .complete []

def execRand64 (rd : RegNo) (s : State) : Host.Outcome State Fault Refusal := runWhole (planRand64 Config.env rd s) s

def execRandbytes (ra rb : RegNo) (s : State) : Host.Outcome State Fault Refusal :=
  runWhole (planRandbytes Config.env ra rb s) s

def execFeed (ra rb : RegNo) (s : State) : Host.Outcome State Fault Refusal := runWhole (planFeed ra rb s) s

def execReseed (s : State) : Host.Outcome State Fault Refusal := runWhole (planReseed Config.env s) s

end Sys2Proof.Machine
end

