-- ==== Sys2Proof/Machine/Dispatch.lean ====
section
/-! DEFINITION. Every command and its meaning. -/

namespace Sys2Proof.Machine

def exec (i : Instr) (s : State) : Host.Outcome State Fault Refusal :=
  match i with
  | .mixnum rd ra rb => Sys2Proof.Machine.execMixnum rd ra rb s
  | .mixptr rd ra => Sys2Proof.Machine.execMixptr rd ra s
  | .rhash rd ra rb rc => Sys2Proof.Machine.execRhash rd ra rb rc s
  | .shash rd ra rb rc => Sys2Proof.Machine.execShash rd ra rb rc s
  | .shash128 rd re ra rb rc => Sys2Proof.Machine.execShash128 rd re ra rb rc s
  | .shash128b re ra rb rc => Sys2Proof.Machine.execShash128b re ra rb rc s
  | .rand64 rd => Sys2Proof.Machine.execRand64 rd s
  | .randbytes ra rb => Sys2Proof.Machine.execRandbytes ra rb s
  | .feed ra rb => Sys2Proof.Machine.execFeed ra rb s
  | .reseed => Sys2Proof.Machine.execReseed s

end Sys2Proof.Machine
end

