-- ==== Sys2Proof/Machine/Fetch.lean ====
section
/-! DEFINITION. What a busy port does with the command word at its index, and at the end of its stream. -/

namespace Sys2Proof.Machine

/-- The accesses and the completion of a command, whose operands are read when it begins (10_state.md R16). -/
def plan (e : Env) (i : Instr) (s : State) : Act :=
  match i with
  | .mixnum rd ra rb => planMixnum e rd ra rb s
  | .mixptr rd ra => planMixptr e rd ra s
  | .rhash rd ra rb rc => planRhash e rd ra rb rc s
  | .shash rd ra rb rc => planShash e rd ra rb rc s
  | .shash128 rd re ra rb rc => planShash128 e rd re ra rb rc s
  | .shash128b re ra rb rc => planShash128b e re ra rb rc s
  | .rand64 rd => planRand64 e rd s
  | .randbytes ra rb => planRandbytes e ra rb s
  | .feed ra rb => planFeed ra rb s
  | .reseed => planReseed e s

/-- What is left of command `i`, given the answers its accesses have had. A port's registers and the admission do not
change while its command is in flight, so its operands are still there (10_state.md R33, 20_memory.md R36). -/
def planLeft (e : Env) (i : Instr) (s : State) : Act := (plan e i s).resume s.port.flight

/-- Word `w` in one go: a legal word runs, from its beginning or from where its flight stands; every other word raises
`ILLEGAL_CMD` (30_encoding.md R58). -/
def runWord (w : Cmd) (s : State) : Host.Outcome State Fault Refusal :=
  match decode w with
  | .ok i => if s.port.flight.isEmpty then exec i s else runWhole (planLeft Config.env i s) s
  | .error _ => .next (enterFault .illegalCmd 0 s)

/-- A busy port without a word at `ci`: an empty stream ends in the first step after its submission
(70_reset_and_hazards.md R126). Past the end of a stream the spec gives no move. -/
def runOffStream (s : State) : Host.Outcome State Fault Refusal :=
  if s.port.ci.toNat = s.port.stream.length then .next (s.setPort s.port.endStream) else .fault .indexPastStream

/-- Word `w`, of which the port makes only the next access, or completes it when none is left. -/
def accessWord (w : Cmd) (s : State) : Host.Outcome State Fault Refusal :=
  match decode w with
  | .ok i =>
    match planLeft Config.env i s with
    | .complete ws => .next (retire ws s)
    | .raise c info => .next (enterFault c info s)
    | .access q _ =>
      let r := perform Config.env s.shared q
      .next ((s.setShared r.2).setPort { s.port with flight := s.port.flight ++ [r.1] })
  | .error _ => .next (enterFault .illegalCmd 0 s)

/-- The word placed where the port fetches next: over the word at `ci` of a running stream, or else as a stream of its own,
freshly submitted (10_state.md R33 `HostSubmit`). -/
def Port.placeWord (p : Port) (w : Cmd) : Port :=
  if statusBusy p.status ∧ p.ci.toNat < p.stream.length then
    { p with stream := p.stream.set p.ci.toNat w, flight := [] }
  else
    { p with stream := [w], ci := 0, status := setBusy 0 true, flight := [] }

end Sys2Proof.Machine
end

