-- ==== Sys2Proof/Machine/Step.lean ====
section
/-! DEFINITION. One step of the port that moves: its whole next command. -/

namespace Sys2Proof.Machine

/-- A busy port runs its next command; a port that is idle, done or halted executes nothing until the host submits a
stream or resets it (60_exceptions.md R111, R122). -/
def step (s : State) : Host.Outcome State Fault Refusal :=
  if statusBusy s.port.status then
    match s.port.fetch with
    | some w => runWord w s
    | none => runOffStream s
  else .next s

/-- One access of the port that moves (10_state.md R30): `step` cut at every point where another agent can move. -/
def accessStep (s : State) : Host.Outcome State Fault Refusal :=
  if statusBusy s.port.status then
    match s.port.fetch with
    | some w => accessWord w s
    | none => runOffStream s
  else .next s

/-- `s` with the command word `w` where the next step fetches (assumption log 12). -/
def State.withFetchWord (s : State) (nbits w : Nat) : State :=
  s.setPort (s.port.placeWord (BitVec.ofNat 32 (w % 2 ^ nbits)))

end Sys2Proof.Machine
end

