-- ==== Sys2Proof/Machine/Agents.lean ====
section
/-! DEFINITION. The agents of 10_state.md R14 and their moves: the ports, which move one access or one whole command at
a time, and the host, with exactly the moves of R33. An execution of the block is any sequence of these events: that is
how accesses of different ports, and host moves, fall between one another (R30, 20_memory.md R47, R49). -/

namespace Sys2Proof.Machine

/-! ### Ports by number (10_state.md R14, 60_exceptions.md R120) -/

/-- The ports `P[0..NPORTS-1]`. -/
def State.ports (s : State) : List Port := s.before ++ s.port :: s.after

/-- The same block with port `n` the one that moves; none when there is no such port. -/
def State.focus (s : State) (n : Nat) : Option State :=
  match s.ports.drop n with
  | [] => none
  | p :: rest => some { s with before := s.ports.take n, port := p, after := rest }

/-- Port `n` replaced by `p`. -/
def State.replacePort (s : State) (n : Nat) (p : Port) : State :=
  if n < s.before.length then { s with before := s.before.set n p }
  else if n = s.before.length then { s with port := p }
  else { s with after := s.after.set (n - s.before.length - 1) p }

/-- Every port has `BUSY = 0`. -/
def State.allIdle (s : State) : Bool := s.ports.all fun p => !statusBusy p.status

/-! ### Host moves (10_state.md R33) -/

/-- The moves of the host. -/
inductive HostMove where
  | writeReg (p : Nat) (i : RegNo) (v : Word)
  | readReg (p : Nat) (i : RegNo)
  | submit (p : Nat) (cs : List Cmd)
  | readStatus (p : Nat)
  | readCfg
  | prngRead
  | prngWrite (st : Prng)
  | memWrite (a : Word) (bs : List Byte)
  | memRead (a : Word) (n : Nat)
  | reset
deriving DecidableEq, Repr

/-- What a host move returns. -/
inductive HostReply where
  | done
  | value (v : Word)
  /-- `HostReadReg` of an unwritten register. -/
  | noValue
  | status (status faultCi faultCmd faultAddr : Word)
  | prng (st : Prng)
  | bytes (bs : List Byte)
deriving DecidableEq, Repr

/-- A submitted stream: `ci <- 0`, `DONE <- 0`, `BUSY <- 1` (10_state.md R33). -/
def Port.submit (p : Port) (cs : List Cmd) : Port :=
  { p with stream := cs, ci := 0, status := setBusy (setDone p.status false) true, flight := [] }

/-- A host move on an existing port, where its condition holds; none where the host waits (10_state.md R33). -/
def hostPortMove (s : State) (n : Nat) (f : Port → Option (HostReply × Port)) : Option (HostReply × State) :=
  match s.ports[n]? with
  | none => none
  | some p =>
    match f p with
    | none => none
    | some (r, q) => some (r, s.replacePort n q)

/-- The host moves of 10_state.md R33: the reply and what the move leaves, none where there is no such move or its
condition is false and the host waits. -/
def hostMove (e : Env) (s : State) : HostMove → Option (HostReply × State)
  | .writeReg n i v =>
    hostPortMove s n fun p => if !statusBusy p.status && i ≠ 0 then some (.done, p.writeReg i v) else none
  | .readReg n i =>
    hostPortMove s n fun p =>
      if statusBusy p.status then none
      else match p.readReg i with
        | some v => some (.value v, p)
        | none => some (.noValue, p)
  | .submit n cs =>
    hostPortMove s n fun p =>
      if !statusBusy p.status && !statusFault p.status && streamWf cs then some (.done, p.submit cs) else none
  | .readStatus n => hostPortMove s n fun p => some (.status p.status p.faultCi p.faultCmd p.faultAddr, p)
  | .readCfg => some (.value (cfgRegister e.cfg), s)
  | .prngRead => if s.allIdle then some (.prng s.shared.prng, s) else none
  | .prngWrite st => if s.allIdle then some (.done, s.setShared (s.shared.setPrng st)) else none
  | .memWrite a bs =>
    if a.toNat + bs.length ≤ 2 ^ Config.addrW then
      some (.done, s.setShared { s.shared with mem := Memory.writeRange s.shared.mem a bs })
    else none
  | .memRead a n =>
    if a.toNat + n ≤ 2 ^ Config.addrW then some (.bytes (Memory.readRange s.shared.mem a n), s) else none
  | .reset => some (.done, resetBlock e s)

/-! ### Executions -/

/-- One move of one agent. -/
inductive Event where
  /-- Port `p` runs its next command whole, or what is left of it. -/
  | command (p : Nat)
  /-- Port `p` makes one access. -/
  | access (p : Nat)
  | host (m : HostMove)
deriving DecidableEq, Repr

/-- What an event leaves; none where the agent has no such move. -/
def Event.apply (ev : Event) (s : State) : Option State :=
  match ev with
  | .command n =>
    match s.focus n with
    | none => none
    | some t =>
      match step t with
      | .next u => some u
      | .fault _ | .refused _ => none
  | .access n =>
    match s.focus n with
    | none => none
    | some t =>
      match accessStep t with
      | .next u => some u
      | .fault _ | .refused _ => none
  | .host m =>
    match hostMove Config.env s m with
    | none => none
    | some (_, t) => some t

/-- A sequence of events, each of which its agent can make. -/
def runEvents : List Event → State → Option State
  | [], s => some s
  | ev :: evs, s =>
    match ev.apply s with
    | none => none
    | some t => runEvents evs t

end Sys2Proof.Machine
end

