-- ==== Sys2Proof/Safety.lean ====
section
/-! DEFINITION. The terms the claims use: what a command leaves when it completes and when it faults, the invariant of
the block, and the spec's own wording of admission and of the long procedures, to hold the meanings against. -/

namespace Sys2Proof.Machine

/-! ### Completion and faults -/

/-- `t` is what a completed command with destination registers `dst` leaves of everything private to ports, and of the
launch: the frame of every command. `ci` is one further, and the stream ends in the same step when `ci` reaches its length
(10_state.md R17, R20, 70_reset_and_hazards.md R126). What is shared is not spoken of here. -/
structure Completed (dst : List RegNo) (s t : State) : Prop where
  before : t.before = s.before
  after : t.after = s.after
  admits : t.admits = s.admits
  stream : t.port.stream = s.port.stream
  ci : t.port.ci = s.port.ci + 1
  flight : t.port.flight = []
  status : t.port.status = if (s.port.ci + 1).toNat = s.port.stream.length
    then setDone (setBusy s.port.status false) true else s.port.status
  faultCi : t.port.faultCi = s.port.faultCi
  faultCmd : t.port.faultCmd = s.port.faultCmd
  faultAddr : t.port.faultAddr = s.port.faultAddr
  regs : ∀ r, r ∉ dst → t.port.readReg r = s.port.readReg r

/-- `t` is what fault `c` with `info` leaves of `s` (60_exceptions.md R109, R110). -/
structure TookFault (c : Cause) (info : Word) (s t : State) : Prop where
  before : t.before = s.before
  after : t.after = s.after
  admits : t.admits = s.admits
  shared : t.shared = s.shared
  regs : t.port.regs = s.port.regs
  written : t.port.written = s.port.written
  stream : t.port.stream = s.port.stream
  ci : t.port.ci = s.port.ci
  flight : t.port.flight = []
  faultCi : t.port.faultCi = s.port.ci
  faultCmd : ∀ w, s.port.fetch = some w → t.port.faultCmd = w.setWidth 64
  faultAddr : t.port.faultAddr = info
  busy : statusBusy t.port.status = false
  done : statusDone t.port.status = false
  fault : statusFault t.port.status = true
  cause : statusCause t.port.status = c.code

/-- The source registers of a command, in the order of 60_exceptions.md R108. -/
def sources : Instr → List RegNo
  | .mixnum _ ra rb => [ra, rb]
  | .mixptr _ ra => [ra]
  | .rhash _ ra rb rc => [ra, rb, rc]
  | .shash _ ra rb rc => [ra, rb, rc]
  | .shash128 _ _ ra rb rc => [ra, rb, rc]
  | .shash128b re ra rb rc => [ra, rb, rc, re]
  | .rand64 _ => []
  | .randbytes ra rb => [ra, rb]
  | .feed ra rb => [ra, rb]
  | .reseed => []

/-- `Admit(a, n, k)` (20_memory.md R36). -/
def Admit (admits : List Region) (k : AccessKind) (a : Word) (n : Nat) : Prop :=
  a.toNat + n ≤ 2 ^ 64 ∧ ∀ j < n, okByte admits k (a.toNat + j) = true

/-- `b` is the first rejected address of the range of `n` bytes at `a` (20_memory.md R36). -/
def FirstRejected (admits : List Region) (k : AccessKind) (a : Word) (n : Nat) (b : Word) : Prop :=
  (∃ j < n, a.toNat + j < 2 ^ 64 ∧ b = BitVec.ofNat 64 (a.toNat + j) ∧
    okByte admits k (a.toNat + j) = false ∧ ∀ m < j, okByte admits k (a.toNat + m) = true) ∨
  ((∀ j < n, a.toNat + j < 2 ^ 64 → okByte admits k (a.toNat + j) = true) ∧ 2 ^ 64 < a.toNat + n ∧ b = 0)

/-- A buffer of `n` bytes at `a` that a command may use for `k`: not null unless it is empty, and admitted (20_memory.md
R41, R42). -/
def Usable (s : State) (k : AccessKind) (a : Word) (n : Nat) : Prop :=
  (a = 0 → n = 0) ∧ Admit s.admits k a n

/-! ### The invariant of the block -/

/-- What holds of every port in every execution. -/
structure Port.Inv (p : Port) : Prop where
  /-- 10_state.md R23. -/
  legal : statusLegal p.status = true
  /-- 10_state.md R20. -/
  length : p.stream.length < 2 ^ 64
  index : p.ci.toNat ≤ p.stream.length
  /-- A running stream has a next command, or is empty (70_reset_and_hazards.md R126). -/
  running : statusBusy p.status = true → p.ci.toNat < p.stream.length ∨ p.stream = []
  ended : statusDone p.status = true → p.ci.toNat = p.stream.length
  /-- A command in flight is the command at `ci` of a running stream (10_state.md R32). -/
  inFlight : p.flight ≠ [] → statusBusy p.status = true ∧ p.ci.toNat < p.stream.length
  /-- The fault registers name the command at `ci` after a fault, and are 0 before one (10_state.md R24, 60_exceptions.md
  R109, R111). -/
  faulted : statusFault p.status = true →
    p.faultCi = p.ci ∧ (∃ w, p.fetch = some w ∧ p.faultCmd = w.setWidth 64) ∧ (statusCause p.status).toNat ≤ 4
  unfaulted : statusFault p.status = false → p.faultCi = 0 ∧ p.faultCmd = 0 ∧ p.faultAddr = 0

/-- What holds of the block in every execution. -/
structure State.Inv (s : State) : Prop where
  ports : ∀ p ∈ s.ports, p.Inv
  /-- 00_scope.md R6 `NPORTS`. -/
  count : s.ports.length = Config.cfg.nports
  memory : Memory.wf s.shared.mem

/-! ### Procedures in the spec's own shape -/

/-- The jitter samples of a reseed on the clock and lanes 0 and 1, with the counter they are combined with (43_prng.md
R98): `m` samples, the first of them number `i`. -/
def jitterLoop (e : Env) (cnt : Word) : Nat → Nat → Clock × Word × Word → Clock × Word × Word
  | 0, _, x => x
  | m + 1, i, (c, l0, l1) =>
    let t := clockNext e c
    jitterLoop e cnt m (i + 1)
      ({ last := t, calls := c.calls + 1 },
        l0 ^^^ e.cfg.mixNumeral (t + cnt) (l0 + BitVec.ofNat 64 i),
        l1 ^^^ e.cfg.mixNumeral (t + cnt) (l1 + BitVec.ofNat 64 i))

/-- Word `m` of a byte string cut into 8-byte pieces, the last one possibly shorter (43_prng.md R100). -/
def feedPiece (bs : List Byte) (m : Nat) : Word := packLe ((bs.drop (8 * m)).take 8)

/-- The feed buffer after the words of `bs` went in from offset `o` on (43_prng.md R100). -/
def feedFold (bs : List Byte) (o : BitVec 2) (f : Quad) : Quad :=
  (List.range ((bs.length + 7) / 8)).foldl
    (fun f m => let i := feedLane (o + BitVec.ofNat 2 m); f.set i (f.get i ^^^ feedPiece bs m)) f

/-- One draw as the command RAND64 makes it: the value, and what is shared after it (43_prng.md R102). -/
def drawOnce (s : State) : Option (Word × Shared) :=
  match exec (.rand64 1) s with
  | .next t => (t.port.readReg 1).map fun v => (v, t.shared)
  | .fault _ | .refused _ => none

/-- `n` draws in order, and what is shared after them. -/
def drawTimes : Nat → State → Option (List Word × Shared)
  | 0, s => some ([], s.shared)
  | n + 1, s =>
    match drawOnce s with
    | none => none
    | some (v, h) =>
      match drawTimes n (s.setShared h) with
      | none => none
      | some (vs, h') => some (v :: vs, h')

/-- A command `n` times over. -/
def execTimes (i : Instr) : Nat → State → Host.Outcome State Fault Refusal
  | 0, s => .next s
  | n + 1, s =>
    match exec i s with
    | .next t => execTimes i n t
    | .fault r => .fault r
    | .refused r => .refused r

/-- `n` accesses of the port that moves, with nobody moving between them. -/
def accessTimes : Nat → State → Host.Outcome State Fault Refusal
  | 0, s => .next s
  | n + 1, s =>
    match accessStep s with
    | .next t => accessTimes n t
    | .fault r => .fault r
    | .refused r => .refused r

/-- The two ports agree but for the stored words of r0 and of unwritten registers, which are no values (10_state.md R18). -/
def Port.AgreeOnValues (p q : Port) : Prop :=
  q = { p with regs := q.regs } ∧ ∀ r, r ≠ 0 → p.written.get r = true → q.regs.get r = p.regs.get r

end Sys2Proof.Machine
end

