-- ==== Sys2Proof/Certificates/Slice0/Obligations.lean ====
section
/-! DEFINITION. The statements for the provers. Each formalises what the spec says a command or the block does; the terms they
use (`Completed`, `TookFault`, `Usable`, `State.Inv`, ...) are in Sys2Proof/Safety.lean. The configuration `Config.cfg` and the
inputs in `Config.env` are uninterpreted: a statement holds whatever they are (00_scope.md R7). -/

open Sys2Proof Sys2Proof.Machine

/-! ### Encoding -/

/-- Decoding the word of a command gives the command back, every operand at every value. -/
def Obligations.DecodeUndoesEncode : Prop := ∀ i : Instr, decode (encode i) = .ok i

/-- A legal word is the word of the command it decodes to: no bit of it is dropped (R55, R58). -/
def Obligations.EncodeUndoesDecode : Prop := ∀ (w : Cmd) (i : Instr), decode w = .ok i → encode i = w

/-- The decoder accepts exactly the words the match and mask table describes, no word lies in two rows, and the command
decoded is the row's (R57). -/
def Obligations.DecodesExactlyTheTable : Prop :=
  ∀ w : Cmd,
    ((∃ i, decode w = .ok i) ↔ wordLegal w = true) ∧
    (opcodeTable.filter fun r => r.holds w).length ≤ 1 ∧
    ∀ i, decode w = .ok i → ∃ r ∈ opcodeTable, r.holds w = true ∧ r.mnemonic = i.mnemonic

/-- The worked encodings of R61, both ways, and its formula for a word. -/
def Obligations.WorkedEncodings : Prop :=
  (∀ x ∈ [((0x00321420 : Cmd), Instr.rhash 4 1 2 3), (0x00021530, .shash 5 1 2 0), (0x07321631, .shash128 6 7 1 2 3),
      (0x08321032, .shash128b 8 1 2 3), (0x00031910, .mixnum 9 1 3), (0x00001911, .mixptr 9 1), (0x00000A40, .rand64 10),
      (0x00021041, .randbytes 1 2), (0x00021042, .feed 1 2), (0x00000043, .reseed)],
    decode x.1 = .ok x.2 ∧ encode x.2 = x.1) ∧
  ∀ (op : BitVec 8) (rd ra rb rc re : RegNo), assemble op rd ra rb rc re =
    (0 : Cmd) <<< 28 ||| BitVec.ofNat 32 re <<< 24 ||| BitVec.ofNat 32 rc <<< 20 ||| BitVec.ofNat 32 rb <<< 16 |||
      BitVec.ofNat 32 ra <<< 12 ||| BitVec.ofNat 32 rd <<< 8 ||| op.setWidth 32

/-- R58: a word is illegal exactly when its `op` is none of the ten or some bit that its row fixes at 0 (a field the command
does not use, or `z`) is set; executing an illegal word raises `ILLEGAL_CMD`. -/
def Obligations.IllegalWordRaisesIllegalCmd : Prop :=
  (∀ w : Cmd, wordLegal w = false ↔
    (∀ r ∈ opcodeTable, w &&& 0xFF ≠ r.pattern) ∨
    (∃ r ∈ opcodeTable, w &&& 0xFF = r.pattern ∧ w &&& r.mask &&& ~~~0xFF ≠ 0)) ∧
  wordLegal 0 = false ∧
  ∀ (s : State) (w : Cmd), statusBusy s.port.status = true → s.port.fetch = some w → wordLegal w = false →
    ∃ t, step s = .next t ∧ TookFault .illegalCmd 0 s t

/-! ### The step -/

/-- A step of a busy port between two commands runs the command at `ci` (R19, R20). -/
def Obligations.StepRunsTheDecodedCommand : Prop :=
  ∀ (s : State) (w : Cmd) (i : Instr), statusBusy s.port.status = true → s.port.flight = [] →
    s.port.fetch = some w → decode w = .ok i → step s = exec i s

/-- A port that is not busy executes nothing, by command or by access (R111, R122; log 10). -/
def Obligations.IdlePortExecutesNothing : Prop :=
  ∀ s : State, statusBusy s.port.status = false → step s = .next s ∧ accessStep s = .next s

/-- R126: the stream ends in the same step as its last command's `ci <- ci + 1`, and not before; an empty stream ends in the
first step; then the host may read the registers and submit a stream, which starts at `ci = 0` with the registers as they
were. -/
def Obligations.StreamEndsWithItsLastCommand : Prop :=
  (∀ (i : Instr) (s t : State), exec i s = .next t → t.port.ci = s.port.ci + 1 →
    if t.port.ci.toNat = s.port.stream.length then
      statusBusy t.port.status = false ∧ statusDone t.port.status = true
    else t.port.status = s.port.status) ∧
  (∀ s : State, statusBusy s.port.status = true → s.port.stream = [] → s.port.ci = 0 →
    ∃ t, step s = .next t ∧ statusBusy t.port.status = false ∧ statusDone t.port.status = true ∧
      t = s.setPort { s.port with status := t.port.status }) ∧
  (∀ (s : State) (n : Nat) (p : Port) (cs : List Cmd), s.ports[n]? = some p → statusBusy p.status = false →
    statusFault p.status = false → streamWf cs = true →
    ∃ t q, hostMove Config.env s (.submit n cs) = some (.done, t) ∧ t.ports[n]? = some q ∧ q.stream = cs ∧ q.ci = 0 ∧
      (∀ r, q.readReg r = p.readReg r) ∧ ∀ r, (hostMove Config.env s (.readReg n r)).isSome = true)

/-- The spec leaves no port stuck (70_reset_and_hazards.md R127): from a state that meets the invariant both a step and an
access answer a next state. -/
def Obligations.NoPortIsEverStuck : Prop :=
  ∀ s : State, s.Inv → (∃ t, step s = .next t) ∧ ∃ t, accessStep s = .next t

/-! ### Faults -/

/-- The first unwritten source register in the order `ra`, `rb`, `rc`, `re` raises `UNDEF_REG` with its number, in every
command, before every other fault of the command (R18, R108). -/
def Obligations.FirstUnwrittenSourceRaisesUndefReg : Prop :=
  ∀ (i : Instr) (s : State) (pre post : List RegNo) (r : RegNo), sources i = pre ++ r :: post →
    (∀ q ∈ pre, s.port.readReg q ≠ none) → s.port.readReg r = none →
    ∃ t, exec i s = .next t ∧ TookFault .undefReg (BitVec.ofNat 64 r) s t

/-- R42: a null buffer of non-zero effective length raises `NULL_BUFFER` in every command that has a buffer, and a null
destination raises it in SHASH128B, whatever its source; with effective length 0 the address does not matter (that is, a
buffer command then faults with another cause or not at all). -/
def Obligations.NullBufferRaisesNullBuffer : Prop :=
  (∀ (s : State) (rd re ra rb rc : RegNo) (n seed : Word),
    s.port.readReg ra = some 0 → s.port.readReg rb = some n →
    (0 < n.toNat → s.port.readReg rc = some seed →
      (∃ t, exec (.rhash rd ra rb rc) s = .next t ∧ TookFault .nullBuffer 0 s t) ∧
      (∃ t, exec (.shash rd ra rb rc) s = .next t ∧ TookFault .nullBuffer 0 s t) ∧
      (∃ t, exec (.shash128 rd re ra rb rc) s = .next t ∧ TookFault .nullBuffer 0 s t)) ∧
    (∀ d, 0 < n.toNat → s.port.readReg rc = some seed → s.port.readReg re = some d →
      ∃ t, exec (.shash128b re ra rb rc) s = .next t ∧ TookFault .nullBuffer 0 s t) ∧
    (0 < n.toNat → ∃ t, exec (.randbytes ra rb) s = .next t ∧ TookFault .nullBuffer 0 s t) ∧
    (0 < (n &&& 1023).toNat → ∃ t, exec (.feed ra rb) s = .next t ∧ TookFault .nullBuffer 0 s t)) ∧
  (∀ (s : State) (re ra rb rc : RegNo) (a n seed : Word), s.port.readReg ra = some a → s.port.readReg rb = some n →
    s.port.readReg rc = some seed → s.port.readReg re = some 0 →
    ∃ t, exec (.shash128b re ra rb rc) s = .next t ∧ TookFault .nullBuffer 0 s t) ∧
  ∀ (s t : State) (i : Instr) (rd re ra rb rc : RegNo) (n : Word), statusFault s.port.status = false →
    s.port.readReg rb = some n → n = 0 ∨ n &&& 1023 = 0 ∧ i = .feed ra rb → (∀ d, s.port.readReg re = some d → d ≠ 0) →
    i ∈ [Instr.rhash rd ra rb rc, .shash rd ra rb rc, .shash128 rd re ra rb rc, .shash128b re ra rb rc,
      .randbytes ra rb, .feed ra rb] →
    exec i s = .next t → statusFault t.port.status = true → statusCause t.port.status ≠ Cause.nullBuffer.code

/-- A range that is not admitted raises `MEM_FAULT` with its first rejected address, once registers and nulls are in order;
for SHASH128B the read range comes before the write range (R36, R41, R108). -/
def Obligations.RejectedRangeRaisesMemFault : Prop :=
  ∀ (s : State) (rd re ra rb rc : RegNo) (a n b : Word), s.port.readReg ra = some a → s.port.readReg rb = some n →
    (∀ seed, (a = 0 → n = 0) → s.port.readReg rc = some seed → FirstRejected s.admits .read a n.toNat b →
      (∃ t, exec (.rhash rd ra rb rc) s = .next t ∧ TookFault .memFault b s t) ∧
      (∃ t, exec (.shash rd ra rb rc) s = .next t ∧ TookFault .memFault b s t) ∧
      (∃ t, exec (.shash128 rd re ra rb rc) s = .next t ∧ TookFault .memFault b s t) ∧
      ∀ d, s.port.readReg re = some d → d ≠ 0 →
        ∃ t, exec (.shash128b re ra rb rc) s = .next t ∧ TookFault .memFault b s t) ∧
    (∀ seed d, s.port.readReg rc = some seed → s.port.readReg re = some d → d ≠ 0 → Usable s .read a n.toNat →
      FirstRejected s.admits .write d 16 b →
      ∃ t, exec (.shash128b re ra rb rc) s = .next t ∧ TookFault .memFault b s t) ∧
    ((a = 0 → n = 0) → FirstRejected s.admits .write a n.toNat b →
      ∃ t, exec (.randbytes ra rb) s = .next t ∧ TookFault .memFault b s t) ∧
    ((a = 0 → n &&& 1023 = 0) → FirstRejected s.admits .read a (n &&& 1023).toNat b →
      ∃ t, exec (.feed ra rb) s = .next t ∧ TookFault .memFault b s t)

/-- R36: the check the commands make rejects a range exactly when it is not admitted, and then with its first rejected
address; a range of length 0 is always admitted; no event changes the launch's predicate. -/
def Obligations.AdmissionCheckIsTheSpecs : Prop :=
  (∀ (admits : List Region) (k : AccessKind) (a : Word) (n : Nat),
    (rejected admits k a n = none ↔ Admit admits k a n) ∧
    (∀ b, rejected admits k a n = some b ↔ FirstRejected admits k a n b) ∧
    Admit admits k a 0) ∧
  ∀ (ev : Event) (s t : State), ev.apply s = some t → t.admits = s.admits

/-- R109: what taking a fault records, and that the port then executes nothing more. -/
def Obligations.FaultEntry : Prop :=
  ∀ (c : Cause) (info : Word) (s : State),
    TookFault c info s (enterFault c info s) ∧
    step (enterFault c info s) = .next (enterFault c info s) ∧
    accessStep (enterFault c info s) = .next (enterFault c info s)

/-- R110: a command that faults has made no access at all and leaves registers, memory, PRNG state and `ci` as they were. -/
def Obligations.FaultsArePrecise : Prop :=
  ∀ (i : Instr) (s t : State), exec i s = .next t → statusFault s.port.status = false →
    statusFault t.port.status = true →
    (plan Config.env i s).trace Config.env s.shared = [] ∧ t.shared = s.shared ∧ t.port.regs = s.port.regs ∧
      t.port.written = s.port.written ∧ t.port.ci = s.port.ci ∧ t.port.faultCi = s.port.ci

/-- R111: a halted port keeps its fault, its fault registers, its `ci` and its stream through every event but `Reset()`, which
clears the fault; no stream can be submitted to it; the host may still read its registers, status and fault registers. -/
def Obligations.FaultStaysUntilReset : Prop :=
  ∀ (s : State) (n : Nat) (p : Port), s.ports[n]? = some p → statusFault p.status = true →
    statusBusy p.status = false →
    (∀ cs, hostMove Config.env s (.submit n cs) = none) ∧
    (∀ r, ∃ v t, hostMove Config.env s (.readReg n r) = some (v, t) ∧
      ∀ w, p.readReg r = some w → v = .value w) ∧
    (∃ t, hostMove Config.env s (.readStatus n) = some (.status p.status p.faultCi p.faultCmd p.faultAddr, t)) ∧
    (∃ t q, Event.apply (.host .reset) s = some t ∧ t.ports[n]? = some q ∧ statusFault q.status = false) ∧
    ∀ (ev : Event) (t : State), ev ≠ .host .reset → ev.apply s = some t →
      ∃ q, t.ports[n]? = some q ∧ q.status = p.status ∧ q.faultCi = p.faultCi ∧ q.faultCmd = p.faultCmd ∧
        q.faultAddr = p.faultAddr ∧ q.ci = p.ci ∧ q.stream = p.stream

/-! ### Mixing and hash commands -/

/-- MIXNUM writes `MIX_NUMERAL(x[ra], x[rb])` and touches nothing else (R68); r0 as destination discards it. -/
def Obligations.MixnumResult : Prop :=
  ∀ (s : State) (rd ra rb : RegNo) (n seed : Word), s.port.readReg ra = some n → s.port.readReg rb = some seed →
    ∃ t, exec (.mixnum rd ra rb) s = .next t ∧ Completed [rd] s t ∧ t.shared = s.shared ∧
      t.port.readReg rd = some (if rd = 0 then 0 else Config.cfg.mixNumeral n seed)

/-- MIXPTR writes `MIX_NUMERAL(x[ra], PTR_SALT)`, whatever the admission of the address (R67, R69). -/
def Obligations.MixptrResult : Prop :=
  ∀ (s : State) (rd ra : RegNo) (p : Word), s.port.readReg ra = some p →
    ∃ t, exec (.mixptr rd ra) s = .next t ∧ Completed [rd] s t ∧ t.shared = s.shared ∧
      t.port.readReg rd = some (if rd = 0 then 0 else Config.cfg.mixNumeral p Config.cfg.ptrSalt)

/-- RHASH writes RiskyHash of its buffer's bytes, or StableHash of them under the redirect, and touches nothing else (R78,
R80). -/
def Obligations.RhashResult : Prop :=
  ∀ (s : State) (rd ra rb rc : RegNo) (a n seed : Word), s.port.readReg ra = some a → s.port.readReg rb = some n →
    s.port.readReg rc = some seed → Usable s .read a n.toNat →
    let bs := Memory.readRange s.shared.mem a n.toNat
    ∃ t, exec (.rhash rd ra rb rc) s = .next t ∧ Completed [rd] s t ∧ t.shared = s.shared ∧
      t.port.readReg rd = some (if rd = 0 then 0
        else if Config.cfg.useStableHashForRiskyHash then stableHash Config.cfg bs seed
        else Config.cfg.riskyFinal (riskyLanes Config.cfg bs seed) n seed)

/-- SHASH writes the 64-bit StableHash of its buffer's bytes and touches nothing else (R88, R91). -/
def Obligations.ShashResult : Prop :=
  ∀ (s : State) (rd ra rb rc : RegNo) (a n seed : Word), s.port.readReg ra = some a → s.port.readReg rb = some n →
    s.port.readReg rc = some seed → Usable s .read a n.toNat →
    let ms := stableSeed seed n
    let v := stableLanes Config.cfg (Memory.readRange s.shared.mem a n.toNat) ms
    ∃ t, exec (.shash rd ra rb rc) s = .next t ∧ Completed [rd] s t ∧ t.shared = s.shared ∧
      t.port.readReg rd = some (if rd = 0 then 0
        else Config.cfg.stableAval (v.get 0 + v.get 1 + v.get 2 + v.get 3) v Config.cfg.stableK64 n ms)

/-- SHASH128 writes `h0` to `rd` and then `h1` to `re`, and touches nothing else (R89, R92). -/
def Obligations.Shash128Result : Prop :=
  ∀ (s : State) (rd re ra rb rc : RegNo) (a n seed : Word), s.port.readReg ra = some a → s.port.readReg rb = some n →
    s.port.readReg rc = some seed → Usable s .read a n.toNat →
    let ms := stableSeed seed n
    let v := stableLanes Config.cfg (Memory.readRange s.shared.mem a n.toNat) ms
    let h0 := Config.cfg.stableAval (v.get 0 + v.get 1 + v.get 2 + v.get 3) v Config.cfg.stableK128A n ms
    let h1 := Config.cfg.stableAval (v.get 0 ^^^ v.get 1 ^^^ v.get 2 ^^^ v.get 3) v Config.cfg.stableK128B n ms
    ∃ t, exec (.shash128 rd re ra rb rc) s = .next t ∧ Completed [rd, re] s t ∧ t.shared = s.shared ∧
      (rd ≠ re → t.port.readReg rd = some (if rd = 0 then 0 else h0)) ∧
      t.port.readReg re = some (if re = 0 then 0 else h1)

/-- SHASH128B stores the bytes of `h0` and then of `h1`, little-endian, at `x[re]`; every other byte, every register and the
PRNG state stay (R89, R93). The digest is of the bytes as they were, also where the target overlaps the source (R131). -/
def Obligations.Shash128bResult : Prop :=
  ∀ (s : State) (re ra rb rc : RegNo) (a n seed d : Word), s.port.readReg ra = some a → s.port.readReg rb = some n →
    s.port.readReg rc = some seed → s.port.readReg re = some d → Usable s .read a n.toNat → d ≠ 0 →
    Admit s.admits .write d 16 →
    let h := stableHash128 Config.cfg (Memory.readRange s.shared.mem a n.toNat) seed
    ∃ t, exec (.shash128b re ra rb rc) s = .next t ∧ Completed [] s t ∧
      t.shared = { s.shared with mem := t.shared.mem } ∧
      (∀ j < 8, Memory.read t.shared.mem (d.toNat + j) = byteOf h.1 j) ∧
      (∀ j < 8, Memory.read t.shared.mem (d.toNat + 8 + j) = byteOf h.2 j) ∧
      ∀ x, x < d.toNat ∨ d.toNat + 16 ≤ x → Memory.read t.shared.mem x = Memory.read s.shared.mem x

/-! ### Primitives and hash engines -/

/-- R62: bit `i` of a left rotation by `r` is bit `(i - r mod 64) mod 64` of the word; rotation by a multiple of 64 is the
identity; otherwise it is the two shifts of the rule. -/
def Obligations.RotateLeft : Prop :=
  ∀ (v : Word) (r : Nat),
    (∀ i < 64, (rotl64 v r).getLsbD i = v.getLsbD ((i + (64 - r % 64)) % 64)) ∧
    (r % 64 = 0 → rotl64 v r = v) ∧
    (r % 64 ≠ 0 → rotl64 v r = v <<< (r % 64) ||| v >>> (64 - r % 64))

/-- R63: byte swap reverses the bytes and undoes itself. -/
def Obligations.ByteSwap : Prop :=
  ∀ v : Word, (∀ j < 8, byteOf (bswap64 v) j = byteOf v (7 - j)) ∧ bswap64 (bswap64 v) = v

/-- Packing is little-endian and fills no bit above its bytes, packing nothing gives 0, and packing undoes splitting (R37,
R38, R64, R65). -/
def Obligations.PackingIsLittleEndian : Prop :=
  (∀ bs : List Byte, bs.length ≤ 8 →
    (∀ j < bs.length, byteOf (packLe bs) j = bs.getD j 0) ∧ (packLe bs).toNat < 2 ^ (8 * bs.length)) ∧
  packLe [] = 0 ∧ ∀ v : Word, packLe (leBytes v) = v

/-- R72: seed 0 leaves the lanes at `RISKY_IV`; any other seed multiplies all four and is XORed into lanes 1 to 3. -/
def Obligations.RiskySeedInjection : Prop :=
  ∀ (c : Cfg) (seed : Word),
    (seed = 0 → riskyInit c seed = c.riskyIV) ∧
    (seed ≠ 0 → (riskyInit c seed).get 0 = c.riskyIV.get 0 * seed ∧
      ∀ i : Lane, i ≠ 0 → (riskyInit c seed).get i = (c.riskyIV.get i * seed) ^^^ seed)

/-- R71: the RiskyHash lanes are independent. Two inputs of one length that agree outside the bytes of lane `i` (offsets `o`
with `o mod 32` in `8i .. 8i+7`, which for the tail bytes is the lane of R76) give the same other lanes before the
finaliser. -/
def Obligations.RiskyLanesAreIndependent : Prop :=
  ∀ (c : Cfg) (seed : Word) (bs cs : List Byte) (i : Lane), bs.length = cs.length →
    (∀ o, o % 32 / 8 ≠ i.val → bs.getD o 0 = cs.getD o 0) →
    ∀ k : Lane, k ≠ i → (riskyLanes c bs seed).get k = (riskyLanes c cs seed).get k

/-- A buffer of 1 to 7 bytes goes into lane 0 as one padded tail word (R75, R76, the example of R80). -/
def Obligations.RiskyHashOfShortBuffer : Prop :=
  ∀ (c : Cfg) (bs : List Byte), c.useStableHashForRiskyHash = false → 1 ≤ bs.length → bs.length ≤ 7 →
    let tw := packLe bs ||| BitVec.ofNat 64 bs.length <<< 56
    riskyHash c bs 0 = c.riskyFinal
      #v[(rotl64 (c.riskyIV.get 0 + tw) 29 + tw) * c.riskyP.get 0, c.riskyIV.get 1, c.riskyIV.get 2, c.riskyIV.get 3]
      (BitVec.ofNat 64 bs.length) 0

/-- What each RiskyHash lane holds before the finaliser, for every length: from its initial value (R72) it absorbs, in this order
and each by one round (R70), its word of every full block (R73), a whole tail word if there is one at its offset (R74), and
the padded tail word (R75) if that is its lane and there are leftover bytes or `RISKY_FEED_EMPTY_TAIL` is set (R76). One block
of 32 bytes is one round of each lane. -/
def Obligations.RiskyLanesByRounds : Prop :=
  ∀ (c : Cfg) (bs : List Byte) (seed : Word) (i : Lane),
    let absorb : Word → Word → Word := fun v w => (rotl64 (v + w) 29 + w) * c.riskyP.get i
    let word : Nat → Word := fun o => packLe ((bs.drop o).take 8)
    let nb := bs.length / 32
    let k := bs.length % 32 / 8
    let tw := packLe (bs.drop (8 * (bs.length / 8))) ||| BitVec.ofNat 64 (bs.length % 256) <<< 56
    (riskyLanes c bs seed).get i =
      ((List.range nb).map (fun b => word (32 * b + 8 * i.val)) ++
        (if i.val < k then [word (32 * nb + 8 * i.val)] else []) ++
        (if i.val = k ∧ (bs.length % 8 ≠ 0 ∨ c.riskyFeedEmptyTail = true) then [tw] else [])).foldl
          absorb ((riskyInit c seed).get i)

/-- R81: the mixed seed is odd for every seed and length, its other bits are those of `s2` moved up by one, and bit 63 of
`s2` is lost. -/
def Obligations.StableSeedMixing : Prop :=
  ∀ seed len : Word,
    let s1 := seed + len
    let s2 := s1 ^^^ rotl64 s1 47
    stableSeed seed len = (s2 <<< 1 ||| 1) ∧ (stableSeed seed len).getLsbD 0 = true ∧
      ∀ j < 63, (stableSeed seed len).getLsbD (j + 1) = s2.getLsbD j

/-- For the empty buffer the seeds 0 and 2^64 - 1 give one mixed seed and one hash, whatever the finaliser (test vector
V-MS4). -/
def Obligations.StableHashOfEmptyBuffer : Prop :=
  ∀ c : Cfg, stableSeed 0 0 = 1 ∧ stableSeed (BitVec.allOnes 64) 0 = 1 ∧
    stableHash c [] 0 = stableHash c [] (BitVec.allOnes 64)

/-- What each StableHash lane holds before the finaliser, for every length and mixed seed: it starts at `ms` (R82) and absorbs,
in this order and each by one round with its own prime (R83), its word of every full block (R84) and its word of the tail block
(R85): the bytes after the last full block, zero-padded to four little-endian words, with the length added into the last.
The tail block is absorbed for every length, so the empty buffer is one round on the word 0. -/
def Obligations.StableLanesByRounds : Prop :=
  ∀ (c : Cfg) (bs : List Byte) (ms : Word) (i : Lane),
    let q := (c.stableQ.get i).setWidth 64
    let absorb : Word → Word → Word := fun v w => (v + w + q) * q + (rotl64 w 19 + ms)
    let nb := bs.length / 32
    let T : Nat → Byte := fun m => if m < bs.length % 32 then bs.getD (32 * nb + m) 0 else 0
    let tw := packLe ((List.range 8).map fun m => T (8 * i.val + m)) + if i = 3 then BitVec.ofNat 64 bs.length else 0
    stableTailWord bs i = tw ∧
    (stableLanes c bs ms).get i =
      ((List.range nb).map (fun b => packLe ((bs.drop (32 * b + 8 * i.val)).take 8)) ++ [tw]).foldl absorb ms

/-- StableHash is frozen: its results depend on no configuration field but its own five, and not on the redirect (R90). -/
def Obligations.StableHashIsFrozen : Prop :=
  ∀ c d : Cfg, c.stableQ = d.stableQ → c.stableAval = d.stableAval → c.stableK64 = d.stableK64 →
    c.stableK128A = d.stableK128A → c.stableK128B = d.stableK128B →
    ∀ (bs : List Byte) (seed : Word),
      stableHash c bs seed = stableHash d bs seed ∧ stableHash128 c bs seed = stableHash128 d bs seed

/-! ### The PRNG commands -/

/-- R95: the multipliers, the additive terms and the two forms of the lane update; `PRNG_M0` and `PRNG_M1` are odd and their
complements even. -/
def Obligations.LaneUpdateFormulas : Prop :=
  ∀ (c : Cfg) (s cnt : Word),
    let m : Lane → Word := fun i => #v[c.prngM0, c.prngM1, ~~~c.prngM0, ~~~c.prngM1].get i
    let add : Lane → Word := fun i => #v[cnt, 0, cnt, 0].get i
    (∀ i, c.prngUpdateForm = .literal → laneNext c i s cnt = (rotl64 s 33 + add i) * m i + s) ∧
    (∀ i, c.prngUpdateForm = .addFirst → laneNext c i s cnt = (s + rotl64 s 33 + add i) * m i) ∧
    (m 0).getLsbD 0 = true ∧ (m 1).getLsbD 0 = true ∧ (m 2).getLsbD 0 = false ∧ (m 3).getLsbD 0 = false

/-- A draw whose incremented counter is no multiple of 4096: RAND64 counts, updates the four lanes and writes the sum of the
rotated new lanes; memory, the feed buffer and the inputs stay (R94, R96, R102). -/
def Obligations.Rand64Result : Prop :=
  ∀ (s : State) (rd : RegNo), (s.shared.prng.cnt + 1).toNat % 4096 ≠ 0 →
    let c := s.shared.prng.cnt + 1
    let n : Lane → Word := fun i => laneNext Config.cfg i (s.shared.prng.lanes.get i) c
    ∃ t, exec (.rand64 rd) s = .next t ∧ Completed [rd] s t ∧
      t.shared = s.shared.setPrng { s.shared.prng with lanes := #v[n 0, n 1, n 2, n 3], cnt := c } ∧
      t.port.readReg rd =
        some (if rd = 0 then 0 else rotl64 (n 0) 31 + rotl64 (n 1) 29 + rotl64 (n 2) 27 + rotl64 (n 3) 30)

/-- A draw whose incremented counter is a multiple of 4096, also after the wrap to 0, makes the whole reseed first: from what
RESEED leaves at that counter it updates the lanes with the counter the reseed left (R94, R102). -/
def Obligations.Rand64ReseedsWhenDue : Prop :=
  ∀ (s u : State) (rd : RegNo), (s.shared.prng.cnt + 1).toNat % 4096 = 0 →
    exec .reseed (s.setShared (s.shared.setPrng { s.shared.prng with cnt := s.shared.prng.cnt + 1 })) = .next u →
    let c := u.shared.prng.cnt
    let n : Lane → Word := fun i => laneNext Config.cfg i (u.shared.prng.lanes.get i) c
    ∃ t, exec (.rand64 rd) s = .next t ∧ Completed [rd] s t ∧
      t.shared = u.shared.setPrng { u.shared.prng with lanes := #v[n 0, n 1, n 2, n 3] } ∧
      t.port.readReg rd =
        some (if rd = 0 then 0 else rotl64 (n 0) 31 + rotl64 (n 1) 29 + rotl64 (n 2) 27 + rotl64 (n 3) 30)

/-- R98: what a reseed leaves. Lanes 0 and 1 take the jitter samples, lane 0 then the hash of the resource-usage snapshot if
there is one; lanes 2 and 3 the feed mix; the feed buffer rotates; the counter advances by the sample count; the offset and
memory stay. -/
def Obligations.ReseedResult : Prop :=
  ∀ s : State,
    let p := s.shared.prng
    let ns := 16 + (p.lanes.get 0 &&& 15).toNat
    let mix := Config.cfg.mixNumeral
    let j := jitterLoop Config.env p.cnt ns 0 (s.shared.clock, p.lanes.get 0, p.lanes.get 1)
    let l0 := if Config.cfg.hasRusage then
        j.2.1 ^^^ riskyHash Config.cfg (snapshot Config.env s.shared.rusageCalls) j.2.1 else j.2.1
    let l1 := j.2.2
    let l2 := p.lanes.get 2 ^^^ (mix (p.feed.get 0) l0 + mix (p.feed.get 1) l1)
    let l3 := p.lanes.get 3 ^^^ (mix (p.feed.get 2) l0 + mix (p.feed.get 3) l1)
    let g0 := rotl64 (p.feed.get 0) Config.cfg.feedRot0
    let g1 := rotl64 (p.feed.get 1) Config.cfg.feedRot1
    ∃ t, exec .reseed s = .next t ∧ Completed [] s t ∧
      t.shared.prng = {
        lanes := #v[l0, l1, l2, l3], cnt := p.cnt + BitVec.ofNat 64 ns,
        feed := #v[g0, g1, p.feed.get 2 ^^^ g0, p.feed.get 3 ^^^ g1], fofs := p.fofs } ∧
      t.shared.mem = s.shared.mem ∧ t.shared.clock = j.1 ∧
      t.shared.rusageCalls = s.shared.rusageCalls + if Config.cfg.hasRusage then 1 else 0

/-- A reseed takes 16 to 31 clock samples, as many as its counter advances, and at most one resource-usage snapshot (R98,
R127, test vector V-RN). -/
def Obligations.ReseedSampleCount : Prop :=
  ∀ s t : State, exec .reseed s = .next t →
    let ns := 16 + (s.shared.prng.lanes.get 0 &&& 15).toNat
    16 ≤ ns ∧ ns ≤ 31 ∧ t.shared.clock.calls = s.shared.clock.calls + ns ∧
      t.shared.prng.cnt = s.shared.prng.cnt + BitVec.ofNat 64 ns ∧
      t.shared.rusageCalls ≤ s.shared.rusageCalls + 1

/-- R99: a second reseed never leaves the PRNG state of the first. -/
def Obligations.ReseedIsNotIdempotent : Prop :=
  ∀ s t u : State, exec .reseed s = .next t → exec .reseed t = .next u → u.shared.prng ≠ t.shared.prng

/-- The cadence of automatic reseeds (R97): from a counter `4096k + r`, the next `4096 - r - 1` draws make no reseed and count
one each; the draw after them makes exactly one, of 16 to 31 samples. From reset `r` is 0; after a reseed of `ns` samples
made by a draw it is `ns`. -/
def Obligations.ReseedCadence : Prop :=
  ∀ s : State,
    let left := 4096 - s.shared.prng.cnt.toNat % 4096
    (∀ k < left, ∃ t, execTimes (.rand64 0) k s = .next t ∧
      t.shared.prng.cnt = s.shared.prng.cnt + BitVec.ofNat 64 k ∧ t.shared.clock = s.shared.clock ∧
      t.shared.prng.feed = s.shared.prng.feed ∧ t.shared.rusageCalls = s.shared.rusageCalls) ∧
    ∃ t ns, execTimes (.rand64 0) left s = .next t ∧ 16 ≤ ns ∧ ns ≤ 31 ∧
      t.shared.prng.cnt = s.shared.prng.cnt + BitVec.ofNat 64 left + BitVec.ofNat 64 ns ∧
      t.shared.clock.calls = s.shared.clock.calls + ns ∧ t.shared.prng.cnt.toNat % 4096 = ns

/-- FEED XORs its buffer, in 8-byte pieces with a shorter last one, into the feed lanes from the offset on, and leaves the
offset behind the last piece; only the masked length counts; the generator lanes, the counter, memory and the inputs stay
(R100, R104). -/
def Obligations.FeedResult : Prop :=
  ∀ (s : State) (ra rb : RegNo) (a len : Word), s.port.readReg ra = some a → s.port.readReg rb = some len →
    let n := (len &&& 1023).toNat
    Usable s .read a n →
    ∃ t, exec (.feed ra rb) s = .next t ∧ Completed [] s t ∧
      t.shared = s.shared.setPrng { s.shared.prng with
        feed := feedFold (Memory.readRange s.shared.mem a n) s.shared.prng.fofs s.shared.prng.feed,
        fofs := s.shared.prng.fofs + BitVec.ofNat 2 ((n + 7) / 8) }

/-- Two lengths with the same low ten bits feed the same, 2000 as 976 and 1024 as 0 (R100, R104). -/
def Obligations.FeedTruncatesByMask : Prop :=
  ∀ (s t u : State) (ra rb : RegNo) (v w : Word), ra ≠ rb → v &&& 1023 = w &&& 1023 →
    exec (.feed ra rb) (s.setPort (s.port.writeReg rb v)) = .next t →
    exec (.feed ra rb) (s.setPort (s.port.writeReg rb w)) = .next u →
    t.shared = u.shared ∧ t.port.status = u.port.status

/-- R101: RANDBYTES makes `4·ceil(n/32)` draws in order and fills the `n` bytes of its target with their bytes, little-endian;
bytes outside the target stay, and what else is shared is what the draws left. With `n = 32` this is four RAND64 draws packed
(test property E8); with `n = 0` nothing happens. -/
def Obligations.RandbytesResult : Prop :=
  ∀ (s : State) (ra rb : RegNo) (a n : Word), s.port.readReg ra = some a → s.port.readReg rb = some n →
    Usable s .write a n.toNat →
    ∃ ds h t, drawTimes (4 * ((n.toNat + 31) / 32)) s = some (ds, h) ∧
      exec (.randbytes ra rb) s = .next t ∧ Completed [] s t ∧
      t.shared = { h with mem := t.shared.mem } ∧
      (∀ j < n.toNat, Memory.read t.shared.mem (a.toNat + j) = byteOf (ds.getD (j / 8) 0) (j % 8)) ∧
      ∀ x, x < a.toNat ∨ a.toNat + n.toNat ≤ x → Memory.read t.shared.mem x = Memory.read s.shared.mem x

/-! ### Accesses and agents -/

/-- R43: a command reads each byte of its effective range once, in ascending order; a command that writes does so once per
byte, in ascending order, after all its reads; and no other byte is touched. The hash commands make no other access at all. -/
def Obligations.BytesAccessedOnceInOrder : Prop :=
  ∀ (e : Env) (s : State) (rd re ra rb rc : RegNo) (a n : Word),
    let reads : Nat → List Access := fun m => (List.range m).map fun j => .readByte (a + BitVec.ofNat 64 j)
    let isByte : Access → Bool := fun q => match q with
      | .readByte _ | .writeByte _ _ => true
      | _ => false
    s.port.readReg ra = some a → s.port.readReg rb = some n →
    (∀ seed, s.port.readReg rc = some seed → Usable s .read a n.toNat →
      (plan e (.rhash rd ra rb rc) s).trace e s.shared = reads n.toNat ∧
      (plan e (.shash rd ra rb rc) s).trace e s.shared = reads n.toNat ∧
      (plan e (.shash128 rd re ra rb rc) s).trace e s.shared = reads n.toNat ∧
      ∀ d, s.port.readReg re = some d → d ≠ 0 → Admit s.admits .write d 16 →
        ∃ bs : List Byte, bs.length = 16 ∧ (plan e (.shash128b re ra rb rc) s).trace e s.shared =
          reads n.toNat ++ (List.range 16).map fun j => .writeByte (d + BitVec.ofNat 64 j) (bs.getD j 0)) ∧
    (Usable s .read a (n &&& 1023).toNat →
      ((plan e (.feed ra rb) s).trace e s.shared).filter isByte = reads (n &&& 1023).toNat) ∧
    (Usable s .write a n.toNat →
      ∃ bs : List Byte, bs.length = n.toNat ∧ ((plan e (.randbytes ra rb) s).trace e s.shared).filter isByte =
        (List.range n.toNat).map fun j => .writeByte (a + BitVec.ofNat 64 j) (bs.getD j 0))

/-- The accesses of a reseed and of a draw, each with the value written, in the order their pseudocode lists them (R30, R94,
R98). With a reseed due, a draw makes all of the reseed's accesses between counting and the lane updates. -/
def Obligations.PrngAccessOrder : Prop :=
  ∀ (s : State) (rd : RegNo),
    let e := Config.env
    let mix := e.cfg.mixNumeral
    let p := s.shared.prng
    let c := p.cnt + 1
    let counted := s.setShared (s.shared.setPrng { p with cnt := c })
    let lanes : Prng → List Access := fun p => [.readCnt] ++ (List.finRange 4).flatMap fun i =>
      [.readL i, .writeL i (laneNext e.cfg i (p.lanes.get i) p.cnt)]
    let ns := 16 + (p.lanes.get 0 &&& 15).toNat
    let j : Nat → Clock × Word × Word := fun m =>
      jitterLoop e p.cnt m 0 (s.shared.clock, p.lanes.get 0, p.lanes.get 1)
    let h0 := (j ns).2.1 ^^^ riskyHash e.cfg (snapshot e s.shared.rusageCalls) (j ns).2.1
    let l0 := if e.cfg.hasRusage then h0 else (j ns).2.1
    let l1 := (j ns).2.2
    let g0 := rotl64 (p.feed.get 0) e.cfg.feedRot0
    let g1 := rotl64 (p.feed.get 1) e.cfg.feedRot1
    (plan e .reseed s).trace e s.shared =
      [.readL 0] ++
      ((List.range ns).flatMap fun m =>
        [.clock, .readCnt, .readL 0, .writeL 0 (j (m + 1)).2.1, .readL 1, .writeL 1 (j (m + 1)).2.2]) ++
      (if e.cfg.hasRusage then [.rusage, .readL 0, .writeL 0 h0] else []) ++
      [.readF 0, .readF 1, .readF 2, .readF 3, .readL 0, .readL 1,
        .readL 2, .writeL 2 (p.lanes.get 2 ^^^ (mix (p.feed.get 0) l0 + mix (p.feed.get 1) l1)),
        .readL 3, .writeL 3 (p.lanes.get 3 ^^^ (mix (p.feed.get 2) l0 + mix (p.feed.get 3) l1)),
        .writeF 0 g0, .writeF 1 g1, .writeF 2 (p.feed.get 2 ^^^ g0), .writeF 3 (p.feed.get 3 ^^^ g1),
        .readCnt, .writeCnt (p.cnt + BitVec.ofNat 64 ns)] ∧
    (c.toNat % 4096 ≠ 0 →
      (plan e (.rand64 rd) s).trace e s.shared = [.readCnt, .writeCnt c] ++ lanes counted.shared.prng) ∧
    (c.toNat % 4096 = 0 → ∀ u, exec .reseed counted = .next u →
      (plan e (.rand64 rd) s).trace e s.shared =
        [.readCnt, .writeCnt c] ++ (plan e .reseed counted).trace e counted.shared ++ lanes u.shared.prng)

/-- A hash command hashes the bytes its reads answered, also where another agent writes the buffer meanwhile (R130): after `n`
bytes it has no read left, and its result is the hash of those bytes. -/
def Obligations.HashIsOfTheBytesRead : Prop :=
  ∀ (e : Env) (s : State) (rd re ra rb rc : RegNo) (a n seed : Word) (bs : List Byte),
    s.port.readReg ra = some a → s.port.readReg rb = some n → s.port.readReg rc = some seed →
    Usable s .read a n.toNat → bs.length = n.toNat →
    (plan e (.rhash rd ra rb rc) s).resume (bs.map .byte) = .complete [(rd, riskyHash e.cfg bs seed)] ∧
    (plan e (.shash rd ra rb rc) s).resume (bs.map .byte) = .complete [(rd, stableHash e.cfg bs seed)] ∧
    (plan e (.shash128 rd re ra rb rc) s).resume (bs.map .byte) =
      .complete [(rd, (stableHash128 e.cfg bs seed).1), (re, (stableHash128 e.cfg bs seed).2)] ∧
    ∀ d, s.port.readReg re = some d → d ≠ 0 → Admit s.admits .write d 16 →
      (plan e (.shash128b re ra rb rc) s).resume (bs.map .byte) =
        writeBytes (leBytes (stableHash128 e.cfg bs seed).1 ++ leBytes (stableHash128 e.cfg bs seed).2) d (.complete [])

/-- The bounds on internal actions (R127), for every command. MIXNUM and MIXPTR make no access. With `x[rb] = n`, a hash command
makes at most `n` accesses, all byte reads, and SHASH128B at most 16 byte writes more. FEED makes at most 1023 byte reads and
128 feed-word updates. A reseed reads `S.F[0]` once and writes `S.CNT` once, a draw writes `S.CNT` once outside its reseed: so
RAND64 is one draw with at most one reseed, RESEED one reseed, and RANDBYTES at most `4·ceil(n/32)` draws, each with at most
one reseed, and at most `n` byte writes. A reseed makes at most 31 clock calls and one resource-usage call. -/
def Obligations.CommandsAreBounded : Prop :=
  ∀ (e : Env) (s : State) (rd re ra rb rc : RegNo),
    let trace : Instr → List Access := fun i => (plan e i s).trace e s.shared
    let reads : List Access → Nat := List.countP fun q => match q with
      | .readByte _ => true
      | _ => false
    let writes : List Access → Nat := List.countP fun q => match q with
      | .writeByte _ _ => true
      | _ => false
    let updates : List Access → Nat := List.countP fun q => match q with
      | .writeF _ _ => true
      | _ => false
    let reseeds : List Access → Nat := List.count (.readF 0)
    let drawsAre : Nat → List Access → Prop := fun d l =>
      (l.countP fun q => match q with
        | .writeCnt _ => true
        | _ => false) = d + reseeds l ∧
      reseeds l ≤ d ∧ l.count .clock ≤ 31 * reseeds l ∧ l.count .rusage ≤ reseeds l
    (trace (.mixnum rd ra rb) = [] ∧ trace (.mixptr rd ra) = []) ∧
    (∀ n, s.port.readReg rb = some n →
      (∀ i ∈ [Instr.rhash rd ra rb rc, .shash rd ra rb rc, .shash128 rd re ra rb rc],
        (trace i).length ≤ n.toNat ∧ reads (trace i) = (trace i).length) ∧
      (trace (.shash128b re ra rb rc)).length ≤ n.toNat + 16 ∧ reads (trace (.shash128b re ra rb rc)) ≤ n.toNat ∧
      writes (trace (.shash128b re ra rb rc)) ≤ 16 ∧
      (∃ d ≤ 4 * ((n.toNat + 31) / 32), drawsAre d (trace (.randbytes ra rb))) ∧
      writes (trace (.randbytes ra rb)) ≤ n.toNat ∧ reads (trace (.randbytes ra rb)) = 0) ∧
    (reads (trace (.feed ra rb)) ≤ 1023 ∧ updates (trace (.feed ra rb)) ≤ 128) ∧
    drawsAre 1 (trace (.rand64 rd)) ∧
    (reseeds (trace .reseed) = 1 ∧ (trace .reseed).count .clock ≤ 31 ∧ (trace .reseed).count .rusage ≤ 1)

/-- Registers are written last (R17): an access that does not complete its command leaves the registers, `ci`, `STATUS` and
the fault registers as they were. -/
def Obligations.RegistersAreWrittenLast : Prop :=
  ∀ s t : State, s.port.fetch ≠ none → accessStep s = .next t → t.port.flight ≠ [] →
    t.port = { s.port with flight := t.port.flight }

/-- With nobody moving between them, the accesses of a command make the step: each command behaves as one indivisible step
(10_state.md R30, 43_prng.md introduction). From every state, also inside a command in flight. -/
def Obligations.AccessesMakeTheStep : Prop :=
  ∀ s : State, statusBusy s.port.status = true → s.port.fetch ≠ none →
    ∃ n t, accessTimes n s = .next t ∧ step s = .next t ∧ t.port.flight = []

/-- The benign race of R49: two ports that draw access by access in turn both return the same value, and the counter
advances by one only; nothing faults or sticks. -/
def Obligations.RacingPortsDrawTheSame : Prop :=
  ∀ s : State, s.before = [] → (∃ q, s.after = [q] ∧ statusBusy q.status = false ∧ statusFault q.status = false) →
    statusBusy s.port.status = false → statusFault s.port.status = false →
    (s.shared.prng.cnt + 1).toNat % 4096 ≠ 0 →
    ∃ t p q v,
      runEvents ([.host (.submit 0 [0x00000140]), .host (.submit 1 [0x00000140])] ++
        (List.replicate 12 [.access 0, .access 1]).flatten) s = some t ∧
      t.ports = [p, q] ∧ p.readReg 1 = some v ∧ q.readReg 1 = some v ∧
      statusDone p.status = true ∧ statusDone q.status = true ∧
      t.shared.prng.cnt = s.shared.prng.cnt + 1

/-- A port's command or access changes nothing private to another port (R15, R120). -/
def Obligations.PortsArePrivate : Prop :=
  ∀ (s t : State) (n m : Nat), m ≠ n → Event.apply (.command n) s = some t ∨ Event.apply (.access n) s = some t →
    t.ports[m]? = s.ports[m]? ∧ t.ports.length = s.ports.length

/-- A stored word of an unwritten register is no value (R18; log 3). Two states that differ in nothing but such words of one port
go on to states that differ in nothing but such words of that port: by a step, by a single access, by every host move, which
also gets the same reply (`HostReadReg` of an unwritten register among them), and by every event of every port. -/
def Obligations.UnwrittenRegisterHasNoValue : Prop :=
  (∀ (s t : State) (q : Port), s.port.AgreeOnValues q → step s = .next t →
    ∃ u, step (s.setPort q) = .next u ∧ t.port.AgreeOnValues u.port ∧ u = t.setPort u.port) ∧
  (∀ (s t : State) (q : Port), s.port.AgreeOnValues q → accessStep s = .next t →
    ∃ u, accessStep (s.setPort q) = .next u ∧ t.port.AgreeOnValues u.port ∧ u = t.setPort u.port) ∧
  ∀ (s : State) (n : Nat) (p q : Port), s.ports[n]? = some p → p.AgreeOnValues q →
    (∀ (m : HostMove) (r : HostReply) (t : State), hostMove Config.env s m = some (r, t) →
      ∃ p' q', hostMove Config.env (s.replacePort n q) m = some (r, t.replacePort n q') ∧
        t.ports[n]? = some p' ∧ p'.AgreeOnValues q') ∧
    ∀ (ev : Event) (t : State), ev.apply s = some t →
      ∃ p' q', ev.apply (s.replacePort n q) = some (t.replacePort n q') ∧ t.ports[n]? = some p' ∧ p'.AgreeOnValues q'

/-- The clock never goes back, in any event, Reset() included, and stays at 2^64 - 1 once there (R116). -/
def Obligations.ClockNeverGoesBack : Prop :=
  (∀ (ev : Event) (s t : State), ev.apply s = some t →
    s.shared.clock.last.toNat ≤ t.shared.clock.last.toNat ∧ s.shared.clock.calls ≤ t.shared.clock.calls) ∧
  (∀ (h h' : Shared) (v : Ans), perform Config.env h .clock = (v, h') →
    v = .word h'.clock.last ∧ h'.clock.calls = h.clock.calls + 1 ∧ h.clock.last.toNat ≤ h'.clock.last.toNat ∧
    h' = { h with clock := h'.clock })

/-! ### The host, reset and configuration -/

/-- R33: when each host move has a step, what it returns and what it leaves (a memory move within the address space, a stream that `ci` can index, R20). -/
def Obligations.HostMoves : Prop :=
  ∀ (e : Env) (s : State),
    (∀ n i v r t, hostMove e s (.writeReg n i v) = some (r, t) ↔
      ∃ p, s.ports[n]? = some p ∧ statusBusy p.status = false ∧ i ≠ 0 ∧ r = .done ∧
        t = s.replacePort n (p.writeReg i v)) ∧
    (∀ n i r t, hostMove e s (.readReg n i) = some (r, t) ↔
      ∃ p, s.ports[n]? = some p ∧ statusBusy p.status = false ∧ t = s.replacePort n p ∧
        ((∃ v, p.readReg i = some v ∧ r = .value v) ∨ (p.readReg i = none ∧ r = .noValue))) ∧
    (∀ n cs r t, hostMove e s (.submit n cs) = some (r, t) ↔
      ∃ p, s.ports[n]? = some p ∧ statusBusy p.status = false ∧ statusFault p.status = false ∧ cs.length < 2 ^ 64 ∧
        r = .done ∧ t = s.replacePort n { p with
          stream := cs, ci := 0, status := setBusy (setDone p.status false) true, flight := [] }) ∧
    (∀ n r t, hostMove e s (.readStatus n) = some (r, t) ↔
      ∃ p, s.ports[n]? = some p ∧ r = .status p.status p.faultCi p.faultCmd p.faultAddr ∧ t = s.replacePort n p) ∧
    hostMove e s .readCfg = some (.value (cfgRegister e.cfg), s) ∧
    hostMove e s .reset = some (.done, resetBlock e s) ∧
    (∀ r t, hostMove e s .prngRead = some (r, t) ↔
      (∀ p ∈ s.ports, statusBusy p.status = false) ∧ r = .prng s.shared.prng ∧ t = s) ∧
    (∀ st r t, hostMove e s (.prngWrite st) = some (r, t) ↔
      (∀ p ∈ s.ports, statusBusy p.status = false) ∧ r = .done ∧ t = s.setShared (s.shared.setPrng st)) ∧
    (∀ (a : Word) (bs : List Byte) r t, a.toNat + bs.length ≤ 2 ^ 64 →
      (hostMove e s (.memWrite a bs) = some (r, t) ↔
        r = .done ∧ t = s.setShared { s.shared with mem := Memory.writeRange s.shared.mem a bs })) ∧
    (∀ (a : Word) n r t, a.toNat + n ≤ 2 ^ 64 →
      (hostMove e s (.memRead a n) = some (r, t) ↔ r = .bytes (Memory.readRange s.shared.mem a n) ∧ t = s)) ∧
    (∀ (n : Nat) (p : Port), n < s.ports.length →
      (s.replacePort n p).ports = s.ports.set n p ∧ (s.replacePort n p).shared = s.shared ∧
        (s.replacePort n p).admits = s.admits)

/-- A command the host submits to the idle port that moves is the command the next step runs (R19, R33). -/
def Obligations.SubmittedCommandRuns : Prop :=
  ∀ (s : State) (i : Instr), statusBusy s.port.status = false → statusFault s.port.status = false →
    ∃ t, hostMove Config.env s (.submit s.before.length [encode i]) = some (.done, t) ∧ step t = exec i t ∧
      t.port.ci = 0 ∧ ∀ r, t.port.readReg r = s.port.readReg r

/-- R34 and R123: what `Reset()` leaves, from any state, and that the start state has the same values. -/
def Obligations.ResetValues : Prop :=
  (∀ (s : State), ∃ t, hostMove Config.env s .reset = some (.done, t) ∧
    t.ports.length = s.ports.length ∧
    (∀ p ∈ t.ports, p = Port.reset) ∧
    t.shared.prng = { lanes := Config.cfg.prngInitL, cnt := 0, feed := Config.cfg.prngInitF, fofs := 0 } ∧
    t.shared.mem = s.shared.mem ∧ t.shared.clock = s.shared.clock ∧ t.shared.rusageCalls = s.shared.rusageCalls ∧
    t.admits = s.admits ∧ hostMove Config.env t .readCfg = some (.value (cfgRegister Config.cfg), t)) ∧
  (∀ p ∈ State.reset.ports, p = Port.reset) ∧ State.reset.ports.length = Config.cfg.nports ∧
  State.reset.shared.prng = { lanes := Config.cfg.prngInitL, cnt := 0, feed := Config.cfg.prngInitF, fofs := 0 } ∧
  Port.reset.readReg 0 = some 0 ∧ (∀ r, r ≠ 0 → Port.reset.readReg r = none) ∧ Port.reset.stream = [] ∧
  Port.reset.ci = 0 ∧ Port.reset.status = 0 ∧ Port.reset.faultCi = 0 ∧ Port.reset.faultCmd = 0 ∧
  Port.reset.faultAddr = 0 ∧ Port.reset.flight = []

/-- R25: the bits of the `CFG` register. -/
def Obligations.CfgRegisterBits : Prop :=
  ∀ c : Cfg, (cfgRegister c).getLsbD 0 = c.useStableHashForRiskyHash ∧ (cfgRegister c).getLsbD 1 = c.hasRusage ∧
    ((cfgRegister c).extractLsb' 8 8).toNat = c.nports ∧
    (∀ j, 2 ≤ j → j < 8 → (cfgRegister c).getLsbD j = false) ∧ (∀ j, 16 ≤ j → (cfgRegister c).getLsbD j = false)

/-! ### The invariant -/

/-- The state after reset meets the invariant. -/
def Obligations.ResetMeetsTheInvariant : Prop := State.reset.Inv

/-- Every step keeps the invariant: STATUS stays legal (R23), `ci` within its stream (R20), the fault registers name the
faulted command or are 0 (R24), memory keeps its canonical form. -/
def Obligations.StepKeepsTheInvariant : Prop := ∀ s t : State, s.Inv → step s = .next t → t.Inv

/-- Every event of every agent keeps the invariant: whole commands, single accesses, and the host's moves. -/
def Obligations.EventsKeepTheInvariant : Prop :=
  ∀ (ev : Event) (s t : State), s.Inv → ev.apply s = some t → t.Inv
end

