-- ==== Sys2Proof/Laws/Memory.lean ====
section
/-! SUPPORT. The laws of data memory: a read after a write, what a write leaves alone, and the canonical form. -/

namespace Sys2Proof.Machine

@[simp] theorem Memory.read_nil (a : Nat) : Memory.read [] a = launchByte := rfl

theorem Memory.read_insert (m : Memory) (a : Nat) (b : Byte) (x : Nat) (hm : ∀ c ∈ m, c.1 ≠ a) :
    Memory.read (Memory.insert m a b) x = if x = a then b else Memory.read m x := by
  induction m with
  | nil =>
    by_cases h : x = a
    · simp [Memory.insert, Memory.read, h]
    · simp [Memory.insert, Memory.read, h, Ne.symm h]
  | cons c m ih =>
    obtain ⟨k, v⟩ := c
    have hk : k ≠ a := hm (k, v) List.mem_cons_self
    by_cases h : a < k
    · simp only [Memory.insert, h, if_true]
      by_cases hx : x = a
      · simp [Memory.read, hx]
      · simp [Memory.read, hx, Ne.symm hx]
    · simp only [Memory.insert, h, if_false, Memory.read, ih fun c hc => hm c (List.mem_cons_of_mem _ hc)]
      by_cases hx : x = a
      · rw [if_neg (fun e => hk (e.trans hx)), if_pos hx, if_pos hx]
      · simp only [hx, if_false]

theorem Memory.read_erase (m : Memory) (a x : Nat) :
    Memory.read (m.filter fun c => c.1 ≠ a) x = if x = a then launchByte else Memory.read m x := by
  induction m with
  | nil => simp
  | cons c m ih =>
    obtain ⟨k, v⟩ := c
    by_cases hk : k = a
    · subst hk
      rw [List.filter_cons_of_neg (by simp), ih]
      by_cases hx : x = k
      · simp [hx]
      · simp [Memory.read, hx, Ne.symm hx]
    · rw [List.filter_cons_of_pos (by simpa using hk)]
      simp only [Memory.read, ih]
      by_cases hx : x = a
      · subst hx; simp [hk]
      · simp only [hx, if_false]

/-- A byte read after a byte write (20_memory.md R47). -/
theorem Memory.read_write (m : Memory) (a : Nat) (b : Byte) (x : Nat) :
    Memory.read (Memory.write m a b) x = if x = a then b else Memory.read m x := by
  unfold Memory.write
  split
  · next h => rw [Memory.read_erase]; simp [h]
  · rw [Memory.read_insert _ _ _ _ (by simp), Memory.read_erase]
    by_cases hx : x = a <;> simp [hx]

theorem Memory.mem_insert (m : Memory) (a : Nat) (b : Byte) (c : Host.Cell) :
    c ∈ Memory.insert m a b ↔ c = (a, b) ∨ c ∈ m := by
  induction m with
  | nil => simp [Memory.insert]
  | cons d m ih =>
    obtain ⟨k, v⟩ := d
    by_cases h : a < k
    · simp [Memory.insert, h]
    · simp only [Memory.insert, h, if_false, List.mem_cons, ih]; tauto

theorem Memory.pairwise_insert (m : Memory) (a : Nat) (b : Byte) (hm : ∀ c ∈ m, c.1 ≠ a)
    (h : m.Pairwise fun c d => c.1 < d.1) : (Memory.insert m a b).Pairwise fun c d => c.1 < d.1 := by
  induction m with
  | nil => simp [Memory.insert]
  | cons d m ih =>
    obtain ⟨k, v⟩ := d
    have hk : k ≠ a := hm (k, v) List.mem_cons_self
    rw [List.pairwise_cons] at h
    by_cases hlt : a < k
    · simp only [Memory.insert, hlt, if_true, List.pairwise_cons, List.mem_cons]
      refine ⟨?_, h.1, h.2⟩
      rintro c (rfl | hc)
      · exact hlt
      · exact Nat.lt_trans hlt (h.1 c hc)
    · simp only [Memory.insert, hlt, if_false, List.pairwise_cons]
      refine ⟨fun c hc => ?_, ih (fun c hc => hm c (List.mem_cons_of_mem _ hc)) h.2⟩
      rcases (Memory.mem_insert m a b c).1 hc with rfl | hc
      · exact Nat.lt_of_le_of_ne (Nat.le_of_not_lt hlt) hk
      · exact h.1 c hc

/-- A byte write keeps the canonical form. -/
theorem Memory.wf_write (m : Memory) (a : Nat) (b : Byte) (ha : a < 2 ^ 64) (h : Memory.wf m) :
    Memory.wf (Memory.write m a b) := by
  have hp : (m.filter fun c => c.1 ≠ a).Pairwise fun c d => c.1 < d.1 := h.1.filter _
  have hc : ∀ c ∈ m.filter (fun c => c.1 ≠ a), c.1 < 2 ^ 64 ∧ c.2 ≠ launchByte :=
    fun c hc => h.2 c (List.mem_filter.1 hc).1
  unfold Memory.write
  split
  · exact ⟨hp, hc⟩
  · next hb =>
    refine ⟨Memory.pairwise_insert _ a b (by simp) hp, fun c hcm => ?_⟩
    rcases (Memory.mem_insert _ a b c).1 hcm with rfl | hcm
    · exact ⟨ha, hb⟩
    · exact hc c hcm

/-- Byte writes in order keep the canonical form. -/
theorem Memory.wf_writeRange (bs : List Byte) (m : Memory) (a : Word) (h : Memory.wf m) :
    Memory.wf (Memory.writeRange m a bs) := by
  induction bs generalizing m a with
  | nil => exact h
  | cons b bs ih => exact ih _ _ (Memory.wf_write m _ b a.isLt h)

/-- Memory with nothing listed has the canonical form. -/
theorem Memory.wf_nil : Memory.wf [] := by simp [Memory.wf]

/-- The address after `a`, where the range does not wrap. -/
theorem toNat_add_one {a : Word} (h : a.toNat + 1 < 2 ^ 64) : (a + 1).toNat = a.toNat + 1 := by
  rw [BitVec.toNat_add]; simpa using Nat.mod_eq_of_lt h

/-- What byte writes to a range that does not wrap leave: byte `j` of the data at its place, and every other byte as it
was (20_memory.md R38). -/
theorem Memory.read_writeRange (bs : List Byte) (m : Memory) (a : Word) (x : Nat)
    (h : a.toNat + bs.length ≤ 2 ^ 64) :
    Memory.read (Memory.writeRange m a bs) x =
      if a.toNat ≤ x ∧ x < a.toNat + bs.length then bs.getD (x - a.toNat) 0 else Memory.read m x := by
  induction bs generalizing m a with
  | nil => rw [if_neg (by simp)]; rfl
  | cons b bs ih =>
    simp only [List.length_cons] at h ⊢
    by_cases hbs : bs = []
    · subst hbs
      simp only [Memory.writeRange, Memory.read_write, List.length_nil]
      by_cases hx : x = a.toNat
      · simp [hx]
      · rw [if_neg hx, if_neg (by omega)]
    · have hlen : 0 < bs.length := List.length_pos_iff.2 hbs
      have ha : (a + 1).toNat = a.toNat + 1 := toNat_add_one (by omega)
      rw [Memory.writeRange, ih _ _ (by omega), ha, Memory.read_write]
      by_cases hx : x = a.toNat
      · subst hx
        rw [if_neg (by omega), if_pos rfl, if_pos (by omega)]; simp
      · by_cases hin : a.toNat + 1 ≤ x ∧ x < a.toNat + 1 + bs.length
        · rw [if_pos hin, if_pos (by omega), show x - a.toNat = (x - (a.toNat + 1)) + 1 by omega]; simp
        · rw [if_neg hin, if_neg hx, if_neg (by omega)]

@[simp] theorem Memory.length_readRange (m : Memory) (a : Word) (n : Nat) : (Memory.readRange m a n).length = n := by
  induction n generalizing a with
  | zero => rfl
  | succ n ih => simp [Memory.readRange, ih]

/-- Writing two runs one behind the other. -/
theorem Memory.writeRange_append (bs cs : List Byte) (m : Memory) (a : Word) :
    Memory.writeRange m a (bs ++ cs) = Memory.writeRange (Memory.writeRange m a bs) (a + BitVec.ofNat 64 bs.length) cs := by
  induction bs generalizing m a with
  | nil => simp [Memory.writeRange]
  | cons b bs ih =>
    simp only [List.cons_append, Memory.writeRange, ih, List.length_cons]
    congr 1
    rw [BitVec.add_assoc, BitVec.ofNat_add, BitVec.add_comm (BitVec.ofNat 64 bs.length)]
    rfl

/-- Reading two runs one behind the other. -/
theorem Memory.readRange_add (m : Memory) (a : Word) (n k : Nat) :
    Memory.readRange m a (n + k) = Memory.readRange m a n ++ Memory.readRange m (a + BitVec.ofNat 64 n) k := by
  induction n generalizing a with
  | zero => simp [Memory.readRange]
  | succ n ih =>
    rw [show n + 1 + k = (n + k) + 1 by omega, Memory.readRange, ih, Memory.readRange]
    simp only [List.cons_append]
    rw [BitVec.add_assoc, BitVec.ofNat_add, BitVec.add_comm (BitVec.ofNat 64 n)]
    rfl

end Sys2Proof.Machine
end

