-- ==== Sys2Proof/Laws/State.lean ====
section
/-! SUPPORT. One lemma per field per update of the state, so that no proof unfolds a record update; and the laws of the
command registers and of STATUS. -/

namespace Sys2Proof.Machine

/-! ### State and Shared -/

section State
variable (s : State) (p q : Port) (h g : Shared) (r : Prng)

@[simp] theorem setPort_before : (s.setPort p).before = s.before := rfl
@[simp] theorem setPort_port : (s.setPort p).port = p := rfl
@[simp] theorem setPort_after : (s.setPort p).after = s.after := rfl
@[simp] theorem setPort_shared : (s.setPort p).shared = s.shared := rfl
@[simp] theorem setPort_admits : (s.setPort p).admits = s.admits := rfl
@[simp] theorem setPort_setPort : (s.setPort p).setPort q = s.setPort q := rfl
@[simp] theorem setPort_self : s.setPort s.port = s := rfl
@[simp] theorem setShared_before : (s.setShared h).before = s.before := rfl
@[simp] theorem setShared_port : (s.setShared h).port = s.port := rfl
@[simp] theorem setShared_after : (s.setShared h).after = s.after := rfl
@[simp] theorem setShared_shared : (s.setShared h).shared = h := rfl
@[simp] theorem setShared_admits : (s.setShared h).admits = s.admits := rfl
@[simp] theorem setShared_setShared : (s.setShared h).setShared g = s.setShared g := rfl
@[simp] theorem setShared_self : s.setShared s.shared = s := rfl
theorem setPort_setShared : (s.setPort p).setShared h = (s.setShared h).setPort p := rfl
@[simp] theorem setPrng_prng : (h.setPrng r).prng = r := rfl
@[simp] theorem setPrng_mem : (h.setPrng r).mem = h.mem := rfl
@[simp] theorem setPrng_clock : (h.setPrng r).clock = h.clock := rfl
@[simp] theorem setPrng_rusageCalls : (h.setPrng r).rusageCalls = h.rusageCalls := rfl

end State

/-! ### Port updates -/

section Port
variable (p : Port) (i r : RegNo) (v : Word) (c : Cause) (info : Word) (cs : List Cmd)

@[simp] theorem writeReg_stream : (p.writeReg i v).stream = p.stream := by unfold Port.writeReg; split <;> rfl
@[simp] theorem writeReg_ci : (p.writeReg i v).ci = p.ci := by unfold Port.writeReg; split <;> rfl
@[simp] theorem writeReg_status : (p.writeReg i v).status = p.status := by unfold Port.writeReg; split <;> rfl
@[simp] theorem writeReg_faultCi : (p.writeReg i v).faultCi = p.faultCi := by unfold Port.writeReg; split <;> rfl
@[simp] theorem writeReg_faultCmd : (p.writeReg i v).faultCmd = p.faultCmd := by unfold Port.writeReg; split <;> rfl
@[simp] theorem writeReg_faultAddr : (p.writeReg i v).faultAddr = p.faultAddr := by unfold Port.writeReg; split <;> rfl
@[simp] theorem writeReg_flight : (p.writeReg i v).flight = p.flight := by unfold Port.writeReg; split <;> rfl

@[simp] theorem endStream_regs : p.endStream.regs = p.regs := rfl
@[simp] theorem endStream_written : p.endStream.written = p.written := rfl
@[simp] theorem endStream_stream : p.endStream.stream = p.stream := rfl
@[simp] theorem endStream_ci : p.endStream.ci = p.ci := rfl
@[simp] theorem endStream_status : p.endStream.status = setDone (setBusy p.status false) true := rfl
@[simp] theorem endStream_faultCi : p.endStream.faultCi = p.faultCi := rfl
@[simp] theorem endStream_faultCmd : p.endStream.faultCmd = p.faultCmd := rfl
@[simp] theorem endStream_faultAddr : p.endStream.faultAddr = p.faultAddr := rfl
@[simp] theorem endStream_flight : p.endStream.flight = p.flight := rfl

@[simp] theorem advance_regs : p.advance.regs = p.regs := by simp only [Port.advance]; split <;> rfl
@[simp] theorem advance_written : p.advance.written = p.written := by simp only [Port.advance]; split <;> rfl
@[simp] theorem advance_stream : p.advance.stream = p.stream := by simp only [Port.advance]; split <;> rfl
@[simp] theorem advance_ci : p.advance.ci = p.ci + 1 := by simp only [Port.advance]; split <;> rfl
@[simp] theorem advance_status : p.advance.status =
    if (p.ci + 1).toNat = p.stream.length then setDone (setBusy p.status false) true else p.status := by
  simp only [Port.advance]; split <;> rfl
@[simp] theorem advance_faultCi : p.advance.faultCi = p.faultCi := by simp only [Port.advance]; split <;> rfl
@[simp] theorem advance_faultCmd : p.advance.faultCmd = p.faultCmd := by simp only [Port.advance]; split <;> rfl
@[simp] theorem advance_faultAddr : p.advance.faultAddr = p.faultAddr := by simp only [Port.advance]; split <;> rfl
@[simp] theorem advance_flight : p.advance.flight = [] := by simp only [Port.advance]; split <;> rfl

@[simp] theorem enterFault_regs : (p.enterFault c info).regs = p.regs := rfl
@[simp] theorem enterFault_written : (p.enterFault c info).written = p.written := rfl
@[simp] theorem enterFault_stream : (p.enterFault c info).stream = p.stream := rfl
@[simp] theorem enterFault_ci : (p.enterFault c info).ci = p.ci := rfl
@[simp] theorem enterFault_status : (p.enterFault c info).status =
    setDone (setBusy (setFault (setCause p.status c.code) true) false) false := rfl
@[simp] theorem enterFault_faultCi : (p.enterFault c info).faultCi = p.ci := rfl
@[simp] theorem enterFault_faultCmd : (p.enterFault c info).faultCmd = (p.fetch.getD 0).setWidth 64 := rfl
@[simp] theorem enterFault_faultAddr : (p.enterFault c info).faultAddr = info := rfl
@[simp] theorem enterFault_flight : (p.enterFault c info).flight = [] := rfl

@[simp] theorem submit_regs : (p.submit cs).regs = p.regs := rfl
@[simp] theorem submit_written : (p.submit cs).written = p.written := rfl
@[simp] theorem submit_stream : (p.submit cs).stream = cs := rfl
@[simp] theorem submit_ci : (p.submit cs).ci = 0 := rfl
@[simp] theorem submit_status : (p.submit cs).status = setBusy (setDone p.status false) true := rfl
@[simp] theorem submit_faultCi : (p.submit cs).faultCi = p.faultCi := rfl
@[simp] theorem submit_faultCmd : (p.submit cs).faultCmd = p.faultCmd := rfl
@[simp] theorem submit_faultAddr : (p.submit cs).faultAddr = p.faultAddr := rfl
@[simp] theorem submit_flight : (p.submit cs).flight = [] := rfl

end Port

/-! ### Completion and fault entry of the port that moves -/

section Leave
variable (s : State) (ws : List (RegNo × Word)) (c : Cause) (info : Word)

@[simp] theorem retire_before : (retire ws s).before = s.before := rfl
@[simp] theorem retire_after : (retire ws s).after = s.after := rfl
@[simp] theorem retire_shared : (retire ws s).shared = s.shared := rfl
@[simp] theorem retire_admits : (retire ws s).admits = s.admits := rfl
@[simp] theorem retire_port : (retire ws s).port = (s.port.writeRegs ws).advance := rfl
@[simp] theorem enterFault_before : (enterFault c info s).before = s.before := rfl
@[simp] theorem enterFault_after : (enterFault c info s).after = s.after := rfl
@[simp] theorem enterFault_shared : (enterFault c info s).shared = s.shared := rfl
@[simp] theorem enterFault_admits : (enterFault c info s).admits = s.admits := rfl
@[simp] theorem enterFault_port : (enterFault c info s).port = s.port.enterFault c info := rfl

end Leave

/-! ### Command registers -/

@[simp] theorem Port.readReg_zero (p : Port) : p.readReg 0 = some 0 := rfl

/-- Reading a register back (10_state.md R16, R17). -/
theorem Port.readReg_writeReg (p : Port) (i r : RegNo) (v : Word) :
    (p.writeReg i v).readReg r = if r = i ∧ i ≠ 0 then some v else p.readReg r := by
  by_cases hi : i = 0
  · simp [Port.writeReg, hi]
  · by_cases h : r = i
    · subst h
      simp [Port.writeReg, Port.readReg, hi, Vector.get_eq_getElem]
    · have hv : i.val ≠ r.val := fun e => h (Fin.ext e.symm)
      simp [Port.writeReg, Port.readReg, hi, h, Vector.get_eq_getElem, Vector.getElem_set_ne _ _ hv]

@[simp] theorem Port.writeRegs_nil (p : Port) : p.writeRegs [] = p := rfl
@[simp] theorem Port.writeRegs_cons (p : Port) (w : RegNo × Word) (ws : List (RegNo × Word)) :
    p.writeRegs (w :: ws) = (p.writeReg w.1 w.2).writeRegs ws := rfl

/-- A register that no write names keeps its value. -/
theorem Port.readReg_writeRegs_other (ws : List (RegNo × Word)) (r : RegNo) (h : ∀ w ∈ ws, w.1 ≠ r) (p : Port) :
    (p.writeRegs ws).readReg r = p.readReg r := by
  induction ws generalizing p with
  | nil => rfl
  | cons w ws ih =>
    rw [Port.writeRegs_cons, ih (fun x hx => h x (List.mem_cons_of_mem _ hx)), Port.readReg_writeReg,
      if_neg (fun ⟨h1, _⟩ => h w List.mem_cons_self h1.symm)]

/-- Register writes change no field but the registers. -/
theorem Port.writeRegs_frame (ws : List (RegNo × Word)) (p : Port) :
    (p.writeRegs ws).stream = p.stream ∧ (p.writeRegs ws).ci = p.ci ∧ (p.writeRegs ws).status = p.status ∧
      (p.writeRegs ws).faultCi = p.faultCi ∧ (p.writeRegs ws).faultCmd = p.faultCmd ∧
      (p.writeRegs ws).faultAddr = p.faultAddr ∧ (p.writeRegs ws).flight = p.flight := by
  induction ws generalizing p with
  | nil => simp
  | cons w ws ih => simpa using ih (p.writeReg w.1 w.2)

/-- A register's value depends on nothing but the stored words and flags. -/
theorem Port.readReg_congr {p q : Port} (hr : p.regs = q.regs) (hw : p.written = q.written) (r : RegNo) :
    p.readReg r = q.readReg r := by unfold Port.readReg; rw [hr, hw]

/-! ### STATUS (10_state.md R23) -/

theorem setBit_getLsbD (w : Word) (i j : Nat) (b : Bool) (hi : i < 64) :
    (setBit w i b).getLsbD j = if j = i then b else w.getLsbD j := by
  unfold setBit
  by_cases hj : j < 64
  · by_cases h : j = i
    · subst h; cases b <;> simp [hj]
    · have h1 : ¬ (j < i ∧ False) := by simp
      by_cases hlt : j < i
      · simp [hj, hlt, h]
      · have : j - i ≠ 0 := by omega
        cases b <;> simp [hj, hlt, h, this]
  · have : 64 ≤ j := by omega
    simp [this, show j ≠ i by omega]

@[simp] theorem statusBusy_setBusy (st : Word) (b : Bool) : statusBusy (setBusy st b) = b := by
  rw [statusBusy, setBusy, setBit_getLsbD _ _ _ _ (by decide)]; rfl
@[simp] theorem statusBusy_setDone (st : Word) (b : Bool) : statusBusy (setDone st b) = statusBusy st := by
  rw [statusBusy, setDone, setBit_getLsbD _ _ _ _ (by decide)]; rfl
@[simp] theorem statusBusy_setFault (st : Word) (b : Bool) : statusBusy (setFault st b) = statusBusy st := by
  rw [statusBusy, setFault, setBit_getLsbD _ _ _ _ (by decide)]; rfl
@[simp] theorem statusDone_setBusy (st : Word) (b : Bool) : statusDone (setBusy st b) = statusDone st := by
  rw [statusDone, setBusy, setBit_getLsbD _ _ _ _ (by decide)]; rfl
@[simp] theorem statusDone_setDone (st : Word) (b : Bool) : statusDone (setDone st b) = b := by
  rw [statusDone, setDone, setBit_getLsbD _ _ _ _ (by decide)]; rfl
@[simp] theorem statusDone_setFault (st : Word) (b : Bool) : statusDone (setFault st b) = statusDone st := by
  rw [statusDone, setFault, setBit_getLsbD _ _ _ _ (by decide)]; rfl
@[simp] theorem statusFault_setBusy (st : Word) (b : Bool) : statusFault (setBusy st b) = statusFault st := by
  rw [statusFault, setBusy, setBit_getLsbD _ _ _ _ (by decide)]; rfl
@[simp] theorem statusFault_setDone (st : Word) (b : Bool) : statusFault (setDone st b) = statusFault st := by
  rw [statusFault, setDone, setBit_getLsbD _ _ _ _ (by decide)]; rfl
@[simp] theorem statusFault_setFault (st : Word) (b : Bool) : statusFault (setFault st b) = b := by
  rw [statusFault, setFault, setBit_getLsbD _ _ _ _ (by decide)]; rfl

theorem setBit_cause (w : Word) (i : Nat) (b : Bool) (hi : i < 8) : statusCause (setBit w i b) = statusCause w := by
  unfold statusCause
  ext j hj
  simp only [BitVec.getElem_extractLsb', setBit_getLsbD w i _ b (by omega)]
  rw [if_neg (by omega)]

@[simp] theorem statusCause_setBusy (st : Word) (b : Bool) : statusCause (setBusy st b) = statusCause st :=
  setBit_cause st 0 b (by decide)
@[simp] theorem statusCause_setDone (st : Word) (b : Bool) : statusCause (setDone st b) = statusCause st :=
  setBit_cause st 1 b (by decide)
@[simp] theorem statusCause_setFault (st : Word) (b : Bool) : statusCause (setFault st b) = statusCause st :=
  setBit_cause st 2 b (by decide)

theorem setCause_getLsbD (st : Word) (c : BitVec 8) (j : Nat) :
    (setCause st c).getLsbD j = if 8 ≤ j ∧ j < 16 then c.getLsbD (j - 8) else st.getLsbD j := by
  unfold setCause
  by_cases hj : j < 64
  · have hmask : (0xFF#64 <<< 8).getLsbD j = (decide (8 ≤ j) && decide (j < 16)) := by
      interval_cases j <;> rfl
    simp only [BitVec.getLsbD_or, BitVec.getLsbD_and, BitVec.getLsbD_not, hmask, hj, BitVec.getLsbD_shiftLeft,
      BitVec.getLsbD_setWidth, decide_true, Bool.true_and]
    by_cases h1 : 8 ≤ j <;> by_cases h2 : j < 16
    · simp [h1, h2, show ¬ j < 8 by omega, show j - 8 < 64 by omega]
    · have : c.getLsbD (j - 8) = false := BitVec.getLsbD_of_ge _ _ (by omega)
      simp [h1, h2, show ¬ j < 8 by omega, this]
    · simp [h1, show j < 8 by omega]
    · omega
  · rw [if_neg (by omega), BitVec.getLsbD_of_ge _ _ (by omega), BitVec.getLsbD_of_ge _ _ (by omega)]

@[simp] theorem statusBusy_setCause (st : Word) (c : BitVec 8) : statusBusy (setCause st c) = statusBusy st := by
  rw [statusBusy, setCause_getLsbD]; rfl
@[simp] theorem statusDone_setCause (st : Word) (c : BitVec 8) : statusDone (setCause st c) = statusDone st := by
  rw [statusDone, setCause_getLsbD]; rfl
@[simp] theorem statusFault_setCause (st : Word) (c : BitVec 8) : statusFault (setCause st c) = statusFault st := by
  rw [statusFault, setCause_getLsbD]; rfl
@[simp] theorem statusCause_setCause (st : Word) (c : BitVec 8) : statusCause (setCause st c) = c := by
  unfold statusCause
  ext j hj
  simp only [BitVec.getElem_extractLsb', setCause_getLsbD]
  rw [if_pos (by omega)]
  simp [BitVec.getLsbD_eq_getElem hj]

end Sys2Proof.Machine
end

