-- ==== Sys2Proof/Laws/Run.lean ====
section
/-! SUPPORT. What running a command can do, said once: one lemma per access of a running command, the runs of bytes, the
inversion of a whole run, its frame, and which commands can still raise a fault. -/

namespace Sys2Proof.Machine

/-! ### One access of a running command -/

section Access
variable (e : Env) (s : State) (i : Lane) (v : Word) (o : BitVec 2) (k : Act) (kw : Word → Act)

@[simp] theorem run_complete (ws : List (RegNo × Word)) : (Act.complete ws).run e s = retire ws s := rfl
@[simp] theorem run_raise (c : Cause) (info : Word) : (Act.raise c info).run e s = enterFault c info s := rfl

@[simp] theorem run_readL : (readL i kw).run e s = (kw (s.shared.prng.lanes.get i)).run e s := rfl
@[simp] theorem run_writeL : (writeL i v k).run e s =
    k.run e (s.setShared (s.shared.setPrng { s.shared.prng with lanes := s.shared.prng.lanes.set i v })) := rfl
@[simp] theorem run_readCnt : (readCnt kw).run e s = (kw s.shared.prng.cnt).run e s := rfl
@[simp] theorem run_writeCnt : (writeCnt v k).run e s =
    k.run e (s.setShared (s.shared.setPrng { s.shared.prng with cnt := v })) := rfl
@[simp] theorem run_readF : (readF i kw).run e s = (kw (s.shared.prng.feed.get i)).run e s := rfl
@[simp] theorem run_writeF : (writeF i v k).run e s =
    k.run e (s.setShared (s.shared.setPrng { s.shared.prng with feed := s.shared.prng.feed.set i v })) := rfl
@[simp] theorem run_readFofs (kf : BitVec 2 → Act) : (readFofs kf).run e s = (kf s.shared.prng.fofs).run e s := by
  have h : (s.shared.prng.fofs.setWidth 64).setWidth 2 = s.shared.prng.fofs := by simp
  show (kf ((s.shared.prng.fofs.setWidth 64).setWidth 2)).run e s = _
  rw [h]
@[simp] theorem run_writeFofs : (writeFofs o k).run e s =
    k.run e (s.setShared (s.shared.setPrng { s.shared.prng with fofs := o })) := rfl
@[simp] theorem run_clock : (clock kw).run e s =
    (kw (clockNext e s.shared.clock)).run e (s.setShared { s.shared with
      clock := { last := clockNext e s.shared.clock, calls := s.shared.clock.calls + 1 } }) := rfl
@[simp] theorem run_rusage (kb : List Byte → Act) : (rusage kb).run e s =
    (kb (snapshot e s.shared.rusageCalls)).run e (s.setShared { s.shared with rusageCalls := s.shared.rusageCalls + 1 }) :=
  rfl

end Access

/-- A buffer read in one go gives the bytes memory holds (20_memory.md R37, R43). -/
@[simp] theorem run_readBytes (e : Env) (n : Nat) (a : Word) (k : List Byte → Act) (s : State) :
    (readBytes n a k).run e s = (k (Memory.readRange s.shared.mem a n)).run e s := by
  induction n generalizing a k with
  | zero => rfl
  | succ n ih => exact ih (a + 1) fun bs => k (Memory.read s.shared.mem a.toNat :: bs)

/-- A buffer written in one go (20_memory.md R38, R43). -/
@[simp] theorem run_writeBytes (e : Env) (bs : List Byte) (a : Word) (k : Act) (s : State) :
    (writeBytes bs a k).run e s =
      k.run e (s.setShared { s.shared with mem := Memory.writeRange s.shared.mem a bs }) := by
  induction bs generalizing a s with
  | nil => rfl
  | cons b bs ih => exact ih (a + 1) (s.setShared { s.shared with mem := Memory.write s.shared.mem a.toNat b })

/-! ### A whole run -/

/-- Everything running a command can do: it leaves something of what is shared, and then completes or faults. -/
theorem run_cases (e : Env) (a : Act) (s : State) :
    ∃ h, (∃ ws, a.run e s = retire ws (s.setShared h)) ∨ (∃ c info, a.run e s = enterFault c info (s.setShared h)) := by
  induction a generalizing s with
  | complete ws => exact ⟨s.shared, .inl ⟨ws, rfl⟩⟩
  | raise c info => exact ⟨s.shared, .inr ⟨c, info, rfl⟩⟩
  | access q k ih => exact ih _ (s.setShared (perform e s.shared q).2)

/-- A command touches no other port and not the launch's admission (60_exceptions.md R120, 20_memory.md R36). -/
theorem run_frame (e : Env) (a : Act) (s : State) :
    (a.run e s).before = s.before ∧ (a.run e s).after = s.after ∧ (a.run e s).admits = s.admits := by
  obtain ⟨h, ⟨ws, hr⟩ | ⟨c, info, hr⟩⟩ := run_cases e a s <;> simp [hr]

/-- One access keeps the canonical form of memory. -/
theorem perform_wf (e : Env) (h : Shared) (q : Access) (hw : Memory.wf h.mem) : Memory.wf (perform e h q).2.mem := by
  cases q <;> first | exact hw | exact Memory.wf_write _ _ _ (BitVec.isLt _) hw

/-- A command keeps the canonical form of memory. -/
theorem run_wf (e : Env) (a : Act) (s : State) (hw : Memory.wf s.shared.mem) : Memory.wf (a.run e s).shared.mem := by
  induction a generalizing s with
  | complete ws => exact hw
  | raise c info => exact hw
  | access q k ih => exact ih _ _ (perform_wf e s.shared q hw)

/-! ### Commands that can no longer fault (60_exceptions.md R108, R110) -/

/-- No fault is left in the rest of a command, whatever its accesses answer. -/
def Act.Quiet : Act → Prop
  | .complete _ => True
  | .raise _ _ => False
  | .access _ k => ∀ r, Act.Quiet (k r)

@[simp] theorem quiet_complete (ws : List (RegNo × Word)) : (Act.complete ws).Quiet := trivial
theorem quiet_readL {i : Lane} {k : Word → Act} (h : ∀ v, (k v).Quiet) : (readL i k).Quiet := fun _ => h _
theorem quiet_writeL {i : Lane} {v : Word} {k : Act} (h : k.Quiet) : (writeL i v k).Quiet := fun _ => h
theorem quiet_readCnt {k : Word → Act} (h : ∀ v, (k v).Quiet) : (readCnt k).Quiet := fun _ => h _
theorem quiet_writeCnt {v : Word} {k : Act} (h : k.Quiet) : (writeCnt v k).Quiet := fun _ => h
theorem quiet_readF {i : Lane} {k : Word → Act} (h : ∀ v, (k v).Quiet) : (readF i k).Quiet := fun _ => h _
theorem quiet_writeF {i : Lane} {v : Word} {k : Act} (h : k.Quiet) : (writeF i v k).Quiet := fun _ => h
theorem quiet_readFofs {k : BitVec 2 → Act} (h : ∀ v, (k v).Quiet) : (readFofs k).Quiet := fun _ => h _
theorem quiet_writeFofs {v : BitVec 2} {k : Act} (h : k.Quiet) : (writeFofs v k).Quiet := fun _ => h
theorem quiet_clock {k : Word → Act} (h : ∀ v, (k v).Quiet) : (clock k).Quiet := fun _ => h _
theorem quiet_rusage {k : List Byte → Act} (h : ∀ v, (k v).Quiet) : (rusage k).Quiet := fun _ => h _

theorem quiet_readBytes {n : Nat} {a : Word} {k : List Byte → Act} (h : ∀ bs, (k bs).Quiet) : (readBytes n a k).Quiet := by
  induction n generalizing a k with
  | zero => exact h []
  | succ n ih => exact fun _ => ih fun _ => h _

theorem quiet_writeBytes {bs : List Byte} {a : Word} {k : Act} (h : k.Quiet) : (writeBytes bs a k).Quiet := by
  induction bs generalizing a with
  | nil => exact h
  | cons b bs ih => exact fun _ => ih

theorem quiet_jitter {c : Cfg} {m i : Nat} {k : Act} (h : k.Quiet) : (jitter c m i k).Quiet := by
  induction m generalizing i with
  | zero => exact h
  | succ m ih =>
    exact quiet_clock fun _ => quiet_readCnt fun _ => quiet_readL fun _ => quiet_writeL <|
      quiet_readL fun _ => quiet_writeL ih

theorem quiet_mixRusage {c : Cfg} {k : Act} (h : k.Quiet) : (mixRusage c k).Quiet := by
  unfold mixRusage
  split
  · exact quiet_rusage fun _ => quiet_readL fun _ => quiet_writeL h
  · exact h

theorem quiet_mixFeed {c : Cfg} {k : Act} (h : k.Quiet) : (mixFeed c k).Quiet :=
  quiet_readF fun _ => quiet_readF fun _ => quiet_readF fun _ => quiet_readF fun _ => quiet_readL fun _ =>
  quiet_readL fun _ => quiet_readL fun _ => quiet_writeL <| quiet_readL fun _ => quiet_writeL <|
  quiet_writeF <| quiet_writeF <| quiet_writeF <| quiet_writeF h

theorem quiet_reseed {c : Cfg} {k : Act} (h : k.Quiet) : (reseed c k).Quiet :=
  quiet_readL fun _ => quiet_jitter <| quiet_mixRusage <| quiet_mixFeed <| quiet_readCnt fun _ => quiet_writeCnt h

theorem quiet_drawLanes {c : Cfg} {k : Word → Act} (h : ∀ v, (k v).Quiet) : (drawLanes c k).Quiet :=
  quiet_readCnt fun _ => quiet_readL fun _ => quiet_writeL <| quiet_readL fun _ => quiet_writeL <|
  quiet_readL fun _ => quiet_writeL <| quiet_readL fun _ => quiet_writeL <| h _

theorem quiet_draw {c : Cfg} {k : Word → Act} (h : ∀ v, (k v).Quiet) : (draw c k).Quiet := by
  refine quiet_readCnt fun v => quiet_writeCnt ?_
  split
  · exact quiet_reseed (quiet_drawLanes h)
  · exact quiet_drawLanes h

theorem quiet_drawBatch {c : Cfg} {k : List Byte → Act} (h : ∀ bs, (k bs).Quiet) : (drawBatch c k).Quiet :=
  quiet_draw fun _ => quiet_draw fun _ => quiet_draw fun _ => quiet_draw fun _ => h _

theorem quiet_fillBlocks {c : Cfg} {m : Nat} {a : Word} {k : Word → Act} (h : ∀ a, (k a).Quiet) :
    (fillBlocks c m a k).Quiet := by
  induction m generalizing a with
  | zero => exact h a
  | succ m ih => exact quiet_drawBatch fun _ => quiet_writeBytes ih

theorem quiet_randBytes {c : Cfg} {a : Word} {n : Nat} {k : Act} (h : k.Quiet) : (randBytes c a n k).Quiet := by
  refine quiet_fillBlocks fun a => ?_
  split
  · exact h
  · exact quiet_drawBatch fun _ => quiet_writeBytes h

theorem quiet_feedWord {w : Word} {o : BitVec 2} {k : BitVec 2 → Act} (h : ∀ o, (k o).Quiet) : (feedWord w o k).Quiet :=
  quiet_readF fun _ => quiet_writeF (h _)

theorem quiet_feedChunks {m : Nat} {a : Word} {o : BitVec 2} {k : BitVec 2 → Act} (h : ∀ o, (k o).Quiet) :
    (feedChunks m a o k).Quiet := by
  induction m generalizing a o with
  | zero => exact h o
  | succ m ih => exact quiet_readBytes fun _ => quiet_feedWord fun _ => ih

theorem quiet_feed {a : Word} {n : Nat} {k : Act} (h : k.Quiet) : (feed a n k).Quiet := by
  unfold feed
  split
  · exact h
  · refine quiet_readFofs fun _ => quiet_feedChunks fun _ => ?_
    split
    · exact quiet_writeFofs h
    · exact quiet_readBytes fun _ => quiet_feedWord fun _ => quiet_writeFofs h

/-- Running a command that cannot fault completes it. -/
theorem run_quiet (e : Env) (a : Act) (s : State) (h : a.Quiet) : ∃ g ws, a.run e s = retire ws (s.setShared g) := by
  induction a generalizing s with
  | complete ws => exact ⟨s.shared, ws, rfl⟩
  | raise c info => exact h.elim
  | access q k ih => exact ih _ (s.setShared (perform e s.shared q).2) (h _)

/-! ### The operand checks come first (60_exceptions.md R108) -/

/-- A fault before any access, or none at all. -/
def Act.FaultsFirst (a : Act) : Prop := (∃ c info, a = .raise c info) ∨ a.Quiet

theorem faultsFirst_source {s : State} {i : RegNo} {k : Word → Act} (h : ∀ v, (k v).FaultsFirst) :
    (source s i k).FaultsFirst := by
  unfold source
  split
  · exact h _
  · exact .inl ⟨_, _, rfl⟩

theorem faultsFirst_notNull {a : Word} {n : Nat} {k : Act} (h : k.FaultsFirst) : (notNull a n k).FaultsFirst := by
  unfold notNull
  split
  · exact .inl ⟨_, _, rfl⟩
  · exact h

theorem faultsFirst_admitted {s : State} {kind : AccessKind} {a : Word} {n : Nat} {k : Act} (h : k.FaultsFirst) :
    (admitted s kind a n k).FaultsFirst := by
  unfold admitted
  split
  · exact h
  · exact .inl ⟨_, _, rfl⟩

/-- Every command decides its faults before its first access (20_memory.md R41). -/
theorem plan_faultsFirst (e : Env) (i : Instr) (s : State) : (plan e i s).FaultsFirst := by
  cases i with
  | mixnum rd ra rb => exact faultsFirst_source fun _ => faultsFirst_source fun _ => .inr trivial
  | mixptr rd ra => exact faultsFirst_source fun _ => .inr trivial
  | rhash rd ra rb rc =>
    exact faultsFirst_source fun _ => faultsFirst_source fun _ => faultsFirst_source fun _ =>
      faultsFirst_notNull <| faultsFirst_admitted <| .inr <| quiet_readBytes fun _ => trivial
  | shash rd ra rb rc =>
    exact faultsFirst_source fun _ => faultsFirst_source fun _ => faultsFirst_source fun _ =>
      faultsFirst_notNull <| faultsFirst_admitted <| .inr <| quiet_readBytes fun _ => trivial
  | shash128 rd re ra rb rc =>
    exact faultsFirst_source fun _ => faultsFirst_source fun _ => faultsFirst_source fun _ =>
      faultsFirst_notNull <| faultsFirst_admitted <| .inr <| quiet_readBytes fun _ => trivial
  | shash128b re ra rb rc =>
    exact faultsFirst_source fun _ => faultsFirst_source fun _ => faultsFirst_source fun _ => faultsFirst_source fun _ =>
      faultsFirst_notNull <| faultsFirst_notNull <| faultsFirst_admitted <| faultsFirst_admitted <| .inr <|
      quiet_readBytes fun _ => quiet_writeBytes trivial
  | rand64 rd => exact .inr (quiet_draw fun _ => trivial)
  | randbytes ra rb =>
    exact faultsFirst_source fun _ => faultsFirst_source fun _ =>
      faultsFirst_notNull <| faultsFirst_admitted <| .inr <| quiet_randBytes trivial
  | feed ra rb =>
    exact faultsFirst_source fun _ => faultsFirst_source fun _ =>
      faultsFirst_notNull <| faultsFirst_admitted <| .inr <| quiet_feed trivial
  | reseed => exact .inr (quiet_reseed trivial)

/-! ### exec and plan -/

/-- The meaning of a command is its plan run in one go. -/
theorem exec_eq_runWhole (i : Instr) (s : State) : exec i s = runWhole (plan Config.env i s) s := by cases i <;> rfl

@[simp] theorem resume_nil (a : Act) : a.resume [] = a := by cases a <;> rfl

/-- One more answer takes a command one access further. -/
theorem resume_concat (a : Act) (rs : List Ans) (r : Ans) : a.resume (rs ++ [r]) = (a.resume rs).resume [r] := by
  induction rs generalizing a with
  | nil => simp
  | cons x xs ih =>
    cases a with
    | complete ws => cases xs <;> rfl
    | raise c info => cases xs <;> rfl
    | access q k => exact ih (k x)

/-- What a command has left to do depends on nothing but registers, admission and the answers so far. -/
theorem plan_congr (e : Env) (i : Instr) {s t : State} (hr : t.port.regs = s.port.regs)
    (hw : t.port.written = s.port.written) (ha : t.admits = s.admits) : plan e i t = plan e i s := by
  have hs : ∀ r k, source t r k = source s r k := fun r k => by
    unfold source; rw [Port.readReg_congr hr hw]
  have hd : ∀ kind a n k, admitted t kind a n k = admitted s kind a n k := fun kind a n k => by
    unfold admitted; rw [ha]
  cases i <;> simp only [plan, planMixnum, planMixptr, planRhash, planShash, planShash128, planShash128b, planRand64,
    planRandbytes, planFeed, planReseed, hs, hd]

end Sys2Proof.Machine
end

