-- ==== Sys2Proof/Laws/Operands.lean ====
section
/-! SUPPORT. What the operand checks, completion and fault entry can do, said once (10_state.md R17, R18, 20_memory.md R36,
R42, 60_exceptions.md R109). -/

namespace Sys2Proof.Machine

/-! ### Operand checks -/

section Checks
variable {s : State} {i : RegNo} {kind : AccessKind} {a v b : Word} {n : Nat} {k : Act} {kw : Word → Act}

/-- A register with a value is a source of that value. -/
theorem source_some (h : s.port.readReg i = some v) : source s i kw = kw v := by simp [source, h]

/-- A register without a value raises `UNDEF_REG`. -/
theorem source_none (h : s.port.readReg i = none) : source s i kw = .raise .undefReg (BitVec.ofNat 64 i.val) := by
  simp [source, h]

/-- A buffer that is empty or not at address 0 passes the null-buffer rule. -/
theorem notNull_of (h : a = 0 → n = 0) : notNull a n k = k := by
  unfold notNull
  rw [if_neg]
  rintro ⟨h1, h2⟩
  exact absurd (h h1) (Nat.pos_iff_ne_zero.1 h2)

/-- A buffer of bytes at address 0 raises `NULL_BUFFER`. -/
theorem notNull_zero (h : 0 < n) : notNull 0 n k = .raise .nullBuffer 0 := by
  unfold notNull
  rw [if_pos ⟨rfl, h⟩]

/-- A range that is not rejected passes. -/
theorem admitted_of (h : rejected s.admits kind a n = none) : admitted s kind a n k = k := by unfold admitted; rw [h]

/-- A rejected range raises `MEM_FAULT`. -/
theorem admitted_rejected (h : rejected s.admits kind a n = some b) : admitted s kind a n k = .raise .memFault b := by
  unfold admitted; rw [h]

end Checks

/-! ### Admission -/

/-- Nothing is bad exactly when every byte is `Ok`. -/
theorem firstBad_eq_none {admits : List Region} {kind : AccessKind} {a n : Nat} :
    firstBad admits kind a n = none ↔ ∀ j < n, okByte admits kind (a + j) = true := by
  induction n generalizing a with
  | zero => simp [firstBad]
  | succ n ih =>
    unfold firstBad
    by_cases h : okByte admits kind a = true
    · rw [if_pos h, ih]
      constructor
      · rintro H (_ | j) hj
        · exact h
        · simpa [Nat.add_assoc, Nat.add_comm 1] using H j (by omega)
      · intro H j hj
        simpa [Nat.add_assoc, Nat.add_comm 1] using H (j + 1) (by omega)
    · rw [if_neg h]
      exact ⟨fun H => by simp at H, fun H => absurd (H 0 (by omega)) h⟩

/-- The first bad byte is the one byte that is not `Ok` with every byte before it `Ok`. -/
theorem firstBad_eq_some {admits : List Region} {kind : AccessKind} {a n b : Nat} :
    firstBad admits kind a n = some b ↔
      ∃ j < n, b = a + j ∧ okByte admits kind (a + j) = false ∧ ∀ m < j, okByte admits kind (a + m) = true := by
  induction n generalizing a with
  | zero => simp [firstBad]
  | succ n ih =>
    unfold firstBad
    by_cases h : okByte admits kind a = true
    · rw [if_pos h, ih]
      constructor
      · rintro ⟨j, hj, rfl, h1, h2⟩
        refine ⟨j + 1, by omega, by omega, by simpa [Nat.add_assoc, Nat.add_comm 1] using h1, ?_⟩
        rintro (_ | m) hm
        · exact h
        · simpa [Nat.add_assoc, Nat.add_comm 1] using h2 m (by omega)
      · rintro ⟨_ | j, hj, rfl, h1, h2⟩
        · simp_all
        · refine ⟨j, by omega, by omega, by simpa [Nat.add_assoc, Nat.add_comm 1] using h1, fun m hm => ?_⟩
          simpa [Nat.add_assoc, Nat.add_comm 1] using h2 (m + 1) (by omega)
    · rw [if_neg h, Option.some.injEq]
      constructor
      · rintro rfl
        exact ⟨0, by omega, rfl, by simpa using h, by simp⟩
      · rintro ⟨_ | j, hj, rfl, h1, h2⟩
        · rfl
        · exact absurd (h2 0 (by omega)) h

/-! ### Completion and fault entry -/

/-- Advancing to the next command leaves every register's value. -/
@[simp] theorem Port.readReg_advance (p : Port) (r : RegNo) : p.advance.readReg r = p.readReg r :=
  Port.readReg_congr (by simp) (by simp) r

/-- The value of the destination of a command that writes one register. -/
theorem readReg_retire_one (s : State) (rd : RegNo) (v : Word) :
    (retire [(rd, v)] s).port.readReg rd = some (if rd = 0 then 0 else v) := by
  rw [retire_port, Port.readReg_advance, Port.writeRegs_cons, Port.writeRegs_nil, Port.readReg_writeReg]
  by_cases h : rd = 0 <;> simp [h]

/-- Completing a command whose writes are all to `dst` leaves everything else. -/
theorem completed_retire (ws : List (RegNo × Word)) (dst : List RegNo) (h : ∀ w ∈ ws, w.1 ∈ dst) (s : State) (g : Shared) :
    Completed dst s (retire ws (s.setShared g)) := by
  obtain ⟨h1, h2, h3, h4, h5, h6, _⟩ := Port.writeRegs_frame ws s.port
  constructor <;> simp [h1, h2, h3, h4, h5, h6]
  exact fun r hr => Port.readReg_writeRegs_other ws r (fun w hw e => hr (e ▸ h w hw)) _

/-- Taking a fault leaves what `TookFault` says. -/
theorem tookFault_enterFault (c : Cause) (info : Word) (s : State) : TookFault c info s (enterFault c info s) := by
  constructor <;> simp +contextual

/-- A command whose meaning is a fault takes that fault. -/
theorem exec_raise {i : Instr} {s : State} {c : Cause} {info : Word} (h : plan Config.env i s = .raise c info) :
    exec i s = .next (enterFault c info s) := by
  rw [exec_eq_runWhole, h]; rfl

/-- Everything executing a command can do: it takes a fault before any access, or it completes. -/
theorem exec_cases {i : Instr} {s t : State} (h : exec i s = .next t) :
    (∃ c info, plan Config.env i s = .raise c info ∧ t = enterFault c info s) ∨
      ((plan Config.env i s).Quiet ∧ ∃ g ws, t = retire ws (s.setShared g)) := by
  rw [exec_eq_runWhole] at h
  rcases plan_faultsFirst Config.env i s with ⟨c, info, hp⟩ | hq
  · rw [hp] at h
    cases h
    exact .inl ⟨c, info, hp, rfl⟩
  · obtain ⟨g, ws, hr⟩ := run_quiet Config.env _ s hq
    rw [runWhole, hr] at h
    cases h
    exact .inr ⟨hq, g, ws, rfl⟩

end Sys2Proof.Machine
end

