-- ==== Sys2Proof/Laws/Agents.lean ====
section
/-! SUPPORT. Everything a step, an access, a host move and an event can do, said once; and the ports by number. -/

namespace Sys2Proof.Machine

/-! ### Ports by number -/

/-- Putting another port in focus changes nothing but the focus. -/
theorem focus_frame {s t : State} {n : Nat} (h : s.focus n = some t) :
    t.admits = s.admits ∧ t.shared = s.shared ∧ t.ports = s.ports ∧ t.before.length = n := by
  unfold State.focus at h
  split at h
  · cases h
  · next p rest hd =>
    cases h
    have hn : n < s.ports.length := by
      rcases Nat.lt_or_ge n s.ports.length with h | h
      · exact h
      · rw [List.drop_eq_nil_of_le h] at hd; cases hd
    refine ⟨rfl, rfl, ?_, by simp; omega⟩
    simp only [State.ports]
    rw [← hd]
    exact List.take_append_drop n s.ports

/-- The port in focus is port `n`. -/
theorem focus_port {s t : State} {n : Nat} (h : s.focus n = some t) : s.ports[n]? = some t.port := by
  obtain ⟨_, _, hp, hb⟩ := focus_frame h
  rw [← hp, State.ports, ← hb]
  simp

/-- Replacing port `n` is setting entry `n` of the ports. -/
theorem replacePort_ports (s : State) (n : Nat) (p : Port) : (s.replacePort n p).ports = s.ports.set n p := by
  unfold State.replacePort State.ports
  split
  · rw [List.set_append_left _ _ (by assumption)]
  · split
    · next h => subst h; simp
    · next h1 h2 =>
      rw [List.set_append_right _ _ (by omega)]
      obtain ⟨m, hm⟩ : ∃ m, n - s.before.length = m + 1 := ⟨n - s.before.length - 1, by omega⟩
      simp [hm]

@[simp] theorem replacePort_shared (s : State) (n : Nat) (p : Port) : (s.replacePort n p).shared = s.shared := by
  unfold State.replacePort; split <;> [rfl; split] <;> rfl

@[simp] theorem replacePort_admits (s : State) (n : Nat) (p : Port) : (s.replacePort n p).admits = s.admits := by
  unfold State.replacePort; split <;> [rfl; split] <;> rfl

/-- A state with the other ports of `s` has the ports of `s` but for the one that moves. -/
theorem ports_of_frame {s t : State} (hb : t.before = s.before) (ha : t.after = s.after) :
    t.ports = s.ports.set s.before.length t.port := by simp [State.ports, hb, ha]

/-! ### One step and one access -/

/-- Everything a step can do: nothing, as the port is not busy; what is left of the command at `ci`; `ILLEGAL_CMD`; or the
end of an empty stream. -/
theorem step_cases {s t : State} (h : step s = .next t) :
    (t = s ∧ statusBusy s.port.status = false) ∨
    (statusBusy s.port.status = true ∧
      ((∃ w, s.port.fetch = some w ∧
          ((∃ i, decode w = .ok i ∧ t = (planLeft Config.env i s).run Config.env s) ∨
            (∃ x, decode w = .error x ∧ t = enterFault .illegalCmd 0 s))) ∨
        (s.port.fetch = none ∧ s.port.ci.toNat = s.port.stream.length ∧ t = s.setPort s.port.endStream))) := by
  unfold step at h
  by_cases hb : statusBusy s.port.status = true
  · refine .inr ⟨hb, ?_⟩
    rw [if_pos hb] at h
    cases hf : s.port.fetch with
    | none =>
      rw [hf] at h
      dsimp only [runOffStream] at h
      split at h
      · next hc => cases h; exact .inr ⟨rfl, hc, rfl⟩
      · cases h
    | some w =>
      rw [hf] at h
      dsimp only [runWord] at h
      refine .inl ⟨w, rfl, ?_⟩
      cases hd : decode w with
      | error x => rw [hd] at h; cases h; exact .inr ⟨x, rfl, rfl⟩
      | ok i =>
        rw [hd] at h
        dsimp only at h
        refine .inl ⟨i, rfl, ?_⟩
        split at h
        · next hf =>
          rw [exec_eq_runWhole] at h
          cases h
          simp [planLeft, List.isEmpty_iff.1 hf]
        · cases h; rfl
  · rw [if_neg hb] at h
    cases h
    exact .inl ⟨rfl, by simpa using hb⟩

/-- Everything an access of the port that moves can do: the above, of a command no more than its next access, or its
completion or fault when no access is left. -/
theorem accessStep_cases {s t : State} (h : accessStep s = .next t) :
    (t = s ∧ statusBusy s.port.status = false) ∨
    (statusBusy s.port.status = true ∧
      ((∃ w, s.port.fetch = some w ∧
          ((∃ i, decode w = .ok i ∧
              ((∃ ws, planLeft Config.env i s = .complete ws ∧ t = retire ws s) ∨
                (∃ c info, planLeft Config.env i s = .raise c info ∧ t = enterFault c info s) ∨
                (∃ q k, planLeft Config.env i s = .access q k ∧
                  t = (s.setShared (perform Config.env s.shared q).2).setPort
                    { s.port with flight := s.port.flight ++ [(perform Config.env s.shared q).1] }))) ∨
            (∃ x, decode w = .error x ∧ t = enterFault .illegalCmd 0 s))) ∨
        (s.port.fetch = none ∧ s.port.ci.toNat = s.port.stream.length ∧ t = s.setPort s.port.endStream))) := by
  unfold accessStep at h
  by_cases hb : statusBusy s.port.status = true
  · refine .inr ⟨hb, ?_⟩
    rw [if_pos hb] at h
    cases hf : s.port.fetch with
    | none =>
      rw [hf] at h
      dsimp only [runOffStream] at h
      split at h
      · next hc => cases h; exact .inr ⟨rfl, hc, rfl⟩
      · cases h
    | some w =>
      rw [hf] at h
      dsimp only [accessWord] at h
      refine .inl ⟨w, rfl, ?_⟩
      cases hd : decode w with
      | error x => rw [hd] at h; cases h; exact .inr ⟨x, rfl, rfl⟩
      | ok i =>
        rw [hd] at h
        dsimp only at h
        refine .inl ⟨i, rfl, ?_⟩
        split at h
        · next hl => cases h; exact .inl ⟨_, hl, rfl⟩
        · next hl => cases h; exact .inr (.inl ⟨_, _, hl, rfl⟩)
        · next hl => cases h; exact .inr (.inr ⟨_, _, hl, rfl⟩)
  · rw [if_neg hb] at h
    cases h
    exact .inl ⟨rfl, by simpa using hb⟩

/-! ### Host moves and events -/

/-- A host move on a port is the port's move, where there is such a port and the move's condition holds. -/
theorem hostPortMove_eq_some {s t : State} {n : Nat} {f : Port → Option (HostReply × Port)} {r : HostReply} :
    hostPortMove s n f = some (r, t) ↔ ∃ p q, s.ports[n]? = some p ∧ f p = some (r, q) ∧ t = s.replacePort n q := by
  unfold hostPortMove
  constructor
  · intro h
    split at h
    · cases h
    · next p hp =>
      split at h
      · cases h
      · next r q hf => cases h; exact ⟨p, q, hp, hf, rfl⟩
  · rintro ⟨p, q, hp, hf, rfl⟩
    simp [hp, hf]

/-- Everything an event can do: a step or an access of the port it names, or a host move. -/
theorem event_cases {ev : Event} {s t : State} (h : ev.apply s = some t) :
    (∃ n u, ev = .command n ∧ s.focus n = some u ∧ step u = .next t) ∨
    (∃ n u, ev = .access n ∧ s.focus n = some u ∧ accessStep u = .next t) ∨
    (∃ m r, ev = .host m ∧ hostMove Config.env s m = some (r, t)) := by
  cases ev with
  | command n =>
    simp only [Event.apply] at h
    split at h
    · cases h
    · next u hu =>
      split at h
      · next hs => cases h; exact .inl ⟨n, u, rfl, hu, hs⟩
      all_goals cases h
  | access n =>
    simp only [Event.apply] at h
    split at h
    · cases h
    · next u hu =>
      split at h
      · next hs => cases h; exact .inr (.inl ⟨n, u, rfl, hu, hs⟩)
      all_goals cases h
  | host m =>
    simp only [Event.apply] at h
    split at h
    · cases h
    · next r u hu => cases h; exact .inr (.inr ⟨m, r, rfl, hu⟩)

end Sys2Proof.Machine
end

