-- ==== Sys2Proof/Laws/Decode.lean ====
section
/-! SUPPORT. The bits of an assembled word, and what the decoder's field reads find in it (30_encoding.md R55, R61). -/

namespace Sys2Proof

/-- A register number occupies its four bits and no other. -/
theorem putReg_getLsbD (r : RegNo) (lo j : Nat) (hj : j < 32) :
    (putReg r lo).getLsbD j = (decide (lo ≤ j) && decide (j < lo + 4) && r.val.testBit (j - lo)) := by
  have hb : 4 ≤ j - lo → r.val.testBit (j - lo) = false := fun hk => by
    refine Nat.testBit_lt_two_pow (Nat.lt_of_lt_of_le r.isLt ?_)
    exact Nat.pow_le_pow_right (n := 2) (by decide) hk
  rw [putReg, BitVec.getLsbD_shiftLeft, BitVec.getLsbD_ofNat]
  by_cases h : lo ≤ j <;> by_cases h2 : j < lo + 4
  · simp [hj, h, h2, show ¬ j < lo by omega, show j - lo < 32 by omega]
  · simp [h, h2, hb (by omega)]
  · simp [h, show j < lo by omega]
  · simp [h, show j < lo by omega]

/-- Bit `j` of an assembled word. -/
theorem assemble_getLsbD (op : BitVec 8) (rd ra rb rc re : RegNo) (j : Nat) (hj : j < 32) :
    (assemble op rd ra rb rc re).getLsbD j =
      ((decide (24 ≤ j) && decide (j < 28) && re.val.testBit (j - 24)) ||
        (decide (20 ≤ j) && decide (j < 24) && rc.val.testBit (j - 20)) ||
        (decide (16 ≤ j) && decide (j < 20) && rb.val.testBit (j - 16)) ||
        (decide (12 ≤ j) && decide (j < 16) && ra.val.testBit (j - 12)) ||
        (decide (8 ≤ j) && decide (j < 12) && rd.val.testBit (j - 8)) || op.getLsbD j) := by
  simp only [assemble, BitVec.getLsbD_or, putReg_getLsbD _ _ _ hj, BitVec.getLsbD_setWidth, hj, decide_true,
    Bool.true_and]

theorem extract4_eq (w : Cmd) (lo : Nat) (x : BitVec 4) (h : ∀ i < 4, w.getLsbD (lo + i) = x.getLsbD i) :
    w.extractLsb' lo 4 = x := by
  ext i hi
  simp [h i hi, BitVec.getLsbD_eq_getElem hi]

theorem regField_eq (w : Cmd) (lo : Nat) (r : RegNo) (h : ∀ i < 4, w.getLsbD (lo + i) = r.val.testBit i) :
    regField w lo = r := by
  have hr : (BitVec.ofNat 4 r.val).toFin = r := by clear h; revert r; decide
  unfold regField
  rw [extract4_eq w lo (BitVec.ofNat 4 r.val) fun i hi => by simp [h i hi, hi], hr]

/-- Each field of an assembled word reads back. -/
theorem assemble_fields (op : BitVec 8) (rd ra rb rc re : RegNo) :
    (assemble op rd ra rb rc re).extractLsb' 0 8 = op ∧
      regField (assemble op rd ra rb rc re) 8 = rd ∧ regField (assemble op rd ra rb rc re) 12 = ra ∧
      regField (assemble op rd ra rb rc re) 16 = rb ∧ regField (assemble op rd ra rb rc re) 20 = rc ∧
      regField (assemble op rd ra rb rc re) 24 = re ∧ (assemble op rd ra rb rc re).extractLsb' 28 4 = 0 := by
  refine ⟨?_, regField_eq _ _ _ ?_, regField_eq _ _ _ ?_, regField_eq _ _ _ ?_, regField_eq _ _ _ ?_,
    regField_eq _ _ _ ?_, extract4_eq _ _ _ ?_⟩
  · ext i hi
    rw [BitVec.getElem_extractLsb', Nat.zero_add, assemble_getLsbD _ _ _ _ _ _ _ (by omega)]
    simp [show ¬ 24 ≤ i by omega, show ¬ 20 ≤ i by omega, show ¬ 16 ≤ i by omega, show ¬ 12 ≤ i by omega,
      show ¬ 8 ≤ i by omega, BitVec.getLsbD_eq_getElem hi]
  all_goals
    intro i hi
    rw [assemble_getLsbD _ _ _ _ _ _ _ (by omega)]
    interval_cases i <;> simp

/-- Two words with the same fields are the same word (30_encoding.md R55: the fields are all its bits). -/
theorem word_eq_of_fields {v w : Cmd} (hop : v.extractLsb' 0 8 = w.extractLsb' 0 8) (hrd : regField v 8 = regField w 8)
    (hra : regField v 12 = regField w 12) (hrb : regField v 16 = regField w 16) (hrc : regField v 20 = regField w 20)
    (hre : regField v 24 = regField w 24) (hz : v.extractLsb' 28 4 = w.extractLsb' 28 4) : v = w := by
  have reg : ∀ lo, regField v lo = regField w lo → ∀ i < 4, v.getLsbD (lo + i) = w.getLsbD (lo + i) := by
    intro lo h i hi
    have h' : v.extractLsb' lo 4 = w.extractLsb' lo 4 := BitVec.eq_of_toFin_eq h
    have := congrArg (fun x => x.getLsbD i) h'
    simpa [hi] using this
  refine BitVec.eq_of_getLsbD_eq fun j hj => ?_
  by_cases h8 : j < 8
  · have := congrArg (fun x => x.getLsbD j) hop
    simpa [h8] using this
  by_cases h28 : 28 ≤ j
  · have := congrArg (fun x => x.getLsbD (j - 28)) hz
    simpa [show j - 28 < 4 by omega, show 28 + (j - 28) = j by omega] using this
  rcases Nat.lt_or_ge j 12 with h | h
  · simpa [show 8 + (j - 8) = j by omega] using reg 8 hrd (j - 8) (by omega)
  rcases Nat.lt_or_ge j 16 with h | h
  · simpa [show 12 + (j - 12) = j by omega] using reg 12 hra (j - 12) (by omega)
  rcases Nat.lt_or_ge j 20 with h | h
  · simpa [show 16 + (j - 16) = j by omega] using reg 16 hrb (j - 16) (by omega)
  rcases Nat.lt_or_ge j 24 with h | h
  · simpa [show 20 + (j - 20) = j by omega] using reg 20 hrc (j - 20) (by omega)
  · simpa [show 24 + (j - 24) = j by omega] using reg 24 hre (j - 24) (by omega)

end Sys2Proof
end

