-- ==== Sys2Proof/Laws/Random.lean ====
section
/-! SUPPORT. What the PRNG procedures leave when nobody moves between their accesses, said once per procedure (43_prng.md R94
to R101), and the lanes of a `Quad` one by one. -/

namespace Sys2Proof.Machine

/-! ### Lanes -/

theorem Quad.get_set (v : Quad) (i : Nat) (h : i < 4) (k : Lane) (w : Word) :
    (v.set i w h).get k = if k.val = i then w else v.get k := by
  simp only [Vector.get_eq_getElem]
  rw [Vector.getElem_set]
  by_cases e : i = k.val
  · simp [e]
  · rw [if_neg e, if_neg (Ne.symm e)]

theorem Quad.ext4 {v w : Quad} (h0 : v.get 0 = w.get 0) (h1 : v.get 1 = w.get 1) (h2 : v.get 2 = w.get 2)
    (h3 : v.get 3 = w.get 3) : v = w := by
  have h : ∀ k : Lane, v.get k = w.get k := fun k => by fin_cases k <;> assumption
  exact Vector.ext fun i hi => h ⟨i, hi⟩

/-! ### Reseed (43_prng.md R98) -/

/-- The jitter samples leave the clock and lanes 0 and 1 as `jitterLoop` says, and nothing else. -/
theorem run_jitter (e : Env) (m i : Nat) (k : Act) (s : State) :
    (jitter e.cfg m i k).run e s =
      let j := jitterLoop e s.shared.prng.cnt m i
        (s.shared.clock, s.shared.prng.lanes.get 0, s.shared.prng.lanes.get 1)
      k.run e (s.setShared { s.shared with
        clock := j.1
        prng := { s.shared.prng with lanes := (s.shared.prng.lanes.set 0 j.2.1).set 1 j.2.2 } }) := by
  induction m generalizing i s with
  | zero =>
    have h : (s.shared.prng.lanes.set 0 (s.shared.prng.lanes.get 0)).set 1 (s.shared.prng.lanes.get 1) =
        s.shared.prng.lanes := by apply Quad.ext4 <;> simp [Quad.get_set]
    simp only [jitter, jitterLoop]
    rw [h]
    rfl
  | succ m ih =>
    have h : ∀ (v : Quad) a b c d, (((v.set 0 a).set 1 b).set 0 c).set 1 d = (v.set 0 c).set 1 d := by
      intros; apply Quad.ext4 <;> simp [Quad.get_set]
    simp only [jitter, run_clock, run_readCnt, run_readL, run_writeL, ih, jitterLoop]
    congr 1
    simp [Shared.setPrng, Quad.get_set, h]

/-- What a reseed leaves of what is shared. -/
def reseeded (e : Env) (h : Shared) : Shared :=
  let p := h.prng
  let j := jitterLoop e p.cnt (sampleCount (p.lanes.get 0)) 0 (h.clock, p.lanes.get 0, p.lanes.get 1)
  let l0 := if e.cfg.hasRusage then j.2.1 ^^^ riskyHash e.cfg (snapshot e h.rusageCalls) j.2.1 else j.2.1
  let l1 := j.2.2
  let l2 := p.lanes.get 2 ^^^ (e.cfg.mixNumeral (p.feed.get 0) l0 + e.cfg.mixNumeral (p.feed.get 1) l1)
  let l3 := p.lanes.get 3 ^^^ (e.cfg.mixNumeral (p.feed.get 2) l0 + e.cfg.mixNumeral (p.feed.get 3) l1)
  let g0 := rotl64 (p.feed.get 0) e.cfg.feedRot0
  let g1 := rotl64 (p.feed.get 1) e.cfg.feedRot1
  { prng :=
      { lanes := #v[l0, l1, l2, l3], cnt := p.cnt + BitVec.ofNat 64 (sampleCount (p.lanes.get 0)),
        feed := #v[g0, g1, p.feed.get 2 ^^^ g0, p.feed.get 3 ^^^ g1], fofs := p.fofs }
    mem := h.mem, clock := j.1, rusageCalls := h.rusageCalls + if e.cfg.hasRusage then 1 else 0 }

theorem run_reseed (e : Env) (k : Act) (s : State) :
    (reseed e.cfg k).run e s = k.run e (s.setShared (reseeded e s.shared)) := by
  unfold reseed
  rw [run_readL, run_jitter]
  unfold mixRusage mixFeed reseeded
  by_cases h : e.cfg.hasRusage = true
  · simp only [h, if_true, run_rusage, run_readL, run_writeL, run_readF, run_writeF, run_readCnt, run_writeCnt,
      setShared_shared, setShared_setShared, Shared.setPrng]
    congr 2
    congr 2 <;> (apply Quad.ext4 <;> simp [Quad.get_set])
  · simp only [h, if_false, Bool.false_eq_true, run_readL, run_writeL, run_readF, run_writeF, run_readCnt, run_writeCnt,
      setShared_shared, setShared_setShared, Shared.setPrng]
    congr 2
    congr 2 <;> (apply Quad.ext4 <;> simp [Quad.get_set])

/-- The sample count lies between 16 and 31. -/
theorem sampleCount_bounds (v : Word) : 16 ≤ sampleCount v ∧ sampleCount v ≤ 31 := by
  have h : (v &&& 15).toNat ≤ 15 := by simp; exact Nat.and_le_right
  unfold sampleCount Config.jitterBase
  omega

/-! ### Draw (43_prng.md R94 to R96) -/

/-- The lanes after the lane updates of a draw. -/
def drawnLanes (c : Cfg) (p : Prng) : Quad :=
  #v[laneNext c 0 (p.lanes.get 0) p.cnt, laneNext c 1 (p.lanes.get 1) p.cnt, laneNext c 2 (p.lanes.get 2) p.cnt,
    laneNext c 3 (p.lanes.get 3) p.cnt]

/-- The value of a draw whose lane updates start from `p`. -/
def drawnValue (c : Cfg) (p : Prng) : Word :=
  drawOutput (laneNext c 0 (p.lanes.get 0) p.cnt) (laneNext c 1 (p.lanes.get 1) p.cnt)
    (laneNext c 2 (p.lanes.get 2) p.cnt) (laneNext c 3 (p.lanes.get 3) p.cnt)

/-- What is shared when the lane updates of a draw begin: the counter counted, and the reseed made if it is due. -/
def beforeLanes (e : Env) (h : Shared) : Shared :=
  let g := h.setPrng { h.prng with cnt := h.prng.cnt + 1 }
  if reseedDue (h.prng.cnt + 1) then reseeded e g else g

/-- What a draw leaves of what is shared. -/
def drawn (e : Env) (h : Shared) : Shared :=
  let g := beforeLanes e h
  g.setPrng { g.prng with lanes := drawnLanes e.cfg g.prng }

theorem run_drawLanes (e : Env) (c : Cfg) (k : Word → Act) (s : State) :
    (drawLanes c k).run e s = (k (drawnValue c s.shared.prng)).run e
      (s.setShared (s.shared.setPrng { s.shared.prng with lanes := drawnLanes c s.shared.prng })) := by
  simp only [drawLanes, updateLane, run_readCnt, run_readL, run_writeL, setShared_shared, setShared_setShared,
    Shared.setPrng]
  simp only [Quad.get_set]
  show Act.run e (k (drawnValue c s.shared.prng)) _ = _
  congr 1
  congr 3
  apply Quad.ext4 <;> simp [drawnLanes, Quad.get_set]

theorem run_draw (e : Env) (k : Word → Act) (s : State) :
    (draw e.cfg k).run e s =
      (k (drawnValue e.cfg (beforeLanes e s.shared).prng)).run e (s.setShared (drawn e s.shared)) := by
  unfold draw drawn beforeLanes
  rw [run_readCnt, run_writeCnt]
  split
  · rw [run_reseed, run_drawLanes]; rfl
  · rw [run_drawLanes]; rfl

/-! ### Feed (43_prng.md R100) -/

/-- One word into the feed buffer. -/
def putFeed (o : BitVec 2) (w : Word) (f : Quad) : Quad := f.set (feedLane o) (f.get (feedLane o) ^^^ w)

/-- Words into the feed buffer, from offset `o` on. -/
def putFeeds : List Word → BitVec 2 → Quad → Quad
  | [], _, f => f
  | w :: ws, o, f => putFeeds ws (o + 1) (putFeed o w f)

theorem run_feedWord (e : Env) (w : Word) (o : BitVec 2) (k : BitVec 2 → Act) (s : State) :
    (feedWord w o k).run e s = (k (o + 1)).run e
      (s.setShared (s.shared.setPrng { s.shared.prng with feed := putFeed o w s.shared.prng.feed })) := rfl

theorem putFeeds_append (ws vs : List Word) (o : BitVec 2) (f : Quad) :
    putFeeds (ws ++ vs) o f = putFeeds vs (o + BitVec.ofNat 2 ws.length) (putFeeds ws o f) := by
  induction ws generalizing o f with
  | nil => simp [putFeeds]
  | cons w ws ih =>
    simp only [List.cons_append, putFeeds, ih, List.length_cons]
    rw [Nat.add_comm ws.length 1, BitVec.ofNat_add, ← BitVec.add_assoc]
    rfl

/-- `feedFold` is the words of the buffer put in one after the other. -/
theorem feedFold_eq_putFeeds (bs : List Byte) (o : BitVec 2) (f : Quad) :
    feedFold bs o f = putFeeds ((List.range ((bs.length + 7) / 8)).map (feedPiece bs)) o f := by
  have h : ∀ n b f, (List.range' b n).foldl (fun f m => putFeed (o + BitVec.ofNat 2 m) (feedPiece bs m) f) f =
      putFeeds ((List.range' b n).map (feedPiece bs)) (o + BitVec.ofNat 2 b) f := by
    intro n
    induction n with
    | zero => intros; rfl
    | succ n ih =>
      intro b f
      simp only [List.range'_succ, List.foldl_cons, List.map_cons, putFeeds]
      rw [ih, BitVec.ofNat_add, ← BitVec.add_assoc]
      rfl
  have h0 := h ((bs.length + 7) / 8) 0 f
  simp only [BitVec.add_zero] at h0
  unfold feedFold
  rw [List.range_eq_range', ← h0]
  rfl

end Sys2Proof.Machine
end

