-- ==== Sys2Proof/Laws/Hash.lean ====
section
/-! SUPPORT. What one round and one block of each hash engine do to a lane (41_riskyhash.md R70, R73; 42_stablehash.md R83,
R84): a lane is written by its own round only. -/

namespace Sys2Proof.Machine

/-- One RiskyHash round, lane by lane (41_riskyhash.md R70). -/
theorem riskyRound_get (c : Cfg) (i k : Lane) (w : Word) (v : Quad) :
    (riskyRound c i w v).get k = if k = i then (rotl64 (v.get i + w) 29 + w) * c.riskyP.get i else v.get k := by
  rw [riskyRound, Quad.get_set]
  exact if_congr (by rw [Fin.ext_iff, eq_comm]) rfl rfl

/-- A full RiskyHash block is one round of each lane on its own word (41_riskyhash.md R73). -/
theorem riskyBlock_get (c : Cfg) (bs : List Byte) (v : Quad) (b : Nat) (k : Lane) :
    (riskyBlock c bs v b).get k =
      (rotl64 (v.get k + le64At bs (32 * b + 8 * k.val)) 29 + le64At bs (32 * b + 8 * k.val)) * c.riskyP.get k := by
  simp only [riskyBlock, List.foldl, riskyRound_get]
  fin_cases k <;> simp

/-- One StableHash round, lane by lane (42_stablehash.md R83). -/
theorem stableRound_get (c : Cfg) (ms : Word) (i k : Lane) (w : Word) (v : Quad) :
    (stableRound c ms i w v).get k =
      if k = i then (v.get i + w + (c.stableQ.get i).setWidth 64) * (c.stableQ.get i).setWidth 64 + (rotl64 w 19 + ms)
      else v.get k := by
  rw [stableRound, Quad.get_set]
  exact if_congr (by rw [Fin.ext_iff, eq_comm]) rfl rfl

/-- One word into each lane (42_stablehash.md R84). -/
theorem stableRounds_get (c : Cfg) (ms : Word) (w : Lane → Word) (v : Quad) (k : Lane) :
    (stableRounds c ms w v).get k =
      (v.get k + w k + (c.stableQ.get k).setWidth 64) * (c.stableQ.get k).setWidth 64 + (rotl64 (w k) 19 + ms) := by
  simp only [stableRounds, List.foldl, stableRound_get]
  fin_cases k <;> simp

end Sys2Proof.Machine
end

