-- ==== Sys2Proof/Laws/PerInstr.lean ====
section
/-! SUPPORT. What is said of every command, one lemma per constructor: the word of a command is one of the words its own
row of the opcode table describes (30_encoding.md R57). -/

namespace Sys2Proof.Laws.OwnRow

/-- The encoding lies in the row of the command's mnemonic. -/
def Statement (i : Instr) : Prop := ∃ r ∈ opcodeTable, r.mnemonic = i.mnemonic ∧ r.holds (encode i) = true

/-- A word lies in a row when its bits under the mask are the row's. -/
theorem holds_of_bits (r : OpRow) (w : Cmd) (h : ∀ j < 32, (w.getLsbD j && r.mask.getLsbD j) = r.pattern.getLsbD j) :
    r.holds w = true := by
  unfold OpRow.holds
  rw [beq_iff_eq]
  exact BitVec.eq_of_getLsbD_eq fun j hj => by rw [BitVec.getLsbD_and, h j hj]

theorem mixnum (rd ra rb : RegNo) : Statement (.mixnum rd ra rb) := by
  refine ⟨⟨"MIXNUM", 0x00000010, 0xFFF000FF⟩, by decide, rfl, holds_of_bits _ _ fun j hj => ?_⟩
  rw [encode, assemble_getLsbD _ _ _ _ _ _ _ hj]
  interval_cases j <;> simp

theorem mixptr (rd ra : RegNo) : Statement (.mixptr rd ra) := by
  refine ⟨⟨"MIXPTR", 0x00000011, 0xFFFF00FF⟩, by decide, rfl, holds_of_bits _ _ fun j hj => ?_⟩
  rw [encode, assemble_getLsbD _ _ _ _ _ _ _ hj]
  interval_cases j <;> simp

theorem rhash (rd ra rb rc : RegNo) : Statement (.rhash rd ra rb rc) := by
  refine ⟨⟨"RHASH", 0x00000020, 0xFF0000FF⟩, by decide, rfl, holds_of_bits _ _ fun j hj => ?_⟩
  rw [encode, assemble_getLsbD _ _ _ _ _ _ _ hj]
  interval_cases j <;> simp

theorem shash (rd ra rb rc : RegNo) : Statement (.shash rd ra rb rc) := by
  refine ⟨⟨"SHASH", 0x00000030, 0xFF0000FF⟩, by decide, rfl, holds_of_bits _ _ fun j hj => ?_⟩
  rw [encode, assemble_getLsbD _ _ _ _ _ _ _ hj]
  interval_cases j <;> simp

theorem shash128 (rd re ra rb rc : RegNo) : Statement (.shash128 rd re ra rb rc) := by
  refine ⟨⟨"SHASH128", 0x00000031, 0xF00000FF⟩, by decide, rfl, holds_of_bits _ _ fun j hj => ?_⟩
  rw [encode, assemble_getLsbD _ _ _ _ _ _ _ hj]
  interval_cases j <;> simp

theorem shash128b (re ra rb rc : RegNo) : Statement (.shash128b re ra rb rc) := by
  refine ⟨⟨"SHASH128B", 0x00000032, 0xF0000FFF⟩, by decide, rfl, holds_of_bits _ _ fun j hj => ?_⟩
  rw [encode, assemble_getLsbD _ _ _ _ _ _ _ hj]
  interval_cases j <;> simp

theorem rand64 (rd : RegNo) : Statement (.rand64 rd) := by
  refine ⟨⟨"RAND64", 0x00000040, 0xFFFFF0FF⟩, by decide, rfl, holds_of_bits _ _ fun j hj => ?_⟩
  rw [encode, assemble_getLsbD _ _ _ _ _ _ _ hj]
  interval_cases j <;> simp

theorem randbytes (ra rb : RegNo) : Statement (.randbytes ra rb) := by
  refine ⟨⟨"RANDBYTES", 0x00000041, 0xFFF00FFF⟩, by decide, rfl, holds_of_bits _ _ fun j hj => ?_⟩
  rw [encode, assemble_getLsbD _ _ _ _ _ _ _ hj]
  interval_cases j <;> simp

theorem feed (ra rb : RegNo) : Statement (.feed ra rb) := by
  refine ⟨⟨"FEED", 0x00000042, 0xFFF00FFF⟩, by decide, rfl, holds_of_bits _ _ fun j hj => ?_⟩
  rw [encode, assemble_getLsbD _ _ _ _ _ _ _ hj]
  interval_cases j <;> simp

theorem reseed : Statement .reseed := ⟨⟨"RESEED", 0x00000043, 0xFFFFFFFF⟩, by decide, rfl, by decide⟩

end Sys2Proof.Laws.OwnRow
end

