-- ==== Sys2Proof/Laws/Trace.lean ====
section
/-! SUPPORT. The accesses of a run of byte reads or writes, and of a reseed's and a draw's parts, said once per procedure: what
a procedure's accesses are, followed by those of what comes after it. -/

namespace Sys2Proof.Machine

variable {e : Env} {h : Shared}

/-- Byte reads answer what memory holds, each once and in order (20_memory.md R43). -/
theorem trace_readBytes (n : Nat) (a : Word) (k : List Byte → Act) :
    (readBytes n a k).trace e h =
      ((List.range n).map fun j => .readByte (a + BitVec.ofNat 64 j)) ++ (k (Memory.readRange h.mem a n)).trace e h := by
  induction n generalizing a k with
  | zero => rfl
  | succ n ih =>
    have step (j : Nat) : a + 1 + BitVec.ofNat 64 j = a + BitVec.ofNat 64 (j + 1) := by
      rw [BitVec.add_assoc, Nat.add_comm j 1, BitVec.ofNat_add]
      rfl
    change Access.readByte a :: (readBytes n (a + 1) _).trace e h = _
    rw [ih, List.range_succ_eq_map, List.map_cons, List.map_map]
    simp [Function.comp_def, Memory.readRange, perform, Ans.toByte]
    exact fun j _ => step j

/-- A draw without its reseed reads and counts `S.CNT`, then updates the lanes (43_prng.md R94). -/
theorem trace_draw (c : Cfg) (k : Word → Act) :
    (draw c k).trace e h =
      let n := h.prng.cnt + 1
      let g := h.setPrng { h.prng with cnt := n }
      .readCnt :: .writeCnt n ::
        (if reseedDue n then reseed c (drawLanes c k) else drawLanes c k).trace e g := rfl

/-- The accesses of a check that passes, or none. -/
theorem trace_source_none {s : State} {i : RegNo} {k : Word → Act} (hi : s.port.readReg i = none) :
    (source s i k).trace e h = [] := by
  unfold source
  rw [hi]
  rfl

end Sys2Proof.Machine
end

