-- ==== Sys2Proof/Laws/Values.lean ====
section
/-! SUPPORT. Ports that agree but for stored words that are no values (10_state.md R18): they read alike, and every operation
on a port keeps them so. -/

namespace Sys2Proof.Machine

variable {p q : Port}

theorem Port.AgreeOnValues.refl (p : Port) : p.AgreeOnValues p := ⟨rfl, fun _ _ _ => rfl⟩

/-- All but the stored words is equal. -/
theorem Port.AgreeOnValues.fields (h : p.AgreeOnValues q) :
    q.written = p.written ∧ q.stream = p.stream ∧ q.ci = p.ci ∧ q.status = p.status ∧ q.faultCi = p.faultCi ∧
      q.faultCmd = p.faultCmd ∧ q.faultAddr = p.faultAddr ∧ q.flight = p.flight := by
  rw [h.1]
  exact ⟨rfl, rfl, rfl, rfl, rfl, rfl, rfl, rfl⟩

/-- Every register reads the same, the unwritten ones too. -/
theorem Port.AgreeOnValues.readReg (h : p.AgreeOnValues q) (r : RegNo) : q.readReg r = p.readReg r := by
  unfold Port.readReg
  rw [h.fields.1]
  by_cases h0 : r = 0
  · rw [if_pos h0, if_pos h0]
  · by_cases hw : p.written.get r = true
    · rw [h.2 r h0 hw]
    · rw [if_neg hw, if_neg hw]

theorem Port.AgreeOnValues.fetch (h : p.AgreeOnValues q) : q.fetch = p.fetch := by
  unfold Port.fetch
  rw [h.fields.2.1, h.fields.2.2.1]

theorem Port.AgreeOnValues.writeReg (h : p.AgreeOnValues q) (i : RegNo) (v : Word) :
    (p.writeReg i v).AgreeOnValues (q.writeReg i v) := by
  by_cases hi : i = 0
  · simpa [Port.writeReg, hi] using h
  · constructor
    · unfold Port.writeReg
      rw [if_neg hi, if_neg hi, h.1]
    · intro r hr hw
      unfold Port.writeReg at hw ⊢
      rw [if_neg hi] at hw
      rw [if_neg hi, if_neg hi]
      simp only [Vector.get_eq_getElem, Vector.getElem_set] at hw ⊢
      split
      · rfl
      · next hne =>
        rw [if_neg hne] at hw
        exact h.2 r hr hw

theorem Port.AgreeOnValues.writeRegs (h : p.AgreeOnValues q) (ws : List (RegNo × Word)) :
    (p.writeRegs ws).AgreeOnValues (q.writeRegs ws) := by
  induction ws generalizing p q with
  | nil => exact h
  | cons w ws ih => exact ih (h.writeReg _ _)

/-- Advancing as one record update: only `ci`, `STATUS` and the command in flight change (10_state.md R20). -/
theorem advance_eq (p : Port) : p.advance = { p with
    ci := p.ci + 1, flight := [],
    status := if (p.ci + 1).toNat = p.stream.length then setDone (setBusy p.status false) true else p.status } := by
  simp only [Port.advance]
  split <;> rfl

theorem Port.AgreeOnValues.advance (h : p.AgreeOnValues q) : p.advance.AgreeOnValues q.advance := by
  rw [advance_eq, advance_eq]
  exact ⟨by rw [h.1], h.2⟩

theorem Port.AgreeOnValues.enterFault (h : p.AgreeOnValues q) (c : Cause) (info : Word) :
    (p.enterFault c info).AgreeOnValues (q.enterFault c info) := ⟨by rw [h.1]; rfl, h.2⟩

theorem Port.AgreeOnValues.endStream (h : p.AgreeOnValues q) : p.endStream.AgreeOnValues q.endStream :=
  ⟨by rw [h.1]; rfl, h.2⟩

theorem Port.AgreeOnValues.submit (h : p.AgreeOnValues q) (cs : List Cmd) : (p.submit cs).AgreeOnValues (q.submit cs) :=
  ⟨by rw [h.1]; rfl, h.2⟩

end Sys2Proof.Machine
end

