-- ==== Sys2Proof/Tests/Slice0.lean ====
section
/-! SUPPORT. Tests. Expected values are those of spec/95_test_vectors.md (named in each comment) under its test configuration
TC of section 2.2, or words written out from the field layout of 30_encoding.md R55. The second half gives, for every
statement of Obligations.lean that has hypotheses, a named state and operands that meet them. -/

namespace Sys2Proof.Tests

open Sys2Proof Sys2Proof.Machine

set_option Elab.async false

/-! ### The test configuration TC and small states -/

/-- TC, 95_test_vectors.md section 2.2. -/
def tc : Cfg where
  useStableHashForRiskyHash := false
  riskyIV := #v[0x1111111111111111, 0x2222222222222222, 0x3333333333333333, 0x4444444444444444]
  riskyP := #v[0x9E3779B97F4A7C15, 0xC2B2AE3D27D4EB4F, 0x165667B19E3779F9, 0xD6E8FEB86659FD93]
  riskyFeedEmptyTail := false
  riskyFinal v len seed := v.get 0 ^^^ rotl64 (v.get 1) 16 ^^^ rotl64 (v.get 2) 32 ^^^ rotl64 (v.get 3) 48 ^^^ len ^^^ seed
  mixNumeral n s := rotl64 ((n ^^^ (s ||| 1)) * 0x9E3779B97F4A7C15) 31
  ptrSalt := 0x5A5A5A5A5A5A5A5A
  stableQ := #v[0x9E3779B1, 0x85EBCA77, 0xC2B2AE3D, 0x27D4EB2F]
  stableAval start v K _ _ := (start ^^^ rotl64 (v.get 0 ^^^ v.get 1) 13 ^^^ rotl64 (v.get 2 ^^^ v.get 3) 29) * K
  stableK64 := 0xA0761D6478BD642F
  stableK128A := 0xE7037ED1A0B428DB
  stableK128B := 0x8EBC6AF09C88C6E3
  prngM0 := 0x37701261ED6C16C7
  prngM1 := 0x764DBBB75F3B3E0D
  prngUpdateForm := .literal
  prngInitL := #v[1, 2, 3, 4]
  prngInitF := #v[0, 0, 0, 0]
  feedRot0 := 17
  feedRot1 := 23
  hasRusage := false
  rusageSize := 0

/-- TC with its clock: the `k`-th answer is `1000 + k`. -/
def tcEnv : Env := { cfg := tc, clockAdvance := fun k => if k = 0 then 1000 else 1, rusageByte := fun _ _ => 0 }

/-- The environment of vector T-P5: a snapshot of the bytes 01 02 03 04. -/
def tcRusage : Env :=
  { tcEnv with
    cfg := { tc with hasRusage := true, rusageSize := 4 }
    rusageByte := fun _ j => BitVec.ofNat 8 (j + 1) }

/-- `B[j] = j + 1` (section 2.4). -/
def bytesUpTo (n : Nat) : List Byte := (List.range n).map fun j => BitVec.ofNat 8 (j + 1)

/-- The lengths of property E3. -/
def lengths : List Nat := [0, 1, 7, 8, 15, 16, 23, 24, 31, 32, 33, 63, 64]

/-- Every byte may be read and written. -/
def everything : List Region := [⟨0, 2 ^ 64, true, true⟩]

/-- A one-port block after reset under TC, with registers, admission and a run of bytes the host wrote. -/
def block (regs : List (RegNo × Word)) (admits : List Region) (a : Word) (bs : List Byte) : State :=
  let s := State.resetOf tc
  { s with
    port := Port.reset.writeRegs regs
    shared := { s.shared with mem := Memory.writeRange [] a bs }
    admits := admits }

/-- The same with the stream `cs` submitted. -/
def running (cs : List Cmd) (s : State) : State := s.setPort (s.port.submit cs)

/-- A command run whole under TC. -/
def under (e : Env) (i : Instr) (s : State) : State := (plan e i s).run e s

/-- `STATUS`, `FAULT_CI`, `FAULT_CMD` and `FAULT_ADDR` after a step. -/
def faultSeen : Host.Outcome State Fault Refusal → Option (Word × Word × Word × Word)
  | .next t => some (t.port.status, t.port.faultCi, t.port.faultCmd, t.port.faultAddr)
  | .fault _ | .refused _ => none

/-! ### Decoding, words written out bit by bit from R55: z, re, rc, rb, ra, rd, op -/

theorem test_decode_mixnum : decode 0b0000_0000_0000_0011_0001_1001_00010000 = .ok (.mixnum 9 1 3) := by decide
theorem test_decode_mixptr : decode 0b0000_0000_0000_0000_0001_1001_00010001 = .ok (.mixptr 9 1) := by decide
theorem test_decode_rhash : decode 0b0000_0000_0011_0010_0001_0100_00100000 = .ok (.rhash 4 1 2 3) := by decide
theorem test_decode_shash : decode 0b0000_0000_0000_0010_0001_0101_00110000 = .ok (.shash 5 1 2 0) := by decide
theorem test_decode_shash128 : decode 0b0000_0111_0011_0010_0001_0110_00110001 = .ok (.shash128 6 7 1 2 3) := by decide
theorem test_decode_shash128b : decode 0b0000_1000_0011_0010_0001_0000_00110010 = .ok (.shash128b 8 1 2 3) := by decide
theorem test_decode_rand64 : decode 0b0000_0000_0000_0000_0000_1010_01000000 = .ok (.rand64 10) := by decide
theorem test_decode_randbytes : decode 0b0000_0000_0000_0010_0001_0000_01000001 = .ok (.randbytes 1 2) := by decide
theorem test_decode_feed : decode 0b0000_0000_0000_0010_0001_0000_01000010 = .ok (.feed 1 2) := by decide
theorem test_decode_reseed : decode 0b0000_0000_0000_0000_0000_0000_01000011 = .ok .reseed := by decide

/-- The words section 2.1 calls illegal, each with the kind of R58, and its pseudo-instructions. -/
theorem test_decode_illegal :
    decode 0x00000000 = .error .unknownOp ∧ decode 0x10000010 = .error .reservedBits ∧
    decode 0x00300010 = .error .unusedField ∧ decode 0x01000043 = .error .unusedField ∧
    decode 0x00001040 = .error .unusedField ∧ decode 0x00000132 = .error .unusedField ∧
    decode 0x00000140 = .ok (.rand64 1) ∧ decode 0x00000010 = .ok .nop ∧ decode 0x00021420 = .ok (.rhash0 4 1 2) ∧
    decode 0x00021530 = .ok (.shash0 5 1 2) ∧ decode 0x00000040 = .ok .rskip := by decide

/-- The assembler lines of R61. -/
theorem test_asm : [Instr.rhash 4 1 2 3, .shash128 6 7 1 2 3, .shash128b 8 1 2 3, .rand64 10, .reseed].map Instr.asm =
    ["rhash r4, r1, r2, r3", "shash128 r6, r7, r1, r2, r3", "shash128b r8, r1, r2, r3", "rand64 r10", "reseed"] := by
  decide +kernel

/-! ### Well-formedness refuses -/

theorem test_wf_unknown_op : wordLegal 0x00000000 = false := by decide
theorem test_wf_reserved_bits : wordLegal 0x10000010 = false := by decide
theorem test_wf_unused_field : wordLegal 0x00300010 = false := by decide
theorem test_wf_stream_too_long : streamWf (List.replicate (2 ^ 64) 0x10) = false := by
  rw [streamWf, List.length_replicate, decide_eq_false (Nat.lt_irrefl _)]
theorem test_wf_legal : wordLegal 0x07321631 = true ∧ streamWf [0x07321631] = true := by decide

/-! ### The first instruction after reset -/

/-- Whether an outcome is a next state. -/
def isNext : Host.Outcome State Fault Refusal → Bool
  | .next _ => true
  | .fault _ | .refused _ => false

theorem test_first_instruction : ∀ w ∈ [0x31910, 0x1911, 0x321420, 0x21530, 0x7321631, 0x8321032, 0xA40, 0x21041, 0x21042, 0x43],
    isNext (step (State.reset.withFetchWord 32 w)) = true ∧ (decodeTableWord 32 w).isSome = true := by decide

/-! ### The commands under TC -/

/-- Program P1, ci 4, and the mixing table. -/
theorem test_mixnum : (under tcEnv (.mixnum 9 1 3) (block [(1, 0x100), (3, 0x0123456789ABCDEF)] [] 0 [])).port.readReg 9 =
    some 0x2838C9CDEA8CF71C := by decide +kernel

/-- Section 2.3. -/
theorem test_mixptr : (under tcEnv (.mixptr 9 1) (block [(1, 0x1000)] [] 0 [])).port.readReg 9 =
    some 0x645D16BB9D07EA76 := by decide +kernel

/-- The state of program P1. -/
def p1 : State :=
  block [(1, 0x100), (2, 5), (3, 0x0123456789ABCDEF), (8, 0x2000)] [⟨0x100, 0x100, true, false⟩, ⟨0x2000, 16, true, true⟩]
    0x100 [1, 2, 3, 4, 5]

/-- Program P1, ci 0. -/
theorem test_rhash : (under tcEnv (.rhash 4 1 2 3) p1).port.readReg 4 = some 0x4DB6371FC4F693C5 := by decide +kernel

/-- Table T-R, seed 0, and its variant that feeds the empty tail. -/
theorem test_risky_lengths : lengths.map (fun n => riskyHash tc (bytesUpTo n) 0) =
    [0x4444444444444444, 0x0FD8C46AE646958B, 0xF02BDB41912F0FCD, 0xA4FB2231124F0FC2, 0x59B151F19E3F50A3, 0x5CDCBBD19E3FBE11,
      0x7486AD882402F32B, 0x3566AD88D54EC9D7, 0x8DDD5F52D5118154, 0x8DDDC9679E50328B, 0x45146D47D75C2004,
      0x9842132D52718BF9, 0x984289228DB1D9E6] ∧
    [0, 8, 32].map (fun n => riskyHash { tc with riskyFeedEmptyTail := true } (bytesUpTo n) 0) =
      [0x15698BE1447C119F, 0x7D10EF184C912424, 0x268E47375B962148] := by decide +kernel

/-- Program P1, ci 1. -/
theorem test_shash : (under tcEnv (.shash 5 1 2 0) p1).port.readReg 5 = some 0x3C6353354871237F := by decide +kernel

/-- Table T-S, seed 1. -/
theorem test_stable_lengths : lengths.map (fun n => stableHash tc (bytesUpTo n) 1) =
    [0xA54064BAFE567C9B, 0x62A57DB53DCE1440, 0x0E6C18D8D063891C, 0xD06FA7F9961A5920, 0xD819FDB6A3B05E9E, 0x4B3C1816AD019B48,
      0x52963E5C6C1D291E, 0x9EA43C2A705FDD11, 0xB5A474F10FCFBC02, 0x25F0BB177F7360C5, 0xDD0F45E1B39155A3,
      0x8DB4BBDAE7F0B39F, 0xDFA1678246B2D69B] := by decide +kernel

/-- Program P1, ci 2; with `rd = re` the register holds `h1` (R92). -/
theorem test_shash128 :
    ([6, 7].map (under tcEnv (.shash128 6 7 1 2 3) p1).port.readReg =
      [some 0x8584DF74E5BD6FE0, some 0x56ACD343C6A771CA]) ∧
    (under tcEnv (.shash128 6 6 1 2 3) p1).port.readReg 6 = some 0x56ACD343C6A771CA := by decide +kernel

/-- Program P1, ci 3. -/
theorem test_shash128b : Memory.readRange (under tcEnv (.shash128b 8 1 2 3) p1).shared.mem 0x2000 16 =
    [0xe0, 0x6f, 0xbd, 0xe5, 0x74, 0xdf, 0x84, 0x85, 0xca, 0x71, 0xa7, 0xc6, 0x43, 0xd3, 0xac, 0x56] := by decide +kernel

/-- T-P1, also with `ADD_FIRST`. -/
theorem test_rand64 :
    (under tcEnv (.rand64 10) (State.resetOf tc)).port.readReg 10 = some 0xE74AAAAF340B7E08 ∧
    (under { tcEnv with cfg := { tc with prngUpdateForm := .addFirst } } (.rand64 10) (State.resetOf tc)).port.readReg 10 =
      some 0x2852256381D6B8B6 := by decide +kernel

/-- T-P6: the counter wraps, the draw reseeds. -/
theorem test_rand64_wrap :
    let s := State.resetOf tc
    let t := under tcEnv (.rand64 10)
      (s.setShared (s.shared.setPrng { s.shared.prng with cnt := 0xFFFFFFFFFFFFFFFF }))
    t.port.readReg 10 = some 0x2D4C1DDE7F959519 ∧ t.shared.prng.cnt = 17 := by decide +kernel

/-- Program P3, ci 0. -/
theorem test_randbytes :
    let t := under tcEnv (.randbytes 1 2) (block [(1, 0x300), (2, 40)] [⟨0x300, 40, true, true⟩] 0 [])
    Memory.readRange t.shared.mem 0x300 42 =
      [0x08, 0x7e, 0x0b, 0x34, 0xaf, 0xaa, 0x4a, 0xe7, 0x14, 0x4a, 0x88, 0xaa, 0x10, 0x03, 0xe8, 0x03, 0x8e, 0x2e, 0x26, 0xba, 0x3f,
        0x87, 0x30, 0x13, 0xd2, 0xda, 0x02, 0x72, 0x1d, 0x91, 0xd0, 0xdb, 0xea, 0x1c, 0xe0, 0xd5, 0x4d, 0x57, 0xdb, 0x10, 0, 0] ∧
    t.shared.prng.cnt = 8 := by decide +kernel

/-- The state of program P2 after ci 0. -/
def p2 : State := under tcEnv (.feed 1 2) (block [(1, 0x400), (2, 20)] [⟨0x400, 20, true, false⟩] 0x400 (bytesUpTo 20))

/-- Program P2, ci 0. -/
theorem test_feed : p2.shared.prng.feed = #v[0x0807060504030201, 0x100F0E0D0C0B0A09, 0x0000000014131211, 0] ∧
    p2.shared.prng.fofs = 3 := by decide +kernel

/-- V-FD5: from offset 3 the one piece goes into lane 3, and the offset wraps to 0. -/
theorem test_feed_wraps :
    let s := block [(1, 0x400), (2, 8)] everything 0x400 (bytesUpTo 8)
    let t := under tcEnv (.feed 1 2) (s.setShared (s.shared.setPrng { s.shared.prng with fofs := 3 }))
    t.shared.prng.feed = #v[0, 0, 0, 0x0807060504030201] ∧ t.shared.prng.fofs = 0 := by decide +kernel

/-- Program P2, ci 1. -/
theorem test_reseed :
    let t := under tcEnv .reseed p2
    t.shared.prng.lanes = #v[0x137548079C1678D6, 0x9F03C71AA2EFBECF, 0x9456BBE6A81EB299, 0x1B294A9D35A42767] ∧
    t.shared.prng.feed = #v[0x0C0A08060402100E, 0x0686058504880787, 0x0C0A08061011021F, 0x0686058504880787] ∧
    t.shared.prng.cnt = 17 ∧ t.shared.clock = { last := 1016, calls := 17 } := by decide +kernel

/-- T-P5: with a resource-usage snapshot. -/
theorem test_reseed_rusage :
    let t := under tcRusage .reseed (State.resetOf tcRusage.cfg)
    t.shared.prng.lanes = #v[0xECE12E960E746B51, 0x9F03C71AA2EFBECF, 0x8F6F7A50B204A331, 0x8F6F7A50B204A336] ∧
    t.shared.prng.cnt = 17 ∧ t.shared.rusageCalls = 1 := by decide +kernel

/-! ### Faults and the end of a stream -/

/-- V-F1 (with the frame of program P4) and V-F7. -/
theorem test_null_buffer :
    faultSeen (step (running [0x00321420] (block [(1, 0), (2, 5), (3, 0)] [] 0 []))) = some (0x304, 0, 0x00321420, 0) ∧
    faultSeen (step (running [0x08321032] (block [(1, 0x100), (2, 5), (3, 0), (8, 0)] [] 0 []))) =
      some (0x304, 0, 0x08321032, 0) := by decide +kernel

/-- V-F3 and V-F4. -/
theorem test_undef_reg :
    faultSeen (step (running [0x00031910] (block [(1, 5)] [] 0 []))) = some (0x204, 0, 0x00031910, 3) ∧
    faultSeen (step (running [0x00321420] (block [] [] 0 []))) = some (0x204, 0, 0x00321420, 1) := by decide +kernel

/-- V-F5 and V-F6. -/
theorem test_mem_fault :
    faultSeen (step (running [0x00321420] (block [(1, 0x100), (2, 5), (3, 0)] [⟨0x100, 4, true, false⟩] 0 []))) =
      some (0x404, 0, 0x00321420, 0x104) ∧
    faultSeen (step (running [0x00321420] (block [(1, 0xFFFFFFFFFFFFFFFC), (2, 8), (3, 0)] everything 0 []))) =
      some (0x404, 0, 0x00321420, 0) := by decide +kernel

/-- V-F8 (program P4d). -/
theorem test_illegal_cmd : faultSeen (step (running [0] (block [] [] 0 []))) = some (0x104, 0, 0, 0) := by decide +kernel

/-- V-F9 and R126: FEED of a masked length 0 at address 0 completes and, as the last command, ends the stream. -/
theorem test_feed_nothing :
    faultSeen (step (running [0x00021042] (block [(1, 0), (2, 1024)] [] 0 []))) = some (2, 0, 0, 0) := by decide +kernel

/-- V-F10. -/
theorem test_randbytes_null : faultSeen (step (running [0x00021041] (block [(1, 0), (2, 1)] [] 0 []))) =
    some (0x304, 0, 0x00021041, 0) := by decide +kernel

/-- 10_state.md R25 for TC: one port, both toggles off. -/
theorem test_cfg : cfgRegister tc = 0x100 := by decide

/-! ### Witnesses: states and operands that meet the hypotheses of each statement -/

/-- A block whose registers are written and whose buffers are admitted, with one command word in its stream. -/
def ready : State :=
  running [0x00321420] (block [(1, 0x100), (2, 5), (3, 7), (8, 0x2000)] everything 0x100 [1, 2, 3, 4, 5])

/-- The same with effective length 0 at the null address. -/
def readyEmpty : State := block [(1, 0), (2, 0), (3, 7), (8, 0x2000)] everything 0 []

theorem ready_regs : ready.port.readReg 1 = some 0x100 ∧ ready.port.readReg 2 = some 5 ∧ ready.port.readReg 3 = some 7 ∧
    ready.port.readReg 8 = some 0x2000 := by decide

/-- Whether every byte of a short range is granted, evaluated. -/
theorem admit_of {admits : List Region} {k : AccessKind} {a : Word} {n : Nat}
    (h : decide (a.toNat + n ≤ 2 ^ 64 ∧ ∀ j < n, okByte admits k (a.toNat + j) = true) = true) : Admit admits k a n :=
  of_decide_eq_true (p := a.toNat + n ≤ 2 ^ 64 ∧ ∀ j < n, okByte admits k (a.toNat + j) = true) h

theorem ready_usable (k : AccessKind) : Usable ready k 0x100 5 :=
  ⟨by decide, admit_of (by cases k <;> decide)⟩

theorem readyEmpty_usable (k : AccessKind) : Usable readyEmpty k 0 0 := ⟨by decide, admit_of (by cases k <;> decide)⟩

theorem ready_target : Admit ready.admits .write 0x2000 16 := admit_of (by decide)

/-- EncodeUndoesDecode, DecodesExactlyTheTable. -/
theorem witness_decode : decode 0x0F765431 = .ok (.shash128 4 15 5 6 7) := by decide

/-- IllegalWordRaisesIllegalCmd, for each kind of illegal word. -/
theorem witness_IllegalWord : ∀ w ∈ [(0 : Cmd), 0x44, 0x80000043, 0x01000010],
    statusBusy (running [w] ready).port.status = true ∧ (running [w] ready).port.fetch = some w ∧ wordLegal w = false := by
  intro w h
  fin_cases h <;> decide

/-- StepRunsTheDecodedCommand, AccessesMakeTheStep. -/
theorem witness_StepRuns : statusBusy ready.port.status = true ∧ ready.port.flight = [] ∧
    ready.port.fetch = some 0x00321420 ∧ decode 0x00321420 = .ok (.rhash 4 1 2 3) := by decide

/-- IdlePortExecutesNothing; SubmittedCommandRuns; HostMoves (the state, and a memory move of the last byte). -/
theorem witness_Idle : statusBusy State.reset.port.status = false ∧ statusFault State.reset.port.status = false ∧
    State.reset.ports[0]? = some Port.reset ∧ 0 < State.reset.ports.length ∧
    (BitVec.allOnes 64).toNat + [(7 : Byte)].length ≤ 2 ^ 64 ∧ (BitVec.allOnes 64).toNat + 1 ≤ 2 ^ 64 :=
  ⟨by decide, by decide, rfl, Nat.zero_lt_succ _, by decide, by decide⟩

/-- StreamEndsWithItsLastCommand: a last command, one that is not, an empty stream, an idle port. -/
theorem witness_StreamEnds :
    (∃ t, exec .nop (running [0x10] ready) = .next t ∧ t.port.ci = 0 + 1 ∧ t.port.ci.toNat = [(0x10 : Cmd)].length) ∧
    (∃ t, exec .nop (running [0x10, 0x10] ready) = .next t ∧ t.port.ci = 0 + 1 ∧
      t.port.ci.toNat ≠ [(0x10 : Cmd), 0x10].length) ∧
    (statusBusy (running [] ready).port.status = true ∧ (running [] ready).port.stream = [] ∧
      (running [] ready).port.ci = 0) ∧
    (State.reset.ports[0]? = some Port.reset ∧ statusBusy Port.reset.status = false ∧
      statusFault Port.reset.status = false ∧ streamWf [0x10] = true) :=
  ⟨⟨_, rfl, rfl, rfl⟩, ⟨_, rfl, rfl, by decide⟩, by decide, rfl, by decide⟩

theorem resetPort_inv : Port.reset.Inv where
  legal := by decide
  length := by decide
  index := by decide
  running h := absurd h (by decide)
  ended h := absurd h (by decide)
  inFlight h := absurd rfl h
  faulted h := absurd h (by decide)
  unfaulted _ := ⟨rfl, rfl, rfl⟩

/-- The block after reset with `reseed` submitted to its first port. -/
def reseeding : State := State.reset.withFetchWord 32 0x43

/-- NoPortIsEverStuck, StepKeepsTheInvariant, EventsKeepTheInvariant. -/
theorem witness_inv : reseeding.Inv ∧ (∃ t, step reseeding = .next t) ∧
    ∃ t, Event.apply (.host (.submit 0 [0x40])) State.reset = some t := by
  refine ⟨?_, ⟨_, rfl⟩, ⟨_, rfl⟩⟩
  refine { ports := fun p hp => ?_, count := ?_, memory := Memory.wf_nil }
  · rcases List.mem_cons.1 hp with rfl | hp
    · exact { legal := by decide, length := by decide, index := by decide, running := fun _ => .inl (by decide),
              ended := fun h => absurd h (by decide), inFlight := fun h => absurd rfl h,
              faulted := fun h => absurd h (by decide), unfaulted := fun _ => ⟨rfl, rfl, rfl⟩ }
    · rw [List.eq_of_mem_replicate hp]
      exact resetPort_inv
  · have h := Config.cfg.nports_pos
    simp [reseeding, State.withFetchWord, State.ports, State.reset, State.resetOf]
    omega

/-- FirstUnwrittenSourceRaisesUndefReg: the last of three sources, and r0 before it. -/
theorem witness_UndefReg :
    let s := block [(1, 0), (2, 5)] [] 0 []
    sources (.rhash 4 1 0 3) = [1, 0] ++ 3 :: [] ∧ (∀ q ∈ [(1 : RegNo), 0], s.port.readReg q ≠ none) ∧
      s.port.readReg 3 = none := by decide

/-- NullBufferRaisesNullBuffer, clause by clause: the shortest buffer, the longest masked length, a null target, and a length 0
with which the command faults for another cause. -/
theorem witness_NullBuffer :
    (let s := block [(2, 1), (3, 7), (8, 9)] [] 0 []
     s.port.readReg 0 = some 0 ∧ s.port.readReg 2 = some 1 ∧ 0 < (1 : Word).toNat ∧ s.port.readReg 3 = some 7 ∧
       s.port.readReg 8 = some 9 ∧ 0 < ((1 : Word) &&& 1023).toNat) ∧
    0 < ((2047 : Word) &&& 1023).toNat ∧
    (let s := block [(1, 0x100), (2, 0), (3, 7)] [] 0 []
     s.port.readReg 1 = some 0x100 ∧ s.port.readReg 2 = some 0 ∧ s.port.readReg 3 = some 7 ∧ s.port.readReg 0 = some 0) ∧
    (let s := block [(2, 1024)] [] 0 []
     statusFault s.port.status = false ∧ s.port.readReg 2 = some 1024 ∧ (1024 : Word) &&& 1023 = 0 ∧
       (∀ d, s.port.readReg 8 = some d → d ≠ 0) ∧
       ∃ t, exec (.feed 1 2) s = .next t ∧ statusFault t.port.status = true) := by
  refine ⟨by decide, by decide, by decide, by decide, by decide, by decide, ?_, ⟨_, rfl, by decide⟩⟩
  intro d h
  exact absurd (h.symm.trans (show _ = none by decide)) (by simp)

/-- RejectedRangeRaisesMemFault: a rejected byte inside a range, and a range that only wraps, for reading and writing; a usable
source with a rejected target; a masked length. -/
theorem witness_RejectedRange :
    (∀ k, FirstRejected [⟨0x100, 4, true, true⟩] k 0x100 5 0x104) ∧
    (∀ k, FirstRejected everything k 0xFFFFFFFFFFFFFFFC 8 0) ∧
    (Admit [⟨0x100, 5, true, false⟩] .read 0x100 5 ∧ FirstRejected [⟨0x100, 5, true, false⟩] .write 0x2000 16 0x2000) ∧
    FirstRejected [] .read 0x100 ((1025 : Word) &&& 1023).toNat 0x100 := by
  refine ⟨fun k => .inl ⟨4, ?_⟩, fun k => .inr ?_, ⟨admit_of (by decide), .inl ⟨0, ?_⟩⟩, .inl ⟨0, ?_⟩⟩
  · cases k <;> decide
  · cases k <;> decide
  · decide
  · decide

/-- AdmissionCheckIsTheSpecs, ClockNeverGoesBack, PortsArePrivate: events of every kind that have a step. -/
theorem witness_Events : ∀ ev ∈ [Event.command 0, .access 0, .host .reset, .host (.writeReg 0 15 1),
    .host (.memWrite 0xFFFFFFFFFFFFFFFF [1])], (ev.apply State.reset).isSome = true := by
  intro ev h
  fin_cases h <;> rfl

/-- FaultsArePrecise. -/
theorem witness_FaultsArePrecise : ∃ t, exec (.feed 1 2) State.reset = .next t ∧
    statusFault State.reset.port.status = false ∧ statusFault t.port.status = true := ⟨_, rfl, by decide, by decide⟩

/-- FaultStaysUntilReset: a halted port, and an event on it that is not `Reset()`. -/
theorem witness_FaultStays :
    let s := enterFault .illegalCmd 0 (running [0] ready)
    s.ports[0]? = some s.port ∧ statusFault s.port.status = true ∧ statusBusy s.port.status = false ∧
      ∃ t, Event.apply (.command 0) s = some t := ⟨rfl, by decide, by decide, _, rfl⟩

/-- The results of the mixing and hash commands, FEED and RANDBYTES; BytesAccessedOnceInOrder, HashIsOfTheBytesRead: operands
that are readable and a buffer that is usable, and the empty buffer at the null address. -/
theorem witness_Results :
    (ready.port.readReg 1 = some 0x100 ∧ ready.port.readReg 2 = some 5 ∧ ready.port.readReg 3 = some 7 ∧
      ready.port.readReg 8 = some 0x2000 ∧ (0x2000 : Word) ≠ 0 ∧ Usable ready .read 0x100 (5 : Word).toNat ∧
      Usable ready .read 0x100 ((5 : Word) &&& 1023).toNat ∧ Usable ready .write 0x100 (5 : Word).toNat ∧
      Admit ready.admits .write 0x2000 16 ∧ (bytesUpTo 5).length = (5 : Word).toNat) ∧
    (readyEmpty.port.readReg 1 = some 0 ∧ readyEmpty.port.readReg 2 = some 0 ∧
      Usable readyEmpty .read 0 (0 : Word).toNat ∧ Usable readyEmpty .write 0 (0 : Word).toNat ∧
      Usable readyEmpty .read 0 ((1024 : Word) &&& 1023).toNat) :=
  ⟨⟨by decide, by decide, by decide, by decide, by decide, ready_usable _, ready_usable _, ready_usable _, ready_target,
    by decide⟩, by decide, by decide, readyEmpty_usable _, readyEmpty_usable _, readyEmpty_usable _⟩

/-- RiskySeedInjection, RotateLeft, PackingIsLittleEndian, CfgRegisterBits: both ends of each range. -/
theorem witness_ranges : (0 : Word) = 0 ∧ (1 : Word) ≠ 0 ∧ 64 % 64 = 0 ∧ 65 % 64 ≠ 0 ∧ 63 % 64 ≠ 0 ∧ (bytesUpTo 8).length ≤ 8 ∧
    (2 ≤ 2 ∧ 2 < 8) ∧ (2 ≤ 7 ∧ 7 < 8) ∧ 16 ≤ 16 ∧ 16 ≤ 63 := by decide

/-- RiskyLanesAreIndependent: a change in lane 1's bytes of a block, and one in the tail byte, which goes to lane 0. -/
theorem witness_RiskyLanes :
    (((bytesUpTo 33).set 15 0).length = (bytesUpTo 33).length ∧
      ∀ o, o % 32 / 8 ≠ 1 → (bytesUpTo 33).getD o 0 = ((bytesUpTo 33).set 15 0).getD o 0) ∧
    (((bytesUpTo 33).set 32 0).length = (bytesUpTo 33).length ∧
      ∀ o, o % 32 / 8 ≠ 0 → (bytesUpTo 33).getD o 0 = ((bytesUpTo 33).set 32 0).getD o 0) := by
  have key : ∀ (bs : List Byte) (i o : Nat), o ≠ i → bs.getD o 0 = (bs.set i 0).getD o 0 := by
    intro bs i o h
    rw [List.getD_eq_getElem?_getD, List.getD_eq_getElem?_getD, List.getElem?_set_ne (Ne.symm h)]
  exact ⟨⟨by simp, fun o h => key _ _ _ (by rintro rfl; exact h rfl)⟩, by simp,
    fun o h => key _ _ _ (by rintro rfl; exact h rfl)⟩

/-- RiskyHashOfShortBuffer: the shortest and the longest short buffer. -/
theorem witness_RiskyShort : tc.useStableHashForRiskyHash = false ∧
    (1 ≤ (bytesUpTo 1).length ∧ (bytesUpTo 1).length ≤ 7) ∧ (1 ≤ (bytesUpTo 7).length ∧ (bytesUpTo 7).length ≤ 7) := by decide

/-- CommandsAreBounded: a written length register, at both ends of the range of lengths. -/
theorem witness_Bounds : ∀ n ∈ [(0 : Word), 0xFFFFFFFFFFFFFFFF], (block [(2, n)] [] 0 []).port.readReg 2 = some n := by
  intro n h
  fin_cases h <;> decide

/-- StableHashIsFrozen: two configurations that differ in the redirect, a finaliser and the generator. -/
theorem witness_Frozen :
    let d := { tc with useStableHashForRiskyHash := true, ptrSalt := 0, riskyFinal := fun _ _ _ => 0, prngInitL := #v[0, 0, 0, 0] }
    tc.stableQ = d.stableQ ∧ tc.stableAval = d.stableAval ∧ tc.stableK64 = d.stableK64 ∧ tc.stableK128A = d.stableK128A ∧
      tc.stableK128B = d.stableK128B ∧ tc.useStableHashForRiskyHash ≠ d.useStableHashForRiskyHash :=
  ⟨rfl, rfl, rfl, rfl, rfl, by decide⟩

/-- LaneUpdateFormulas: a configuration of each form. -/
theorem witness_LaneForms : tc.prngUpdateForm = .literal ∧ { tc with prngUpdateForm := .addFirst }.prngUpdateForm = .addFirst :=
  ⟨rfl, rfl⟩

/-- A block with its draw counter at `c`. -/
def counted (c : Word) : State :=
  ready.setShared (ready.shared.setPrng { ready.shared.prng with cnt := c })

/-- Rand64Result, Rand64ReseedsWhenDue, ReseedCadence, PrngAccessOrder: the last counters before a reseed and after one, the first
multiple of 4096, and the wrap to 0. -/
theorem witness_counters :
    ((counted 0).shared.prng.cnt + 1).toNat % 4096 ≠ 0 ∧ ((counted 4094).shared.prng.cnt + 1).toNat % 4096 ≠ 0 ∧
    ((counted 4095).shared.prng.cnt + 1).toNat % 4096 = 0 ∧ ((counted 4096).shared.prng.cnt + 1).toNat % 4096 ≠ 0 ∧
    ((counted 0xFFFFFFFFFFFFFFFF).shared.prng.cnt + 1).toNat % 4096 = 0 ∧
    0 < 4096 - (counted 4095).shared.prng.cnt.toNat % 4096 ∧ 4095 < 4096 - (counted 0).shared.prng.cnt.toNat % 4096 := by
  decide +kernel

/-- Rand64ReseedsWhenDue, ReseedSampleCount, ReseedIsNotIdempotent, PrngAccessOrder: a reseed answers a next state, twice. -/
theorem witness_Reseeds : ∀ s, ∃ t u, exec .reseed s = .next t ∧ exec .reseed t = .next u := fun _ => ⟨_, _, rfl, rfl⟩

/-- FeedTruncatesByMask: the lengths of property E7. -/
theorem witness_FeedTruncates : (1 : RegNo) ≠ 2 ∧ (2000 : Word) &&& 1023 = 976 &&& 1023 ∧
    (1024 : Word) &&& 1023 = 0 &&& 1023 ∧
    ∀ v, ∃ t, exec (.feed 1 2) (ready.setPort (ready.port.writeReg 2 v)) = .next t :=
  ⟨by decide, by decide, by decide, fun _ => ⟨_, rfl⟩⟩

/-- RegistersAreWrittenLast: the first access of a reseed. -/
theorem witness_WrittenLast : reseeding.port.fetch ≠ none ∧
    ∃ t, accessStep reseeding = .next t ∧ t.port.flight ≠ [] := ⟨by decide, _, rfl, List.cons_ne_nil _ _⟩

/-- AccessesMakeTheStep, inside a command in flight. -/
theorem witness_Flight : ∃ t, accessStep reseeding = .next t ∧ statusBusy t.port.status = true ∧ t.port.fetch ≠ none ∧
    t.port.flight ≠ [] := ⟨_, rfl, by decide, by decide, List.cons_ne_nil _ _⟩

/-- RacingPortsDrawTheSame, PortsArePrivate: a block of two ports. -/
theorem witness_TwoPorts :
    let s := { State.resetOf tc with after := [Port.reset] }
    s.before = [] ∧ (∃ q, s.after = [q] ∧ statusBusy q.status = false ∧ statusFault q.status = false) ∧
      statusBusy s.port.status = false ∧ statusFault s.port.status = false ∧
      (s.shared.prng.cnt + 1).toNat % 4096 ≠ 0 ∧ (1 : Nat) ≠ 0 ∧ (∃ t, Event.apply (.command 0) s = some t) ∧
      ∃ t, Event.apply (.access 1) s = some t :=
  ⟨rfl, ⟨_, rfl, by decide, by decide⟩, by decide, by decide, by decide, by decide, ⟨_, rfl⟩, _, rfl⟩

/-- UnwrittenRegisterHasNoValue: another stored word in r0 and in an unwritten register of a running port, and a step, an access
and an event of it. -/
theorem witness_Unwritten :
    let q := { ready.port with regs := (ready.port.regs.set 15 99).set 0 99 }
    ready.port.AgreeOnValues q ∧ ready.ports[0]? = some ready.port ∧ (∃ t, step ready = .next t) ∧
      (∃ t, accessStep ready = .next t) ∧ ∃ t, Event.apply (.command 0) ready = some t := by
  refine ⟨⟨rfl, fun r => ?_⟩, rfl, ⟨_, rfl⟩, ⟨_, rfl⟩, _, rfl⟩
  fin_cases r <;> decide

/-- UnwrittenRegisterHasNoValue, the host's moves: it reads the register that holds another word, and gets no value. -/
theorem witness_UnwrittenHost :
    readyEmpty.ports[0]? = some readyEmpty.port ∧
      readyEmpty.port.AgreeOnValues { readyEmpty.port with regs := readyEmpty.port.regs.set 15 99 } ∧
      ∃ t, hostMove Config.env readyEmpty (.readReg 0 15) = some (.noValue, t) := by
  refine ⟨rfl, ⟨rfl, fun r => ?_⟩, _, rfl⟩
  fin_cases r <;> decide

/-- ClockNeverGoesBack: a clock access, at its last value too. -/
theorem witness_Clock : ∀ h : Shared, ∃ v h', perform Config.env h .clock = (v, h') := fun _ => ⟨_, _, rfl⟩

end Sys2Proof.Tests
end

/-! The state and its agents (10_state.md): the moves of the ports and of the host, the invariant, the values of registers, a
command and its accesses, and the word accesses of the PRNG procedures. -/

namespace Sys2Proof.Machine

/-! ### The word of a command -/

/-- The decoder reads back the word of a command (30_encoding.md R57, R61). -/
theorem decode_encode (i : Instr) : decode (encode i) = .ok i := by
  cases i <;> simp [encode, decode, accept, assemble_fields]

/-! ### States by their ports -/

/-- A state is its ports, which of them moves, what is shared, and the admission. -/
theorem state_eq_of_ports {s t : State} (hp : t.ports = s.ports) (hb : t.before.length = s.before.length)
    (hs : t.shared = s.shared) (ha : t.admits = s.admits) : t = s := by
  obtain ⟨hbefore, hrest⟩ := List.append_inj hp hb
  obtain ⟨hport, hafter⟩ := List.cons.inj hrest
  cases s
  cases t
  simp_all

/-- `focus` finds the state with the same ports of which port `n` moves. -/
theorem focus_eq_some_iff {s t : State} {n : Nat} :
    s.focus n = some t ↔
      t.ports = s.ports ∧ t.before.length = n ∧ t.shared = s.shared ∧ t.admits = s.admits := by
  constructor
  · intro h
    obtain ⟨ha, hs, hp, hb⟩ := focus_frame h
    exact ⟨hp, hb, hs, ha⟩
  · rintro ⟨hp, hb, hs, ha⟩
    have hdrop : s.ports.drop n = t.port :: t.after := by rw [← hp, State.ports, ← hb, List.drop_left]
    have htake : s.ports.take n = t.before := by rw [← hp, State.ports, ← hb, List.take_left]
    simp only [State.focus, hdrop, htake, ← hs, ← ha]

@[simp] theorem replacePort_before_length (s : State) (n : Nat) (p : Port) :
    (s.replacePort n p).before.length = s.before.length := by
  unfold State.replacePort
  split <;> [simp; split <;> rfl]

/-- The port that moves, by its number. -/
@[simp] theorem ports_getElem?_before_length (s : State) : s.ports[s.before.length]? = some s.port := by
  simp [State.ports]

@[simp] theorem setPort_ports (s : State) (p : Port) : (s.setPort p).ports = s.ports.set s.before.length p :=
  ports_of_frame rfl rfl

@[simp] theorem setShared_ports (s : State) (h : Shared) : (s.setShared h).ports = s.ports := rfl

/-- Replacing the port that moves. -/
theorem replacePort_before_length_eq_setPort (s : State) (p : Port) :
    s.replacePort s.before.length p = s.setPort p :=
  state_eq_of_ports (by rw [replacePort_ports, setPort_ports]) (by simp) (by simp) (by simp)

theorem replacePort_setShared (s : State) (n : Nat) (p : Port) (h : Shared) :
    (s.replacePort n p).setShared h = (s.setShared h).replacePort n p :=
  state_eq_of_ports (by simp [replacePort_ports]) (by simp) (by simp) (by simp)

/-- Of two replacements of one port the later stands. -/
theorem replacePort_replacePort_same (s : State) (n : Nat) (p q : Port) :
    (s.replacePort n p).replacePort n q = s.replacePort n q :=
  state_eq_of_ports (by simp [replacePort_ports]) (by simp) (by simp) (by simp)

theorem replacePort_comm (s : State) {n m : Nat} (h : n ≠ m) (p q : Port) :
    (s.replacePort n p).replacePort m q = (s.replacePort m q).replacePort n p :=
  state_eq_of_ports (by simp [replacePort_ports, List.set_comm _ _ h]) (by simp) (by simp) (by simp)

/-- Replacing a port by itself. -/
theorem replacePort_self {s : State} {n : Nat} {p : Port} (h : s.ports[n]? = some p) : s.replacePort n p = s := by
  obtain ⟨hn, rfl⟩ := List.getElem?_eq_some_iff.1 h
  exact state_eq_of_ports (by simp [replacePort_ports]) (by simp) (by simp) (by simp)

/-- A port reads back after it is replaced. -/
theorem replacePort_getElem?_same {s : State} {n : Nat} {p : Port} (h : s.ports[n]? = some p) (q : Port) :
    (s.replacePort n q).ports[n]? = some q := by
  obtain ⟨hn, _⟩ := List.getElem?_eq_some_iff.1 h
  simp [replacePort_ports, hn]

/-- Replacing another port leaves the one that moves. -/
theorem replacePort_port {s : State} {n : Nat} (h : n ≠ s.before.length) (p : Port) :
    (s.replacePort n p).port = s.port := by
  have hs := ports_getElem?_before_length (s.replacePort n p)
  rw [replacePort_ports, replacePort_before_length, List.getElem?_set_ne h, ports_getElem?_before_length] at hs
  exact (Option.some.inj hs).symm

theorem replacePort_setPort {s : State} {n : Nat} (h : n ≠ s.before.length) (p q : Port) :
    (s.replacePort n p).setPort q = (s.setPort q).replacePort n p :=
  state_eq_of_ports (by simp [replacePort_ports, List.set_comm _ _ h]) (by simp) (by simp) (by simp)

/-! ### One move of a port, by a whole command or by one access -/

/-- One access of what is left of a command, or its completion or fault when no access is left. -/
def Act.once (e : Env) : Act → State → State
  | .complete ws, s => retire ws s
  | .raise c info, s => enterFault c info s
  | .access q _, s => (s.setShared (perform e s.shared q).2).setPort
      { s.port with flight := s.port.flight ++ [(perform e s.shared q).1] }

/-- A move of the port that moves, where `f` says how it makes what is left of its command: `step` makes all of it,
`accessStep` one access (`step_eq_next_iff`, `accessStep_eq_next_iff`). -/
inductive PortMove (f : Act → State → State) (s : State) : State → Prop
  | idle (busy : statusBusy s.port.status = false) : PortMove f s s
  | command {w : Cmd} {i : Instr} (busy : statusBusy s.port.status = true) (fetched : s.port.fetch = some w)
      (decoded : decode w = .ok i) : PortMove f s (f (planLeft Config.env i s) s)
  | illegal {w : Cmd} {x : Illegal} (busy : statusBusy s.port.status = true) (fetched : s.port.fetch = some w)
      (decoded : decode w = .error x) : PortMove f s (enterFault .illegalCmd 0 s)
  | endStream (busy : statusBusy s.port.status = true) (fetched : s.port.fetch = none)
      (atEnd : s.port.ci.toNat = s.port.stream.length) : PortMove f s (s.setPort s.port.endStream)

/-- A legal word at `ci` of a busy port runs, from its beginning or from where its flight stands. -/
theorem step_of_decode {s : State} {w : Cmd} {i : Instr} (hb : statusBusy s.port.status = true)
    (hf : s.port.fetch = some w) (hd : decode w = .ok i) :
    step s = .next ((planLeft Config.env i s).run Config.env s) := by
  simp only [step, hb, if_true, hf, runWord, hd]
  split
  · next hfl => rw [exec_eq_runWhole, planLeft, List.isEmpty_iff.1 hfl, resume_nil, runWhole]
  · rfl

/-- A busy port with a legal word at `ci` makes the next access of what is left of it. -/
theorem accessStep_of_decode {s : State} {w : Cmd} {i : Instr} (hb : statusBusy s.port.status = true)
    (hf : s.port.fetch = some w) (hd : decode w = .ok i) :
    accessStep s = .next ((planLeft Config.env i s).once Config.env s) := by
  simp only [accessStep, hb, if_true, hf, accessWord, hd]
  cases planLeft Config.env i s <;> rfl

theorem step_eq_next_iff {s t : State} : step s = .next t ↔ PortMove (Act.run Config.env) s t := by
  constructor
  · intro h
    rcases step_cases h with ⟨rfl, hb⟩ | ⟨hb, ⟨w, hf, ⟨i, hd, rfl⟩ | ⟨x, hd, rfl⟩⟩ | ⟨hf, hc, rfl⟩⟩
    · exact .idle hb
    · exact .command hb hf hd
    · exact .illegal hb hf hd
    · exact .endStream hb hf hc
  · rintro (hb | ⟨hb, hf, hd⟩ | ⟨hb, hf, hd⟩ | ⟨hb, hf, hc⟩)
    · simp [step, hb]
    · exact step_of_decode hb hf hd
    · simp [step, hb, hf, runWord, hd]
    · simp [step, hb, hf, runOffStream, hc]

theorem accessStep_eq_next_iff {s t : State} : accessStep s = .next t ↔ PortMove (Act.once Config.env) s t := by
  constructor
  · intro h
    rcases accessStep_cases h with ⟨rfl, hb⟩ | ⟨hb, ⟨w, hf, ⟨i, hd, _⟩ | ⟨x, hd, rfl⟩⟩ | ⟨hf, hc, rfl⟩⟩
    · exact .idle hb
    · cases (accessStep_of_decode hb hf hd).symm.trans h
      exact .command hb hf hd
    · exact .illegal hb hf hd
    · exact .endStream hb hf hc
  · rintro (hb | ⟨hb, hf, hd⟩ | ⟨hb, hf, hd⟩ | ⟨hb, hf, hc⟩)
    · simp [accessStep, hb]
    · exact accessStep_of_decode hb hf hd
    · simp [accessStep, hb, hf, accessWord, hd]
    · simp [accessStep, hb, hf, runOffStream, hc]

/-- Everything an event can do: a move of the port it names, by a whole command or by one access, or a host move. -/
theorem event_apply_iff {ev : Event} {s t : State} :
    ev.apply s = some t ↔
      (∃ n u, ev = .command n ∧ s.focus n = some u ∧ PortMove (Act.run Config.env) u t) ∨
      (∃ n u, ev = .access n ∧ s.focus n = some u ∧ PortMove (Act.once Config.env) u t) ∨
      ∃ m r, ev = .host m ∧ hostMove Config.env s m = some (r, t) := by
  simp only [← step_eq_next_iff, ← accessStep_eq_next_iff]
  constructor
  · exact event_cases
  · rintro (⟨n, u, rfl, hf, hs⟩ | ⟨n, u, rfl, hf, hs⟩ | ⟨m, r, rfl, hm⟩)
    · simp [Event.apply, hf, hs]
    · simp [Event.apply, hf, hs]
    · simp [Event.apply, hm]

/-! ### What running a command, whole or by one access, can do to a state -/

/-- `f` makes what is left of a command on the port that moves and on what is shared, without a look at any other port. -/
structure OwnPortOnly (f : Act → State → State) : Prop where
  before : ∀ a s, (f a s).before = s.before
  after : ∀ a s, (f a s).after = s.after
  /-- Another port may be any port. -/
  other : ∀ a s n p, n ≠ s.before.length → f a (s.replacePort n p) = (f a s).replacePort n p
  /-- The stored words of unwritten registers are not looked at (10_state.md R18). -/
  values : ∀ a s q, s.port.AgreeOnValues q →
    ∃ q', f a (s.setPort q) = (f a s).setPort q' ∧ (f a s).port.AgreeOnValues q'

theorem retire_replacePort {s : State} {n : Nat} (h : n ≠ s.before.length) (ws : List (RegNo × Word)) (p : Port) :
    retire ws (s.replacePort n p) = (retire ws s).replacePort n p := by
  simp only [retire, replacePort_port h, replacePort_setPort h]

theorem enterFault_replacePort {s : State} {n : Nat} (h : n ≠ s.before.length) (c : Cause) (info : Word) (p : Port) :
    enterFault c info (s.replacePort n p) = (enterFault c info s).replacePort n p := by
  simp only [enterFault, replacePort_port h, replacePort_setPort h]

theorem run_ownPortOnly (e : Env) : OwnPortOnly (Act.run e) where
  before a s := (run_frame e a s).1
  after a s := (run_frame e a s).2.1
  other a s n p h := by
    induction a generalizing s with
    | complete ws => exact retire_replacePort h ws p
    | raise c info => exact enterFault_replacePort h c info p
    | access q k ih =>
      simp only [Act.run, replacePort_shared, replacePort_setShared]
      exact ih _ (s.setShared (perform e s.shared q).2) h
  values a s q h := by
    induction a generalizing s with
    | complete ws => exact ⟨(q.writeRegs ws).advance, rfl, (h.writeRegs ws).advance⟩
    | raise c info => exact ⟨q.enterFault c info, rfl, h.enterFault c info⟩
    | access r k ih => exact ih _ (s.setShared (perform e s.shared r).2) h

theorem Port.AgreeOnValues.flight {p q : Port} (h : p.AgreeOnValues q) (r : Ans) :
    { p with flight := p.flight ++ [r] }.AgreeOnValues { q with flight := q.flight ++ [r] } := ⟨by rw [h.1], h.2⟩

theorem once_ownPortOnly (e : Env) : OwnPortOnly (Act.once e) where
  before a s := by cases a <;> rfl
  after a s := by cases a <;> rfl
  other a s n p h := by
    cases a with
    | complete ws => exact retire_replacePort h ws p
    | raise c info => exact enterFault_replacePort h c info p
    | access q k =>
      simp only [Act.once, replacePort_shared, replacePort_setShared, replacePort_port h]
      exact replacePort_setPort (s := s.setShared (perform e s.shared q).2) h p _
  values a s q h := by
    cases a with
    | complete ws => exact ⟨(q.writeRegs ws).advance, rfl, (h.writeRegs ws).advance⟩
    | raise c info => exact ⟨q.enterFault c info, rfl, h.enterFault c info⟩
    | access r k => exact ⟨_, rfl, h.flight _⟩

/-- What is left of a command depends on the values of the registers, the admission and the answers so far. (`plan_congr`
asks for equal stored words, which unwritten registers need not have.) -/
theorem planLeft_congr (i : Instr) {s t : State} (hr : ∀ r, t.port.readReg r = s.port.readReg r)
    (hfl : t.port.flight = s.port.flight) (ha : t.admits = s.admits) :
    planLeft Config.env i t = planLeft Config.env i s := by
  have hs : ∀ r k, source t r k = source s r k := fun r k => by unfold source; rw [hr]
  have hd : ∀ kind a n k, admitted t kind a n k = admitted s kind a n k := fun kind a n k => by
    unfold admitted; rw [ha]
  unfold planLeft
  rw [hfl]
  cases i <;> simp only [plan, planMixnum, planMixptr, planRhash, planShash, planShash128, planShash128b, planRand64,
    planRandbytes, planFeed, planReseed, hs, hd]

section Move
variable {f : Act → State → State} {s t : State}

/-- A move of a port leaves every other port (60_exceptions.md R120). -/
theorem PortMove.frame (hf : OwnPortOnly f) (h : PortMove f s t) : t.before = s.before ∧ t.after = s.after := by
  cases h with
  | command => exact ⟨hf.before _ _, hf.after _ _⟩
  | idle | illegal | endStream => exact ⟨rfl, rfl⟩

theorem PortMove.ports (hf : OwnPortOnly f) (h : PortMove f s t) : t.ports = s.ports.set s.before.length t.port :=
  ports_of_frame (h.frame hf).1 (h.frame hf).2

/-- A move of one port is the same move whatever another port is. -/
theorem PortMove.replacePort (hf : OwnPortOnly f) {n : Nat} (hn : n ≠ s.before.length) (p : Port)
    (h : PortMove f s t) : PortMove f (s.replacePort n p) (t.replacePort n p) := by
  have hp := replacePort_port hn p
  cases h with
  | idle hb => exact .idle (by rwa [hp])
  | @command w i hb hw hd =>
    rw [← hf.other _ _ _ _ hn, ← planLeft_congr i (t := s.replacePort n p) (by simp [hp]) (by rw [hp]) (by simp)]
    exact .command (by rwa [hp]) (by rwa [hp]) hd
  | illegal hb hw hd =>
    rw [← enterFault_replacePort hn]
    exact .illegal (by rwa [hp]) (by rwa [hp]) hd
  | endStream hb hw hc =>
    rw [← replacePort_setPort hn, ← hp]
    exact .endStream (by rwa [hp]) (by rwa [hp]) (by rwa [hp])

/-- A move does not look at the stored words of unwritten registers of the port that moves (10_state.md R18). -/
theorem PortMove.values (hf : OwnPortOnly f) {q : Port} (hq : s.port.AgreeOnValues q) (h : PortMove f s t) :
    ∃ q', PortMove f (s.setPort q) (t.setPort q') ∧ t.port.AgreeOnValues q' := by
  obtain ⟨-, hstream, hci, hstatus, -, -, -, hflight⟩ := hq.fields
  cases h with
  | idle hb => exact ⟨q, .idle (by simpa [hstatus] using hb), hq⟩
  | @command w i hb hw hd =>
    obtain ⟨q', heq, hq'⟩ := hf.values (planLeft Config.env i s) s q hq
    refine ⟨q', ?_, hq'⟩
    rw [← heq, ← planLeft_congr i (t := s.setPort q) hq.readReg hflight rfl]
    exact .command (by simpa [hstatus] using hb) (by simpa [hq.fetch] using hw) hd
  | illegal hb hw hd =>
    exact ⟨_, .illegal (by simpa [hstatus] using hb) (by simpa [hq.fetch] using hw) hd, hq.enterFault _ _⟩
  | endStream hb hw hc =>
    exact ⟨_, .endStream (by simpa [hstatus] using hb) (by simpa [hq.fetch] using hw) (by simpa [hci, hstream] using hc),
      hq.endStream⟩

end Move

/-! ### What each host move does (10_state.md R33) -/

section HostMoves
variable {e : Env} {s t : State} {n : Nat} {r : HostReply}

theorem hostMove_writeReg_iff {i : RegNo} {v : Word} :
    hostMove e s (.writeReg n i v) = some (r, t) ↔
      ∃ p, s.ports[n]? = some p ∧ statusBusy p.status = false ∧ i ≠ 0 ∧ r = .done ∧
        t = s.replacePort n (p.writeReg i v) := by
  simp only [hostMove, hostPortMove_eq_some]
  constructor
  · rintro ⟨p, q, hp, hq, rfl⟩
    obtain ⟨hc, hq⟩ := Option.ite_none_right_eq_some.1 hq
    cases hq
    obtain ⟨hb, hi⟩ : statusBusy p.status = false ∧ i ≠ 0 := by simpa using hc
    exact ⟨p, hp, hb, hi, rfl, rfl⟩
  · rintro ⟨p, hp, hb, hi, rfl, rfl⟩
    exact ⟨p, _, hp, by simp [hb, hi], rfl⟩

theorem hostMove_readReg_iff {i : RegNo} :
    hostMove e s (.readReg n i) = some (r, t) ↔
      ∃ p, s.ports[n]? = some p ∧ statusBusy p.status = false ∧ t = s.replacePort n p ∧
        ((∃ v, p.readReg i = some v ∧ r = .value v) ∨ (p.readReg i = none ∧ r = .noValue)) := by
  simp only [hostMove, hostPortMove_eq_some]
  constructor
  · rintro ⟨p, q, hp, hq, rfl⟩
    split at hq
    · cases hq
    · next hb =>
      refine ⟨p, hp, by simpa using hb, ?_⟩
      split at hq
      · next v hv => cases hq; exact ⟨rfl, .inl ⟨v, hv, rfl⟩⟩
      · next hv => cases hq; exact ⟨rfl, .inr ⟨hv, rfl⟩⟩
  · rintro ⟨p, hp, hb, rfl, ⟨v, hv, rfl⟩ | ⟨hv, rfl⟩⟩
    · exact ⟨p, p, hp, by simp [hb, hv], rfl⟩
    · exact ⟨p, p, hp, by simp [hb, hv], rfl⟩

theorem hostMove_submit_iff {cs : List Cmd} :
    hostMove e s (.submit n cs) = some (r, t) ↔
      ∃ p, s.ports[n]? = some p ∧ statusBusy p.status = false ∧ statusFault p.status = false ∧ cs.length < 2 ^ 64 ∧
        r = .done ∧ t = s.replacePort n (p.submit cs) := by
  simp only [hostMove, hostPortMove_eq_some]
  constructor
  · rintro ⟨p, q, hp, hq, rfl⟩
    obtain ⟨hc, hq⟩ := Option.ite_none_right_eq_some.1 hq
    cases hq
    obtain ⟨⟨hb, hf⟩, hl⟩ :
        (statusBusy p.status = false ∧ statusFault p.status = false) ∧ cs.length < 2 ^ 64 := by simpa [streamWf] using hc
    exact ⟨p, hp, hb, hf, hl, rfl, rfl⟩
  · rintro ⟨p, hp, hb, hf, hl, rfl, rfl⟩
    exact ⟨p, _, hp, by simpa [hb, hf, streamWf] using hl, rfl⟩

theorem hostMove_readStatus_iff :
    hostMove e s (.readStatus n) = some (r, t) ↔
      ∃ p, s.ports[n]? = some p ∧ r = .status p.status p.faultCi p.faultCmd p.faultAddr ∧ t = s.replacePort n p := by
  simp only [hostMove, hostPortMove_eq_some]
  constructor
  · rintro ⟨p, q, hp, hq, rfl⟩
    cases hq
    exact ⟨p, hp, rfl, rfl⟩
  · rintro ⟨p, hp, rfl, rfl⟩
    exact ⟨p, p, hp, rfl, rfl⟩

theorem allIdle_iff : s.allIdle = true ↔ ∀ p ∈ s.ports, statusBusy p.status = false := by simp [State.allIdle]

theorem hostMove_prngRead_iff :
    hostMove e s .prngRead = some (r, t) ↔ s.allIdle = true ∧ r = .prng s.shared.prng ∧ t = s := by
  simp only [hostMove, Option.ite_none_right_eq_some, Option.some.injEq, Prod.mk.injEq, @eq_comm _ r, @eq_comm _ t]

theorem hostMove_prngWrite_iff {st : Prng} :
    hostMove e s (.prngWrite st) = some (r, t) ↔
      s.allIdle = true ∧ r = .done ∧ t = s.setShared (s.shared.setPrng st) := by
  simp only [hostMove, Option.ite_none_right_eq_some, Option.some.injEq, Prod.mk.injEq, @eq_comm _ r, @eq_comm _ t]

theorem hostMove_memWrite_iff {a : Word} {bs : List Byte} :
    hostMove e s (.memWrite a bs) = some (r, t) ↔
      a.toNat + bs.length ≤ 2 ^ 64 ∧ r = .done ∧
        t = s.setShared { s.shared with mem := Memory.writeRange s.shared.mem a bs } := by
  simp only [hostMove, Option.ite_none_right_eq_some, Option.some.injEq, Prod.mk.injEq, @eq_comm _ r, @eq_comm _ t]
  exact Iff.rfl

theorem hostMove_memRead_iff {a : Word} {m : Nat} :
    hostMove e s (.memRead a m) = some (r, t) ↔
      a.toNat + m ≤ 2 ^ 64 ∧ r = .bytes (Memory.readRange s.shared.mem a m) ∧ t = s := by
  simp only [hostMove, Option.ite_none_right_eq_some, Option.some.injEq, Prod.mk.injEq, @eq_comm _ r, @eq_comm _ t]
  exact Iff.rfl

theorem hostMove_readCfg_iff :
    hostMove e s .readCfg = some (r, t) ↔ r = .value (cfgRegister e.cfg) ∧ t = s := by
  simp [hostMove, eq_comm]

theorem hostMove_reset_iff : hostMove e s .reset = some (r, t) ↔ r = .done ∧ t = resetBlock e s := by
  simp [hostMove, eq_comm]

end HostMoves

/-- Settles O54: each move of R33 by the lemma that says what it does. -/
theorem hostMoves : Obligations.HostMoves := by
  intro e s
  refine ⟨fun _ _ _ _ _ => hostMove_writeReg_iff, fun _ _ _ _ => hostMove_readReg_iff,
    fun _ _ _ _ => hostMove_submit_iff, fun _ _ _ => hostMove_readStatus_iff, rfl, rfl, fun r t => ?_,
    fun st r t => ?_, fun a bs r t ha => ?_, fun a n r t ha => ?_, fun n p _ => ?_⟩
  · rw [hostMove_prngRead_iff, allIdle_iff]
  · rw [hostMove_prngWrite_iff, allIdle_iff]
  · rw [hostMove_memWrite_iff, and_iff_right ha]
  · rw [hostMove_memRead_iff, and_iff_right ha]
  · exact ⟨replacePort_ports s n p, replacePort_shared s n p, replacePort_admits s n p⟩

/-! ### Reset() (10_state.md R34) -/

@[simp] theorem resetBlock_ports (e : Env) (s : State) :
    (resetBlock e s).ports = List.replicate s.ports.length Port.reset := by
  simp [resetBlock, State.ports, List.map_const', List.replicate_append_replicate, ← List.replicate_succ]

/-- Reset() leaves nothing of any port. -/
theorem resetBlock_replacePort (e : Env) (s : State) (n : Nat) (p : Port) :
    resetBlock e (s.replacePort n p) = resetBlock e s :=
  state_eq_of_ports (by simp [replacePort_ports]) (by simp [resetBlock]) (by simp [resetBlock]) (by simp [resetBlock])

theorem reset_ports : State.reset.ports = List.replicate Config.cfg.nports Port.reset := by
  have h : Config.cfg.nports - 1 + 1 = Config.cfg.nports := Nat.sub_add_cancel Config.cfg.nports_pos
  rw [← h, List.replicate_succ]
  rfl

theorem readReg_reset {r : RegNo} (h : r ≠ 0) : Port.reset.readReg r = none := by
  simp [Port.readReg, Port.reset, h, Vector.get_eq_getElem]

/-- Settles O56: the ports after Reset() and at the start are copies of `Port.reset`. -/
theorem resetValues : Obligations.ResetValues := by
  refine ⟨fun s => ⟨resetBlock Config.env s, rfl, by simp, fun p hp => ?_, rfl, rfl, rfl, rfl, rfl, rfl⟩,
    fun p hp => ?_, by simp [reset_ports], rfl, rfl, fun r => readReg_reset, rfl, rfl, rfl, rfl, rfl, rfl, rfl⟩
  · rw [resetBlock_ports] at hp
    exact List.eq_of_mem_replicate hp
  · rw [reset_ports] at hp
    exact List.eq_of_mem_replicate hp

/-! ### Moves of a port and the other ports -/

/-- A move of the port in focus, whatever another port is, or whatever words its own unwritten registers hold. -/
theorem PortMove.replacePort_values {f : Act → State → State} (hf : OwnPortOnly f) {s t : State} {n : Nat} {p q : Port}
    (hp : s.ports[n]? = some p) (hq : p.AgreeOnValues q) (h : PortMove f s t) :
    ∃ p' q', PortMove f (s.replacePort n q) (t.replacePort n q') ∧ t.ports[n]? = some p' ∧ p'.AgreeOnValues q' := by
  by_cases hn : n = s.before.length
  · subst hn
    obtain rfl : s.port = p := by simpa using hp
    have ht : s.before.length = t.before.length := by rw [(h.frame hf).1]
    obtain ⟨q', hm, hq'⟩ := h.values hf hq
    refine ⟨t.port, q', ?_, by rw [ht, ports_getElem?_before_length], hq'⟩
    rwa [replacePort_before_length_eq_setPort, ht, replacePort_before_length_eq_setPort]
  · refine ⟨p, q, h.replacePort hf hn q, ?_, hq⟩
    rw [h.ports hf, List.getElem?_set_ne (Ne.symm hn), hp]

/-- The focus is on the same port whatever port `n` is. -/
theorem focus_replacePort {s u : State} {m : Nat} (h : s.focus m = some u) (n : Nat) (q : Port) :
    (s.replacePort n q).focus m = some (u.replacePort n q) := by
  obtain ⟨hp, hb, hs, ha⟩ := focus_eq_some_iff.1 h
  exact focus_eq_some_iff.2 ⟨by rw [replacePort_ports, replacePort_ports, hp], by simpa using hb, by simpa using hs,
    by simpa using ha⟩

/-- A move of port `m` in focus, with another port `n` or other stored words of its unwritten registers. -/
theorem focused_move_values {f : Act → State → State} (hf : OwnPortOnly f) {s t u : State} {n m : Nat} {p q : Port}
    (hp : s.ports[n]? = some p) (hq : p.AgreeOnValues q) (hu : s.focus m = some u) (h : PortMove f u t) :
    ∃ p' q', ((s.replacePort n q).focus m = some (u.replacePort n q) ∧
      PortMove f (u.replacePort n q) (t.replacePort n q')) ∧ t.ports[n]? = some p' ∧ p'.AgreeOnValues q' := by
  obtain ⟨hports, -, -, -⟩ := focus_eq_some_iff.1 hu
  obtain ⟨p', q', hm, hp', hq'⟩ := h.replacePort_values hf (by rwa [hports]) hq
  exact ⟨p', q', ⟨focus_replacePort hu n q, hm⟩, hp', hq'⟩

/-- A move of port `n` in focus leaves every other port. -/
theorem focused_move_ports {f : Act → State → State} (hf : OwnPortOnly f) {s t u : State} {n : Nat}
    (hu : s.focus n = some u) (h : PortMove f u t) : t.ports = s.ports.set n t.port := by
  obtain ⟨hports, hb, -, -⟩ := focus_eq_some_iff.1 hu
  rw [h.ports hf, hports, hb]

/-- Settles O51: a move sets its own entry of the list of ports. -/
theorem portsArePrivate : Obligations.PortsArePrivate := by
  intro s t n m hmn h
  have hset : t.ports = s.ports.set n t.port := by
    rcases h with h | h
    · obtain ⟨_, u, he, hu, hm⟩ | ⟨_, _, he, _⟩ | ⟨_, _, he, _⟩ := event_apply_iff.1 h <;> cases he
      exact focused_move_ports (run_ownPortOnly _) hu hm
    · obtain ⟨_, _, he, _⟩ | ⟨_, u, he, hu, hm⟩ | ⟨_, _, he, _⟩ := event_apply_iff.1 h <;> cases he
      exact focused_move_ports (once_ownPortOnly _) hu hm
  rw [hset]
  exact ⟨List.getElem?_set_ne (Ne.symm hmn), List.length_set⟩

/-! ### Host moves do not look at the stored words of unwritten registers -/

/-- A host move on port `m` that reads and leaves ports `AgreeOnValues` alike, with port `n` replaced so. -/
theorem hostPortMove_values {s t : State} {n m : Nat} {p q : Port} {f : Port → Option (HostReply × Port)} {r : HostReply}
    (hf : ∀ p q p' r, p.AgreeOnValues q → f p = some (r, p') → ∃ q', f q = some (r, q') ∧ p'.AgreeOnValues q')
    (hp : s.ports[n]? = some p) (hq : p.AgreeOnValues q) (h : hostPortMove s m f = some (r, t)) :
    ∃ p' q', hostPortMove (s.replacePort n q) m f = some (r, t.replacePort n q') ∧
      t.ports[n]? = some p' ∧ p'.AgreeOnValues q' := by
  obtain ⟨p1, p2, hp1, hf1, rfl⟩ := hostPortMove_eq_some.1 h
  by_cases hnm : n = m
  · subst hnm
    obtain rfl : p = p1 := Option.some.inj (hp.symm.trans hp1)
    obtain ⟨q', hf', hq'⟩ := hf _ _ _ _ hq hf1
    exact ⟨p2, q', hostPortMove_eq_some.2 ⟨q, q', replacePort_getElem?_same hp q, hf', by
      rw [replacePort_replacePort_same, replacePort_replacePort_same]⟩, replacePort_getElem?_same hp p2, hq'⟩
  · refine ⟨p, q, hostPortMove_eq_some.2 ⟨p1, p2, ?_, hf1, replacePort_comm s (Ne.symm hnm) p2 q⟩, ?_, hq⟩
    · rw [replacePort_ports, List.getElem?_set_ne hnm, hp1]
    · rw [replacePort_ports, List.getElem?_set_ne (Ne.symm hnm), hp]

/-- Whether every port is idle does not depend on stored words. -/
theorem allIdle_replacePort {s : State} {n : Nat} {p q : Port} (hp : s.ports[n]? = some p) (hq : p.AgreeOnValues q) :
    (s.replacePort n q).allIdle = s.allIdle := by
  obtain ⟨-, -, -, hstatus, -⟩ := hq.fields
  have hmap : (s.replacePort n q).ports.map Port.status = s.ports.map Port.status := by
    rw [replacePort_ports, List.map_set, hstatus, ← List.map_set, ← replacePort_ports, replacePort_self hp]
  have key : ∀ u : State, u.allIdle = (u.ports.map Port.status).all fun st => !statusBusy st := fun u => by
    simp [State.allIdle, List.all_map, Function.comp_def]
  rw [key, key, hmap]

/-- Every host move gets the same reply and leaves the same, but for stored words that are no values. -/
theorem hostMove_values {s t : State} {n : Nat} {p q : Port} {m : HostMove} {r : HostReply}
    (hp : s.ports[n]? = some p) (hq : p.AgreeOnValues q) (h : hostMove Config.env s m = some (r, t)) :
    ∃ p' q', hostMove Config.env (s.replacePort n q) m = some (r, t.replacePort n q') ∧
      t.ports[n]? = some p' ∧ p'.AgreeOnValues q' := by
  cases m with
  | writeReg k i v =>
    refine hostPortMove_values (fun p q p' r hpq hf => ?_) hp hq h
    obtain ⟨hc, hf⟩ := Option.ite_none_right_eq_some.1 hf
    cases hf
    obtain ⟨-, -, -, hstatus, -⟩ := hpq.fields
    exact ⟨_, by rw [hstatus, if_pos hc], hpq.writeReg i v⟩
  | readReg k i =>
    refine hostPortMove_values (fun p q p' r hpq hf => ⟨q, ?_⟩) hp hq h
    obtain ⟨-, -, -, hstatus, -⟩ := hpq.fields
    rw [hstatus, hpq.readReg]
    cases hb : statusBusy p.status <;> cases hv : p.readReg i <;> simp_all
  | submit k cs =>
    refine hostPortMove_values (fun p q p' r hpq hf => ?_) hp hq h
    obtain ⟨hc, hf⟩ := Option.ite_none_right_eq_some.1 hf
    cases hf
    obtain ⟨-, -, -, hstatus, -⟩ := hpq.fields
    exact ⟨_, by rw [hstatus, if_pos hc], hpq.submit cs⟩
  | readStatus k =>
    simp only [hostMove] at h ⊢
    refine hostPortMove_values (fun p q p' r hpq hf => ?_) hp hq h
    cases hf
    obtain ⟨-, -, -, hstatus, hci, hcmd, haddr, -⟩ := hpq.fields
    exact ⟨q, by rw [hstatus, hci, hcmd, haddr], hpq⟩
  | readCfg =>
    obtain ⟨rfl, rfl⟩ := hostMove_readCfg_iff.1 h
    exact ⟨p, q, rfl, hp, hq⟩
  | prngRead =>
    obtain ⟨hi, rfl, rfl⟩ := hostMove_prngRead_iff.1 h
    exact ⟨p, q, hostMove_prngRead_iff.2 ⟨by rwa [allIdle_replacePort hp hq], by simp, rfl⟩, hp, hq⟩
  | prngWrite st =>
    obtain ⟨hi, rfl, rfl⟩ := hostMove_prngWrite_iff.1 h
    refine ⟨p, q, hostMove_prngWrite_iff.2 ⟨by rwa [allIdle_replacePort hp hq], rfl, ?_⟩, hp, hq⟩
    rw [replacePort_setShared, replacePort_shared]
  | memWrite a bs =>
    obtain ⟨hl, rfl, rfl⟩ := hostMove_memWrite_iff.1 h
    refine ⟨p, q, hostMove_memWrite_iff.2 ⟨hl, rfl, ?_⟩, hp, hq⟩
    rw [replacePort_setShared, replacePort_shared]
  | memRead a k =>
    obtain ⟨hl, rfl, rfl⟩ := hostMove_memRead_iff.1 h
    exact ⟨p, q, hostMove_memRead_iff.2 ⟨hl, by simp, rfl⟩, hp, hq⟩
  | reset =>
    obtain ⟨rfl, rfl⟩ := hostMove_reset_iff.1 h
    obtain ⟨hn, -⟩ := List.getElem?_eq_some_iff.1 hp
    have hr : (resetBlock Config.env s).ports[n]? = some Port.reset := by simp [hn]
    refine ⟨Port.reset, Port.reset, hostMove_reset_iff.2 ⟨rfl, ?_⟩, hr, .refl _⟩
    rw [resetBlock_replacePort, replacePort_self hr]

/-- What a port's next command or access leaves, with other stored words of its unwritten registers. -/
theorem move_values {f : Act → State → State} (hf : OwnPortOnly f) {m : State → Host.Outcome State Fault Refusal}
    (hm : ∀ s t, m s = .next t ↔ PortMove f s t) {s t : State} {q : Port} (hq : s.port.AgreeOnValues q)
    (h : m s = .next t) : ∃ u, m (s.setPort q) = .next u ∧ t.port.AgreeOnValues u.port ∧ u = t.setPort u.port := by
  obtain ⟨q', hmove, hq'⟩ := ((hm s t).1 h).values hf hq
  exact ⟨t.setPort q', (hm _ _).2 hmove, hq', rfl⟩

/-- Settles O52: no operation on a port looks at a stored word that is no value (`OwnPortOnly.values`, `hostMove_values`). -/
theorem unwrittenRegisterHasNoValue : Obligations.UnwrittenRegisterHasNoValue := by
  refine ⟨fun s t q => move_values (run_ownPortOnly _) fun _ _ => step_eq_next_iff,
    fun s t q => move_values (once_ownPortOnly _) fun _ _ => accessStep_eq_next_iff, fun s n p q hp hq =>
    ⟨fun m r t h => hostMove_values hp hq h, fun ev t h => ?_⟩⟩
  obtain ⟨m, u, rfl, hu, hm⟩ | ⟨m, u, rfl, hu, hm⟩ | ⟨m, r, rfl, hm⟩ := event_apply_iff.1 h
  · obtain ⟨p', q', hmove, hp', hq'⟩ := focused_move_values (run_ownPortOnly _) hp hq hu hm
    exact ⟨p', q', event_apply_iff.2 (.inl ⟨m, _, rfl, hmove⟩), hp', hq'⟩
  · obtain ⟨p', q', hmove, hp', hq'⟩ := focused_move_values (once_ownPortOnly _) hp hq hu hm
    exact ⟨p', q', event_apply_iff.2 (.inr (.inl ⟨m, _, rfl, hmove⟩)), hp', hq'⟩
  · obtain ⟨p', q', hmove, hp', hq'⟩ := hostMove_values hp hq hm
    exact ⟨p', q', event_apply_iff.2 (.inr (.inr ⟨m, r, rfl, hmove⟩)), hp', hq'⟩

/-! ### STATUS stays legal (10_state.md R23) -/

/-- The reserved bits 7:3 and 63:16 of `STATUS`. -/
def statusReserved (st : Word) : Word := st &&& ~~~0xFF07#64

/-- Setting one of the bits 0 to 2 leaves the reserved bits. -/
theorem statusReserved_setBit (w : Word) {i : Nat} (b : Bool) (hi : i < 3) :
    statusReserved (setBit w i b) = statusReserved w := by
  unfold statusReserved
  refine BitVec.eq_of_getLsbD_eq fun j _ => ?_
  rw [BitVec.getLsbD_and, BitVec.getLsbD_and, setBit_getLsbD _ _ _ _ (by omega)]
  by_cases hj : j = i
  · have hfree : (~~~0xFF07#64).getLsbD j = false := by subst hj; interval_cases j <;> rfl
    rw [hfree, Bool.and_false, Bool.and_false]
  · rw [if_neg hj]

@[simp] theorem statusReserved_setBusy (st : Word) (b : Bool) : statusReserved (setBusy st b) = statusReserved st :=
  statusReserved_setBit st b (by decide)
@[simp] theorem statusReserved_setDone (st : Word) (b : Bool) : statusReserved (setDone st b) = statusReserved st :=
  statusReserved_setBit st b (by decide)
@[simp] theorem statusReserved_setFault (st : Word) (b : Bool) : statusReserved (setFault st b) = statusReserved st :=
  statusReserved_setBit st b (by decide)

@[simp] theorem statusReserved_setCause (st : Word) (c : BitVec 8) :
    statusReserved (setCause st c) = statusReserved st := by
  unfold statusReserved
  refine BitVec.eq_of_getLsbD_eq fun j _ => ?_
  rw [BitVec.getLsbD_and, BitVec.getLsbD_and, setCause_getLsbD]
  by_cases hj : 8 ≤ j ∧ j < 16
  · have hfree : (~~~0xFF07#64).getLsbD j = false := by obtain ⟨h8, h16⟩ := hj; interval_cases j <;> rfl
    rw [hfree, Bool.and_false, Bool.and_false]
  · rw [if_neg hj]

/-- The legal values of `STATUS`, condition by condition (10_state.md R23). -/
theorem statusLegal_iff (st : Word) :
    statusLegal st = true ↔
      statusReserved st = 0 ∧ (statusBusy st = true → statusDone st = false ∧ statusFault st = false) ∧
        (statusDone st = true → statusFault st = false) ∧ (statusFault st = true ↔ statusCause st ≠ 0) := by
  unfold statusLegal statusReserved
  generalize statusCause st = c
  by_cases hc : c = 0 <;> cases statusBusy st <;> cases statusDone st <;> cases statusFault st <;> simp [hc]

/-- A running port is neither done nor faulted. -/
theorem statusLegal_busy {st : Word} (h : statusLegal st = true) (hb : statusBusy st = true) :
    statusDone st = false ∧ statusFault st = false := ((statusLegal_iff st).1 h).2.1 hb

/-- The end of a stream leaves a legal `STATUS` (70_reset_and_hazards.md R126). -/
theorem statusLegal_endStream {st : Word} (h : statusLegal st = true) (hb : statusBusy st = true) :
    statusLegal (setDone (setBusy st false) true) = true := by
  obtain ⟨-, hf⟩ := statusLegal_busy h hb
  obtain ⟨hr, -, -, hc⟩ := (statusLegal_iff st).1 h
  simp_all [statusLegal_iff]

theorem Cause.code_ne_zero (c : Cause) : c.code ≠ 0 := by cases c <;> decide
theorem Cause.code_le (c : Cause) : c.code.toNat ≤ 4 := by cases c <;> decide

/-- A fault leaves a legal `STATUS` (60_exceptions.md R109). -/
theorem statusLegal_enterFault {st : Word} (h : statusLegal st = true) (c : Cause) :
    statusLegal (setDone (setBusy (setFault (setCause st c.code) true) false) false) = true := by
  obtain ⟨hr, -⟩ := (statusLegal_iff st).1 h
  simpa [statusLegal_iff, hr] using c.code_ne_zero

/-- A submission to an idle port that has not faulted leaves a legal `STATUS` (10_state.md R33). -/
theorem statusLegal_submit {st : Word} (h : statusLegal st = true) (hf : statusFault st = false) :
    statusLegal (setBusy (setDone st false) true) = true := by
  obtain ⟨hr, -, -, hc⟩ := (statusLegal_iff st).1 h
  simp_all [statusLegal_iff]

/-! ### Every operation on a port keeps its invariant -/

theorem Port.inv_reset : Port.reset.Inv where
  legal := by decide
  length := by decide
  index := by decide
  running := by decide
  ended := by decide
  inFlight := by decide
  faulted h := absurd h (by decide)
  unfaulted _ := ⟨rfl, rfl, rfl⟩

/-- The invariant does not speak of registers. -/
theorem Port.Inv.congr {p q : Port} (h : p.Inv) (hstream : q.stream = p.stream) (hci : q.ci = p.ci)
    (hstatus : q.status = p.status) (hfci : q.faultCi = p.faultCi) (hcmd : q.faultCmd = p.faultCmd)
    (haddr : q.faultAddr = p.faultAddr) (hfl : q.flight = p.flight) : q.Inv := by
  have hfetch : q.fetch = p.fetch := by rw [Port.fetch, Port.fetch, hstream, hci]
  obtain ⟨h1, h2, h3, h4, h5, h6, h7, h8⟩ := h
  constructor <;> simpa only [hstream, hci, hstatus, hfci, hcmd, haddr, hfl, hfetch]

theorem Port.Inv.writeReg {p : Port} (h : p.Inv) (i : RegNo) (v : Word) : (p.writeReg i v).Inv := by
  apply h.congr <;> simp

theorem Port.Inv.writeRegs {p : Port} (h : p.Inv) (ws : List (RegNo × Word)) : (p.writeRegs ws).Inv := by
  obtain ⟨hstream, hci, hstatus, hfci, hcmd, haddr, hfl⟩ := Port.writeRegs_frame ws p
  exact h.congr hstream hci hstatus hfci hcmd haddr hfl

/-- A busy port with a command keeps the invariant when the command completes (10_state.md R20). -/
theorem Port.Inv.advance {p : Port} (h : p.Inv) (hb : statusBusy p.status = true) (hn : p.ci.toNat < p.stream.length) :
    p.advance.Inv := by
  have hci : (p.ci + 1).toNat = p.ci.toNat + 1 := toNat_add_one (by have := h.length; omega)
  obtain ⟨hd, hf⟩ := statusLegal_busy h.legal hb
  have hfault : statusFault p.advance.status = false := by rw [advance_status]; split <;> simp [hf]
  constructor
  case legal =>
    rw [advance_status]
    split
    · exact statusLegal_endStream h.legal hb
    · exact h.legal
  case length => simpa using h.length
  case index =>
    rw [advance_ci, advance_stream, hci]
    exact hn
  case running =>
    intro hbusy
    rw [advance_status] at hbusy
    split at hbusy
    · simp at hbusy
    · rw [advance_ci, advance_stream]
      omega
  case ended =>
    intro hdone
    rw [advance_status] at hdone
    split at hdone
    · next hend => rwa [advance_ci, advance_stream]
    · simp [hd] at hdone
  case inFlight => exact fun hfl => absurd (advance_flight p) hfl
  case faulted =>
    intro hft
    rw [hfault] at hft
    cases hft
  case unfaulted => simpa using fun _ => h.unfaulted hf

/-- A port with a command keeps the invariant when the command takes a fault (60_exceptions.md R109). -/
theorem Port.Inv.enterFault {p : Port} {w : Cmd} (h : p.Inv) (hw : p.fetch = some w) (c : Cause) (info : Word) :
    (p.enterFault c info).Inv where
  legal := statusLegal_enterFault h.legal c
  length := h.length
  index := h.index
  running hb := by simp at hb
  ended hd := by simp at hd
  inFlight hfl := absurd rfl hfl
  faulted _ := ⟨rfl, ⟨w, hw, by simp [hw]⟩, by simpa using c.code_le⟩
  unfaulted hf := by simp at hf

/-- A busy port with a command keeps the invariant at each of the command's accesses (10_state.md R32). -/
theorem Port.Inv.flight {p : Port} (h : p.Inv) (hb : statusBusy p.status = true) (hn : p.ci.toNat < p.stream.length)
    (rs : List Ans) : { p with flight := rs }.Inv :=
  { h with inFlight := fun _ => ⟨hb, hn⟩ }

/-- A busy port without a command keeps the invariant when its empty stream ends (70_reset_and_hazards.md R126). -/
theorem Port.Inv.endStream {p : Port} (h : p.Inv) (hb : statusBusy p.status = true) (hc : p.ci.toNat = p.stream.length) :
    p.endStream.Inv := by
  obtain ⟨-, hf⟩ := statusLegal_busy h.legal hb
  exact {
    legal := statusLegal_endStream h.legal hb
    length := h.length
    index := h.index
    running := fun hbusy => by simp at hbusy
    ended := fun _ => hc
    inFlight := fun hfl => absurd (h.inFlight hfl).2 (by omega)
    faulted := fun hfault => by simp [hf] at hfault
    unfaulted := fun _ => h.unfaulted hf }

/-- A port that has not faulted keeps the invariant at a submission (10_state.md R33). -/
theorem Port.Inv.submit {p : Port} (h : p.Inv) (hf : statusFault p.status = false) {cs : List Cmd}
    (hl : cs.length < 2 ^ 64) : (p.submit cs).Inv where
  legal := statusLegal_submit h.legal hf
  length := hl
  index := Nat.zero_le _
  running _ := by
    cases cs with
    | nil => exact .inr rfl
    | cons c cs => exact .inl (Nat.zero_lt_succ _)
  ended hd := by simp at hd
  inFlight hfl := absurd rfl hfl
  faulted hfault := by simp [hf] at hfault
  unfaulted _ := h.unfaulted hf

/-! ### Every move keeps the invariant of the block -/

/-- Setting one port and what is shared to what meets the invariant. -/
theorem State.Inv.replace {s t : State} {n : Nat} {p : Port} (h : s.Inv) (hports : t.ports = s.ports.set n p)
    (hp : p.Inv) (hm : Memory.wf t.shared.mem) : t.Inv where
  ports q hq := by
    rw [hports] at hq
    rcases List.mem_or_eq_of_mem_set hq with hq | rfl
    · exact h.ports q hq
    · exact hp
  count := by rw [hports, List.length_set, h.count]
  memory := hm

/-- The port that moves meets the invariant. -/
theorem State.Inv.port {s : State} (h : s.Inv) : s.port.Inv := h.ports _ (by simp [State.ports])

/-- A command, whole or by one access, keeps the invariant of the port that moves and the form of memory. -/
structure KeepsInv (f : Act → State → State) : Prop where
  port : ∀ a s w, s.port.Inv → statusBusy s.port.status = true → s.port.fetch = some w → (f a s).port.Inv
  memory : ∀ a s, Memory.wf s.shared.mem → Memory.wf (f a s).shared.mem

theorem Port.lt_of_fetch {p : Port} {w : Cmd} (h : p.fetch = some w) : p.ci.toNat < p.stream.length :=
  (List.getElem?_eq_some_iff.1 h).1

/-- Completing a command keeps the port's invariant. -/
theorem retire_port_inv {s : State} {w : Cmd} (h : s.port.Inv) (hb : statusBusy s.port.status = true)
    (hw : s.port.fetch = some w) (ws : List (RegNo × Word)) : (retire ws s).port.Inv := by
  obtain ⟨hstream, hci, hstatus, -⟩ := Port.writeRegs_frame ws s.port
  exact (h.writeRegs ws).advance (by rwa [hstatus]) (by rw [hstream, hci]; exact Port.lt_of_fetch hw)

theorem run_keepsInv (e : Env) : KeepsInv (Act.run e) where
  port a s w h hb hw := by
    obtain ⟨g, ⟨ws, hr⟩ | ⟨c, info, hr⟩⟩ := run_cases e a s <;> rw [hr]
    · exact retire_port_inv (s := s.setShared g) h hb hw ws
    · exact h.enterFault hw c info
  memory a s h := run_wf e a s h

theorem once_keepsInv (e : Env) : KeepsInv (Act.once e) where
  port a s w h hb hw := by
    cases a with
    | complete ws => exact retire_port_inv h hb hw ws
    | raise c info => exact h.enterFault hw c info
    | access q k => exact h.flight hb (Port.lt_of_fetch hw) _
  memory a s h := by
    cases a with
    | complete ws => exact h
    | raise c info => exact h
    | access q k => exact perform_wf e s.shared q h

/-- A move of a port keeps the invariant. -/
theorem PortMove.inv {f : Act → State → State} (hf : OwnPortOnly f) (hk : KeepsInv f) {s t : State} (h : s.Inv)
    (hm : PortMove f s t) : t.Inv := by
  refine h.replace (hm.ports hf) ?_ ?_
  · cases hm with
    | idle => exact h.port
    | command hb hw => exact hk.port _ s _ h.port hb hw
    | illegal hb hw => exact h.port.enterFault hw _ _
    | endStream hb _ hc => exact h.port.endStream hb hc
  · cases hm with
    | command => exact hk.memory _ s h.memory
    | idle | illegal | endStream => exact h.memory

/-- A move of the port in focus keeps the invariant. -/
theorem focused_move_inv {f : Act → State → State} (hf : OwnPortOnly f) (hk : KeepsInv f) {s t u : State} {n : Nat}
    (h : s.Inv) (hu : s.focus n = some u) (hm : PortMove f u t) : t.Inv := by
  obtain ⟨hports, -, hs, -⟩ := focus_eq_some_iff.1 hu
  exact hm.inv hf hk ⟨by rw [hports]; exact h.ports, by rw [hports, h.count], by rw [hs]; exact h.memory⟩

/-- A host move on a port that keeps the port's invariant. -/
theorem State.Inv.replacePort {s : State} (h : s.Inv) (n : Nat) {p : Port} (hp : p.Inv) : (s.replacePort n p).Inv :=
  h.replace (replacePort_ports s n p) hp (by simpa using h.memory)

/-- A host move that leaves the ports. -/
theorem State.Inv.setShared {s : State} (h : s.Inv) {g : Shared} (hm : Memory.wf g.mem) : (s.setShared g).Inv :=
  ⟨h.ports, h.count, hm⟩

/-- Reset() keeps the invariant. -/
theorem State.Inv.resetBlock {s : State} (h : s.Inv) (e : Env) : (resetBlock e s).Inv where
  ports p hp := by
    rw [resetBlock_ports] at hp
    rw [List.eq_of_mem_replicate hp]
    exact Port.inv_reset
  count := by rw [resetBlock_ports, List.length_replicate, h.count]
  memory := h.memory

/-- Every host move keeps the invariant. -/
theorem hostMove_inv {s t : State} {m : HostMove} {r : HostReply} (h : s.Inv)
    (hm : hostMove Config.env s m = some (r, t)) : t.Inv := by
  have hport : ∀ {n : Nat} {p : Port}, s.ports[n]? = some p → p.Inv := fun hp => h.ports _ (List.mem_of_getElem? hp)
  cases m with
  | writeReg n i v =>
    obtain ⟨p, hp, -, -, -, rfl⟩ := hostMove_writeReg_iff.1 hm
    exact h.replacePort n ((hport hp).writeReg i v)
  | readReg n i =>
    obtain ⟨p, hp, -, rfl, -⟩ := hostMove_readReg_iff.1 hm
    exact h.replacePort n (hport hp)
  | submit n cs =>
    obtain ⟨p, hp, -, hf, hl, -, rfl⟩ := hostMove_submit_iff.1 hm
    exact h.replacePort n ((hport hp).submit hf hl)
  | readStatus n =>
    obtain ⟨p, hp, -, rfl⟩ := hostMove_readStatus_iff.1 hm
    exact h.replacePort n (hport hp)
  | readCfg => obtain ⟨-, rfl⟩ := hostMove_readCfg_iff.1 hm; exact h
  | prngRead => obtain ⟨-, -, rfl⟩ := hostMove_prngRead_iff.1 hm; exact h
  | prngWrite st => obtain ⟨-, -, rfl⟩ := hostMove_prngWrite_iff.1 hm; exact h.setShared h.memory
  | memWrite a bs =>
    obtain ⟨-, -, rfl⟩ := hostMove_memWrite_iff.1 hm
    exact h.setShared (Memory.wf_writeRange bs _ a h.memory)
  | memRead a n => obtain ⟨-, -, rfl⟩ := hostMove_memRead_iff.1 hm; exact h
  | reset => obtain ⟨-, rfl⟩ := hostMove_reset_iff.1 hm; exact h.resetBlock _

/-- Settles O58: every port is `Port.reset`, which meets the invariant, and nothing is listed in memory. -/
theorem resetMeetsTheInvariant : Obligations.ResetMeetsTheInvariant where
  ports p hp := by
    rw [reset_ports] at hp
    rw [List.eq_of_mem_replicate hp]
    exact Port.inv_reset
  count := by rw [reset_ports, List.length_replicate]
  memory := Memory.wf_nil

/-- Settles O59: a step is a move that keeps the invariant of its port. -/
theorem stepKeepsTheInvariant : Obligations.StepKeepsTheInvariant := fun _ _ h hs =>
  (step_eq_next_iff.1 hs).inv (run_ownPortOnly _) (run_keepsInv _) h

/-- Settles O60: the moves of the ports by whole commands and by accesses, and those of the host. -/
theorem eventsKeepTheInvariant : Obligations.EventsKeepTheInvariant := by
  intro ev s t h hev
  obtain ⟨n, u, -, hu, hm⟩ | ⟨n, u, -, hu, hm⟩ | ⟨m, r, -, hm⟩ := event_apply_iff.1 hev
  · exact focused_move_inv (run_ownPortOnly _) (run_keepsInv _) h hu hm
  · exact focused_move_inv (once_ownPortOnly _) (once_keepsInv _) h hu hm
  · exact hostMove_inv h hm

/-! ### A command and its accesses (10_state.md R30, R32) -/

/-- Settles O6: with no command in flight, what is left of a command is all of it. -/
theorem stepRunsTheDecodedCommand : Obligations.StepRunsTheDecodedCommand := by
  intro s w i hb hfl hf hd
  rw [step_of_decode hb hf hd, exec_eq_runWhole, runWhole, planLeft, hfl, resume_nil]

/-- Settles O55: the submitted word is at `ci`, and it decodes to the command. -/
theorem submittedCommandRuns : Obligations.SubmittedCommandRuns := by
  intro s i hb hf
  refine ⟨s.setPort (s.port.submit [encode i]), hostMove_submit_iff.2 ⟨s.port, ports_getElem?_before_length s, hb, hf,
    by simp, rfl, (replacePort_before_length_eq_setPort s _).symm⟩, ?_, rfl, Port.readReg_congr rfl rfl⟩
  exact stepRunsTheDecodedCommand _ _ i (by simp) rfl rfl (decode_encode i)

/-- Settles O48: of the moves that leave a command in flight, an access changes only the answers so far. -/
theorem registersAreWrittenLast : Obligations.RegistersAreWrittenLast := by
  intro s t hw h hfl
  cases accessStep_eq_next_iff.1 h with
  | idle => rfl
  | @command w i hb hf hd =>
    cases ha : planLeft Config.env i s with
    | complete ws => simp [ha, Act.once] at hfl
    | raise c info => simp [ha, Act.once] at hfl
    | access q k => rfl
  | illegal => simp at hfl
  | endStream _ hnone => exact absurd hnone hw

/-- Register writes do not look at the answers so far. -/
theorem writeRegs_flight (ws : List (RegNo × Word)) (p : Port) (rs : List Ans) :
    { p with flight := rs }.writeRegs ws = { p.writeRegs ws with flight := rs } := by
  induction ws generalizing p with
  | nil => rfl
  | cons w ws ih =>
    have hw : { p with flight := rs }.writeReg w.1 w.2 = { p.writeReg w.1 w.2 with flight := rs } := by
      unfold Port.writeReg
      split <;> rfl
    rw [Port.writeRegs_cons, hw, ih, Port.writeRegs_cons]

/-- A command run to its end leaves nothing of the answers it had (10_state.md R32). -/
theorem run_setPort_flight (e : Env) (a : Act) (s : State) (rs : List Ans) :
    a.run e (s.setPort { s.port with flight := rs }) = a.run e s := by
  induction a generalizing s with
  | complete ws =>
    simp only [run_complete, retire, setPort_port, writeRegs_flight]
    rfl
  | raise c info => rfl
  | access q k ih => exact ih _ (s.setShared (perform e s.shared q).2)

/-- A command run to its end leaves no command in flight. -/
theorem run_flight (e : Env) (a : Act) (s : State) : (a.run e s).port.flight = [] := by
  obtain ⟨g, ⟨ws, hr⟩ | ⟨c, info, hr⟩⟩ := run_cases e a s <;> simp [hr]

theorem accessTimes_succ {s t : State} (h : accessStep s = .next t) (n : Nat) :
    accessTimes (n + 1) s = accessTimes n t := by simp [accessTimes, h]

/-- After an access the command has left what followed from the answer. -/
theorem planLeft_once {s : State} {i : Instr} {q : Access} {k : Ans → Act}
    (h : planLeft Config.env i s = .access q k) :
    planLeft Config.env i ((Act.access q k).once Config.env s) = k (perform Config.env s.shared q).1 := by
  have hplan : plan Config.env i ((Act.access q k).once Config.env s) = plan Config.env i s := plan_congr _ _ rfl rfl rfl
  rw [planLeft] at h ⊢
  rw [hplan, Act.once, setPort_port, resume_concat, h, Act.resume, resume_nil]

/-- What is left of a command is run in one go by as many accesses as it makes, and one for its completion. -/
theorem accessTimes_run {w : Cmd} {i : Instr} (hd : decode w = .ok i) (a : Act) (s : State)
    (hb : statusBusy s.port.status = true) (hf : s.port.fetch = some w) (ha : planLeft Config.env i s = a) :
    ∃ n, accessTimes n s = .next (a.run Config.env s) := by
  have hstep : accessStep s = .next (a.once Config.env s) := ha ▸ accessStep_of_decode hb hf hd
  induction a generalizing s with
  | complete ws => exact ⟨1, accessTimes_succ hstep 0⟩
  | raise c info => exact ⟨1, accessTimes_succ hstep 0⟩
  | access q k ih =>
    have hleft := planLeft_once ha
    obtain ⟨n, hn⟩ := ih (perform Config.env s.shared q).1 ((Act.access q k).once Config.env s) hb hf hleft
      (hleft ▸ accessStep_of_decode (s := (Act.access q k).once Config.env s) hb hf hd)
    refine ⟨n + 1, ?_⟩
    rw [accessTimes_succ hstep, hn]
    exact congrArg _ (run_setPort_flight _ _ (s.setShared (perform Config.env s.shared q).2) _)

/-- Settles O49, by induction on what is left of the command; an illegal word needs one access. -/
theorem accessesMakeTheStep : Obligations.AccessesMakeTheStep := by
  intro s hb hw
  obtain ⟨w, hf⟩ := Option.ne_none_iff_exists'.1 hw
  cases hd : decode w with
  | ok i =>
    obtain ⟨n, hn⟩ := accessTimes_run hd _ s hb hf rfl
    exact ⟨n, _, hn, step_of_decode hb hf hd, run_flight _ _ _⟩
  | error x =>
    have hmove : ∀ f, PortMove f s (enterFault .illegalCmd 0 s) := fun f => .illegal hb hf hd
    exact ⟨1, _, accessTimes_succ (accessStep_eq_next_iff.2 (hmove _)) 0, step_eq_next_iff.2 (hmove _), rfl⟩

/-! ### The first source without a value (60_exceptions.md R108) -/

/-- A command that first reads the registers `rs` as its sources, in this order. -/
inductive ReadsFirst (s : State) : List RegNo → Act → Prop
  | nil (a : Act) : ReadsFirst s [] a
  | cons {r : RegNo} {rs : List RegNo} {k : Word → Act} (h : ∀ v, ReadsFirst s rs (k v)) :
      ReadsFirst s (r :: rs) (source s r k)

/-- Every command reads its sources first. -/
theorem plan_readsFirst (e : Env) (i : Instr) (s : State) : ReadsFirst s (sources i) (plan e i s) := by
  cases i with
  | mixnum | randbytes | feed => exact .cons fun _ => .cons fun _ => .nil _
  | mixptr => exact .cons fun _ => .nil _
  | rhash | shash | shash128 => exact .cons fun _ => .cons fun _ => .cons fun _ => .nil _
  | shash128b => exact .cons fun _ => .cons fun _ => .cons fun _ => .cons fun _ => .nil _
  | rand64 | reseed => exact .nil _

/-- The first of the sources without a value raises `UNDEF_REG`. -/
theorem ReadsFirst.raises {s : State} {pre post : List RegNo} {r : RegNo} {a : Act}
    (hpre : ∀ q ∈ pre, s.port.readReg q ≠ none) (hr : s.port.readReg r = none)
    (h : ReadsFirst s (pre ++ r :: post) a) : a = .raise .undefReg (BitVec.ofNat 64 r.val) := by
  induction pre generalizing a with
  | nil => cases h with | cons h => exact source_none hr
  | cons q pre ih =>
    cases h with
    | cons h =>
      obtain ⟨v, hv⟩ := Option.ne_none_iff_exists'.1 (hpre q List.mem_cons_self)
      rw [source_some hv]
      exact ih (fun x hx => hpre x (List.mem_cons_of_mem _ hx)) (h v)

/-- Settles O10: every command reads its sources before anything else. -/
theorem firstUnwrittenSourceRaisesUndefReg : Obligations.FirstUnwrittenSourceRaisesUndefReg := by
  intro i s pre post r hi hpre hr
  have hplan := plan_readsFirst Config.env i s
  rw [hi] at hplan
  exact ⟨_, exec_raise (hplan.raises hpre hr), tookFault_enterFault _ _ s⟩

/-! ### The bits of `CFG` (10_state.md R25) -/

/-- Bit `j` of `CFG`. -/
theorem cfgRegister_getLsbD (c : Cfg) (j : Nat) : (cfgRegister c).getLsbD j =
    if j = 1 then c.hasRusage else if j = 0 then c.useStableHashForRiskyHash
    else decide (8 ≤ j) && (BitVec.ofNat 8 c.nports).getLsbD (j - 8) := by
  rw [cfgRegister, setBit_getLsbD _ _ _ _ (by decide), setBit_getLsbD _ _ _ _ (by decide)]
  have hport : ((BitVec.ofNat 8 c.nports).setWidth 64 <<< 8).getLsbD j =
      (decide (8 ≤ j) && (BitVec.ofNat 8 c.nports).getLsbD (j - 8)) := by
    by_cases h8 : 8 ≤ j
    · by_cases h16 : j < 16
      · simp [h8, show ¬ j < 8 by omega, show j < 64 by omega]
      · simp [BitVec.getLsbD_of_ge (BitVec.ofNat 8 c.nports) (j - 8) (by omega)]
    · simp [h8, show j < 8 by omega]
  rw [hport]

/-- Settles O57, by the value of each bit. -/
theorem cfgRegisterBits : Obligations.CfgRegisterBits := by
  intro c
  refine ⟨cfgRegister_getLsbD c 0, cfgRegister_getLsbD c 1, ?_, fun j h2 h8 => ?_, fun j h16 => ?_⟩
  · have hfield : (cfgRegister c).extractLsb' 8 8 = BitVec.ofNat 8 c.nports := by
      ext j hj
      rw [BitVec.getElem_extractLsb', cfgRegister_getLsbD, if_neg (by omega), if_neg (by omega)]
      simp [BitVec.getLsbD_eq_getElem hj]
    rw [hfield, BitVec.toNat_ofNat, Nat.mod_eq_of_lt (Nat.lt_succ_of_le c.nports_le)]
  · rw [cfgRegister_getLsbD, if_neg (by omega), if_neg (by omega), decide_eq_false (by omega), Bool.false_and]
  · rw [cfgRegister_getLsbD, if_neg (by omega), if_neg (by omega), BitVec.getLsbD_of_ge _ _ (by omega), Bool.and_false]

/-! ### The accesses of a reseed and of a draw (43_prng.md R94, R98) -/

section Trace
variable (e : Env) (h : Shared) (i : Lane) (v : Word) (k : Act) (kw : Word → Act)

@[simp] theorem trace_complete (ws : List (RegNo × Word)) : (Act.complete ws).trace e h = [] := rfl
@[simp] theorem trace_readL : (readL i kw).trace e h = .readL i :: (kw (h.prng.lanes.get i)).trace e h := rfl
@[simp] theorem trace_writeL : (writeL i v k).trace e h =
    .writeL i v :: k.trace e (h.setPrng { h.prng with lanes := h.prng.lanes.set i v }) := rfl
@[simp] theorem trace_readCnt : (readCnt kw).trace e h = .readCnt :: (kw h.prng.cnt).trace e h := rfl
@[simp] theorem trace_writeCnt : (writeCnt v k).trace e h =
    .writeCnt v :: k.trace e (h.setPrng { h.prng with cnt := v }) := rfl
@[simp] theorem trace_readF : (readF i kw).trace e h = .readF i :: (kw (h.prng.feed.get i)).trace e h := rfl
@[simp] theorem trace_writeF : (writeF i v k).trace e h =
    .writeF i v :: k.trace e (h.setPrng { h.prng with feed := h.prng.feed.set i v }) := rfl
@[simp] theorem trace_clock : (clock kw).trace e h = .clock :: (kw (clockNext e h.clock)).trace e
    { h with clock := { last := clockNext e h.clock, calls := h.clock.calls + 1 } } := rfl
@[simp] theorem trace_rusage (kb : List Byte → Act) : (rusage kb).trace e h =
    .rusage :: (kb (snapshot e h.rusageCalls)).trace e { h with rusageCalls := h.rusageCalls + 1 } := rfl

end Trace

/-- The accesses of `m` jitter samples, the first of them number `i`, from clock and lanes 0 and 1 `x` on. -/
def jitterTrace (e : Env) (cnt : Word) (m i : Nat) (x : Clock × Word × Word) : List Access :=
  (List.range m).flatMap fun n =>
    [.clock, .readCnt, .readL 0, .writeL 0 (jitterLoop e cnt (n + 1) i x).2.1,
      .readL 1, .writeL 1 (jitterLoop e cnt (n + 1) i x).2.2]

/-- The accesses of `m` jitter samples, and what they leave (`run_jitter`). -/
theorem trace_jitter (e : Env) (m i : Nat) (k : Act) (h : Shared) :
    (jitter e.cfg m i k).trace e h =
      let x := (h.clock, h.prng.lanes.get 0, h.prng.lanes.get 1)
      let j := jitterLoop e h.prng.cnt m i x
      jitterTrace e h.prng.cnt m i x ++
      k.trace e { h with clock := j.1, prng := { h.prng with lanes := (h.prng.lanes.set 0 j.2.1).set 1 j.2.2 } } := by
  induction m generalizing i h with
  | zero =>
    have hl : (h.prng.lanes.set 0 (h.prng.lanes.get 0)).set 1 (h.prng.lanes.get 1) = h.prng.lanes := by
      apply Quad.ext4 <;> simp [Quad.get_set]
    simp only [jitter, jitterLoop, jitterTrace, List.range_zero, List.flatMap_nil, List.nil_append, hl]
  | succ m ih =>
    have hl : ∀ (v : Quad) a b c d, (((v.set 0 a).set 1 b).set 0 c).set 1 d = (v.set 0 c).set 1 d := by
      intros; apply Quad.ext4 <;> simp [Quad.get_set]
    simp only [jitter, trace_clock, trace_readCnt, trace_readL, trace_writeL, ih, jitterLoop, jitterTrace,
      List.range_succ_eq_map, List.flatMap_cons, List.flatMap_map]
    simp [Shared.setPrng, Quad.get_set, hl]

/-- The accesses of a reseed, with the values written. -/
def reseedTrace (e : Env) (h : Shared) : List Access :=
  let p := h.prng
  let ns := sampleCount (p.lanes.get 0)
  let x := (h.clock, p.lanes.get 0, p.lanes.get 1)
  let j := jitterLoop e p.cnt ns 0 x
  let h0 := j.2.1 ^^^ riskyHash e.cfg (snapshot e h.rusageCalls) j.2.1
  let l0 := if e.cfg.hasRusage then h0 else j.2.1
  let l1 := j.2.2
  let g0 := rotl64 (p.feed.get 0) e.cfg.feedRot0
  let g1 := rotl64 (p.feed.get 1) e.cfg.feedRot1
  let usage : List Access := if e.cfg.hasRusage then [.rusage, .readL 0, .writeL 0 h0] else []
  let feedMix : List Access :=
    [.readF 0, .readF 1, .readF 2, .readF 3, .readL 0, .readL 1,
      .readL 2, .writeL 2 (p.lanes.get 2 ^^^ (e.cfg.mixNumeral (p.feed.get 0) l0 + e.cfg.mixNumeral (p.feed.get 1) l1)),
      .readL 3, .writeL 3 (p.lanes.get 3 ^^^ (e.cfg.mixNumeral (p.feed.get 2) l0 + e.cfg.mixNumeral (p.feed.get 3) l1)),
      .writeF 0 g0, .writeF 1 g1, .writeF 2 (p.feed.get 2 ^^^ g0), .writeF 3 (p.feed.get 3 ^^^ g1),
      .readCnt, .writeCnt (p.cnt + BitVec.ofNat 64 ns)]
  .readL 0 :: jitterTrace e p.cnt ns 0 x ++ usage ++ feedMix

/-- The accesses of a reseed, and what it leaves (`run_reseed`). -/
theorem trace_reseed (e : Env) (k : Act) (h : Shared) :
    (reseed e.cfg k).trace e h = reseedTrace e h ++ k.trace e (reseeded e h) := by
  unfold reseed
  rw [trace_readL, trace_jitter]
  unfold mixRusage mixFeed reseeded reseedTrace
  cases hr : e.cfg.hasRusage
  all_goals
    simp only [Bool.false_eq_true, if_false, if_true, trace_rusage, trace_readL, trace_writeL, trace_readF, trace_writeF,
      trace_readCnt, trace_writeCnt, Shared.setPrng]
    simp [Quad.get_set]
    congr 2
    congr 2 <;> (apply Quad.ext4 <;> simp [Quad.get_set])

/-- The accesses of a draw from its second read of `S.CNT` on. -/
def drawLanesTrace (c : Cfg) (p : Prng) : List Access :=
  .readCnt :: (List.finRange 4).flatMap fun i => [.readL i, .writeL i (laneNext c i (p.lanes.get i) p.cnt)]

/-- The accesses of the lane updates of a draw, and what they leave (`run_drawLanes`). -/
theorem trace_drawLanes (e : Env) (c : Cfg) (k : Word → Act) (h : Shared) :
    (drawLanes c k).trace e h = drawLanesTrace c h.prng ++
      (k (drawnValue c h.prng)).trace e (h.setPrng { h.prng with lanes := drawnLanes c h.prng }) := by
  have hr : List.finRange 4 = [0, 1, 2, 3] := by decide
  simp only [drawLanes, updateLane, trace_readCnt, trace_readL, trace_writeL, Shared.setPrng, drawLanesTrace, hr]
  simp [Quad.get_set, drawnValue]
  congr 3
  apply Quad.ext4 <;> simp [drawnLanes, Quad.get_set]

/-- A reseed on its own leaves what is shared as `reseeded` says. -/
theorem exec_reseed_shared {s u : State} (h : exec .reseed s = .next u) : u.shared = reseeded Config.env s.shared := by
  have hu : u = (reseed Config.env.cfg (.complete [])).run Config.env s := by
    rw [exec_eq_runWhole] at h
    cases h
    rfl
  rw [hu, run_reseed, run_complete, retire_shared, setShared_shared]

/-- Settles O45: the accesses of RESEED and of RAND64 with and without a reseed, by the lemma of each part. -/
theorem prngAccessOrder : Obligations.PrngAccessOrder := by
  intro s rd
  refine ⟨?_, fun hdue => ?_, fun hdue u hu => ?_⟩
  · exact (trace_reseed Config.env (.complete []) s.shared).trans (List.append_nil _)
  · have hnot : reseedDue (s.shared.prng.cnt + 1) = false := by simpa [reseedDue, Config.reseedPeriod] using hdue
    simp only [plan, planRand64, trace_draw, hnot, Bool.false_eq_true, if_false, trace_drawLanes, trace_complete,
      List.append_nil]
    rfl
  · have hyes : reseedDue (s.shared.prng.cnt + 1) = true := by simpa [reseedDue, Config.reseedPeriod] using hdue
    simp only [plan, planRand64, planReseed, trace_draw, hyes, if_true, trace_reseed, trace_drawLanes, trace_complete,
      List.append_nil, exec_reseed_shared hu]
    rfl

end Sys2Proof.Machine

/-! Data memory (20_memory.md): the admission of buffers, the faults of buffer commands, packing, the byte accesses of
commands, and the benign race on the PRNG words. -/

namespace Sys2Proof.Machine

/-! ### Admission (20_memory.md R36) -/

/-- The byte addresses that the check looks at are those of the range that do not wrap. -/
theorem lt_min_sub_iff {n j : Nat} {a : Word} : j < min n (2 ^ 64 - a.toNat) ↔ j < n ∧ a.toNat + j < 2 ^ 64 := by
  omega

/-- The check by its two parts: a byte that is not `Ok`, and, where there is none, the wrap. -/
theorem rejected_eq (admits : List Region) (k : AccessKind) (a : Word) (n : Nat) :
    rejected admits k a n = ((firstBad admits k a.toNat (min n (2 ^ 64 - a.toNat))).map (BitVec.ofNat 64)).or
      (if 2 ^ 64 < a.toNat + n then some 0 else none) := by
  unfold rejected
  rw [show Config.addrW = 64 from rfl]
  cases firstBad admits k a.toNat (min n (2 ^ 64 - a.toNat)) <;> rfl

/-- Nothing is rejected exactly when the range does not wrap and every byte of it is `Ok`. -/
theorem rejected_eq_none_iff {admits : List Region} {k : AccessKind} {a : Word} {n : Nat} :
    rejected admits k a n = none ↔ Admit admits k a n := by
  rw [rejected_eq, Option.or_eq_none_iff, Option.map_eq_none_iff, firstBad_eq_none, Admit]
  simp only [lt_min_sub_iff, ite_eq_right_iff, reduceCtorEq, imp_false, not_lt]
  constructor
  · rintro ⟨hok, hfit⟩
    exact ⟨hfit, fun j hj => hok j ⟨hj, by omega⟩⟩
  · rintro ⟨hfit, hok⟩
    exact ⟨fun j hj => hok j hj.1, hfit⟩

/-- The address that is named is the first rejected one. -/
theorem rejected_eq_some_iff {admits : List Region} {k : AccessKind} {a b : Word} {n : Nat} :
    rejected admits k a n = some b ↔ FirstRejected admits k a n b := by
  rw [rejected_eq, Option.or_eq_some_iff, Option.map_eq_some_iff, Option.map_eq_none_iff, firstBad_eq_none,
    FirstRejected]
  simp only [firstBad_eq_some, lt_min_sub_iff, Option.ite_none_right_eq_some, Option.some.injEq]
  refine or_congr ⟨?_, ?_⟩ ⟨?_, ?_⟩
  · rintro ⟨_, ⟨j, ⟨hj, hlt⟩, rfl, hbad, hbefore⟩, rfl⟩
    exact ⟨j, hj, hlt, rfl, hbad, hbefore⟩
  · rintro ⟨j, hj, hlt, rfl, hbad, hbefore⟩
    exact ⟨_, ⟨j, ⟨hj, hlt⟩, rfl, hbad, hbefore⟩, rfl⟩
  · rintro ⟨hok, hwrap, rfl⟩
    exact ⟨fun j hj hlt => hok j ⟨hj, hlt⟩, hwrap, rfl⟩
  · rintro ⟨hok, hwrap, rfl⟩
    exact ⟨fun j hj => hok j hj.1 hj.2, hwrap, rfl⟩

/-- A host move leaves the launch's admission. -/
theorem hostMove_admits {e : Env} {s t : State} {m : HostMove} {r : HostReply} (h : hostMove e s m = some (r, t)) :
    t.admits = s.admits := by
  have hport : ∀ {n f}, hostPortMove s n f = some (r, t) → t.admits = s.admits := fun h => by
    obtain ⟨p, q, -, -, rfl⟩ := hostPortMove_eq_some.1 h
    exact replacePort_admits s _ q
  cases m with
  | writeReg | readReg | submit | readStatus =>
    simp only [hostMove] at h
    exact hport h
  | readCfg | reset => cases h; rfl
  | prngRead | prngWrite | memWrite | memRead =>
    obtain ⟨-, h⟩ := Option.ite_none_right_eq_some.1 h
    cases h
    rfl

/-- A move of a port leaves the launch's admission. -/
theorem PortMove.admits {f : Act → State → State} (hf : ∀ a s, (f a s).admits = s.admits) {s t : State}
    (h : PortMove f s t) : t.admits = s.admits := by
  cases h with
  | command => exact hf _ s
  | idle | illegal | endStream => rfl

/-- Settles O13: the check finds what R36 defines, and no move of a port or of the host sets the admission. -/
theorem admissionCheckIsTheSpecs : Obligations.AdmissionCheckIsTheSpecs := by
  refine ⟨fun admits k a n => ⟨rejected_eq_none_iff, fun b => rejected_eq_some_iff, a.isLt.le, by simp⟩, ?_⟩
  intro ev s t h
  obtain ⟨n, u, -, hu, hm⟩ | ⟨n, u, -, hu, hm⟩ | ⟨m, r, -, hm⟩ := event_apply_iff.1 h
  · exact (hm.admits fun a s => (run_frame _ a s).2.2).trans (focus_frame hu).1
  · exact (hm.admits fun a s => by cases a <;> rfl).trans (focus_frame hu).1
  · exact hostMove_admits hm

/-! ### The checks of the buffer commands (60_exceptions.md R108) -/

/-- The hash commands that leave their digest in registers, of buffer `x[ra]` of length `x[rb]` with seed `x[rc]`. -/
def registerHashes (rd re ra rb rc : RegNo) : List Instr :=
  [.rhash rd ra rb rc, .shash rd ra rb rc, .shash128 rd re ra rb rc]

section Plans
variable {e : Env} {s : State} {rd re ra rb rc : RegNo} {a n seed d : Word}

/-- With its registers written, such a command checks its buffer, reads it and completes. -/
theorem plan_hash {i : Instr} (hi : i ∈ registerHashes rd re ra rb rc)
    (ha : s.port.readReg ra = some a) (hb : s.port.readReg rb = some n) (hc : s.port.readReg rc = some seed) :
    ∃ ws : List Byte → List (RegNo × Word), plan e i s = notNull a n.toNat
      (admitted s .read a n.toNat (readBytes n.toNat a fun bs => .complete (ws bs))) := by
  simp only [registerHashes, List.mem_cons, List.not_mem_nil, or_false] at hi
  rcases hi with rfl | rfl | rfl
  all_goals
    simp only [plan, planRhash, planShash, planShash128, source_some ha, source_some hb, source_some hc]
    exact ⟨_, rfl⟩

/-- With its registers written, SHASH128B checks its buffer and its destination, reads the one and writes the other. -/
theorem plan_shash128b (ha : s.port.readReg ra = some a) (hb : s.port.readReg rb = some n)
    (hc : s.port.readReg rc = some seed) (hd : s.port.readReg re = some d) :
    plan e (.shash128b re ra rb rc) s = notNull a n.toNat (notNull d 16
      (admitted s .read a n.toNat (admitted s .write d 16 (readBytes n.toNat a fun bs =>
        writeBytes (leBytes (stableHash128 e.cfg bs seed).1 ++ leBytes (stableHash128 e.cfg bs seed).2) d
          (.complete []))))) := by
  simp only [plan, planShash128b, source_some ha, source_some hb, source_some hc, source_some hd]

theorem plan_randbytes (ha : s.port.readReg ra = some a) (hb : s.port.readReg rb = some n) :
    plan e (.randbytes ra rb) s = notNull a n.toNat
      (admitted s .write a n.toNat (randBytes e.cfg a n.toNat (.complete []))) := by
  simp only [plan, planRandbytes, source_some ha, source_some hb]

theorem plan_feed (ha : s.port.readReg ra = some a) (hb : s.port.readReg rb = some n) :
    plan e (.feed ra rb) s = notNull a (n &&& 1023).toNat
      (admitted s .read a (n &&& 1023).toNat (feed a (n &&& 1023).toNat (.complete []))) := by
  simp only [plan, planFeed, source_some ha, source_some hb, Config.feedMask]

end Plans

/-- A command that has come to a fault takes it. -/
theorem exec_takes {i : Instr} {s : State} {c : Cause} {info : Word} (h : plan Config.env i s = .raise c info) :
    ∃ t, exec i s = .next t ∧ TookFault c info s t := ⟨_, exec_raise h, tookFault_enterFault c info s⟩

theorem toNat_eq_zero_of_null {a n : Word} (h : a = 0 → n = 0) : a = 0 → n.toNat = 0 := fun ha => by rw [h ha]; rfl

/-- A range whose first rejected address is `b` raises `MEM_FAULT` with `b`. -/
theorem admitted_of_firstRejected {s : State} {kind : AccessKind} {a b : Word} {n : Nat} {k : Act}
    (h : FirstRejected s.admits kind a n b) : admitted s kind a n k = .raise .memFault b :=
  admitted_rejected (rejected_eq_some_iff.2 h)

/-- A range that may be used passes both checks. -/
theorem Usable.passes {s : State} {kind : AccessKind} {a : Word} {n : Nat} (h : Usable s kind a n) (k : Act) :
    notNull a n k = k ∧ admitted s kind a n k = k :=
  ⟨notNull_of h.1, admitted_of (rejected_eq_none_iff.2 h.2)⟩

/-- Settles O12: each command comes to the check of the range with every check before it passed. -/
theorem rejectedRangeRaisesMemFault : Obligations.RejectedRangeRaisesMemFault := by
  intro s rd re ra rb rc a n b ha hb
  refine ⟨fun seed hnull hc hrej => ?_, fun seed d hc hd hd0 huse hrej => exec_takes ?_,
    fun hnull hrej => exec_takes ?_, fun hnull hrej => exec_takes ?_⟩
  · have hhash : ∀ i ∈ registerHashes rd re ra rb rc,
        ∃ t, exec i s = .next t ∧ TookFault .memFault b s t := fun i hi => by
      obtain ⟨ws, hp⟩ := plan_hash (e := Config.env) hi ha hb hc
      exact exec_takes (by rw [hp, notNull_of (toNat_eq_zero_of_null hnull), admitted_of_firstRejected hrej])
    refine ⟨hhash _ (by simp [registerHashes]), hhash _ (by simp [registerHashes]), hhash _ (by simp [registerHashes]),
      fun d hd hd0 => exec_takes ?_⟩
    rw [plan_shash128b ha hb hc hd, notNull_of (toNat_eq_zero_of_null hnull), notNull_of (absurd · hd0),
      admitted_of_firstRejected hrej]
  · rw [plan_shash128b ha hb hc hd, (huse.passes _).1, notNull_of (absurd · hd0), (huse.passes _).2,
      admitted_of_firstRejected hrej]
  · rw [plan_randbytes ha hb, notNull_of (toNat_eq_zero_of_null hnull), admitted_of_firstRejected hrej]
  · rw [plan_feed ha hb, notNull_of (toNat_eq_zero_of_null hnull), admitted_of_firstRejected hrej]

/-! ### The null-buffer rule (20_memory.md R42) -/

/-- The rest of a command does not raise `NULL_BUFFER` before its next access. -/
def Act.NoNullBuffer (a : Act) : Prop := ∀ info, a ≠ .raise .nullBuffer info

theorem Act.Quiet.noNullBuffer {a : Act} (h : a.Quiet) : a.NoNullBuffer := by
  rintro info rfl
  exact h

theorem noNullBuffer_source {s : State} {i : RegNo} {k : Word → Act}
    (h : ∀ v, s.port.readReg i = some v → (k v).NoNullBuffer) : (source s i k).NoNullBuffer := by
  cases hv : s.port.readReg i with
  | none =>
    rw [source_none hv]
    intro info
    simp
  | some v =>
    rw [source_some hv]
    exact h v hv

theorem noNullBuffer_notNull {a : Word} {n : Nat} {k : Act} (hn : a = 0 → n = 0) (h : k.NoNullBuffer) :
    (notNull a n k).NoNullBuffer := by rwa [notNull_of hn]

theorem noNullBuffer_admitted {s : State} {kind : AccessKind} {a : Word} {n : Nat} {k : Act} (h : k.NoNullBuffer) :
    (admitted s kind a n k).NoNullBuffer := by
  cases hr : rejected s.admits kind a n with
  | none => rwa [admitted_of hr]
  | some b =>
    rw [admitted_rejected hr]
    intro info
    simp

/-- The buffer commands, with buffer `x[ra]` of length `x[rb]`. -/
def bufferCommands (rd re ra rb rc : RegNo) : List Instr :=
  [.rhash rd ra rb rc, .shash rd ra rb rc, .shash128 rd re ra rb rc, .shash128b re ra rb rc, .randbytes ra rb,
    .feed ra rb]

/-- With effective length 0, and no destination at address 0, no buffer command raises `NULL_BUFFER`. -/
theorem plan_noNullBuffer {e : Env} {s : State} {i : Instr} {rd re ra rb rc : RegNo} {n : Word}
    (hb : s.port.readReg rb = some n) (hn : n = 0 ∨ n &&& 1023 = 0 ∧ i = .feed ra rb)
    (hd : ∀ d, s.port.readReg re = some d → d ≠ 0) (hi : i ∈ bufferCommands rd re ra rb rc) :
    (plan e i s).NoNullBuffer := by
  have hbuffer : ∀ {a : Word} {m : Nat} {kind : AccessKind} {k : Act}, m = 0 → k.Quiet →
      (notNull a m (admitted s kind a m k)).NoNullBuffer := fun hm hk =>
    noNullBuffer_notNull (fun _ => hm) (noNullBuffer_admitted hk.noNullBuffer)
  have hlen : ∀ {v : Word}, s.port.readReg rb = some v → n = 0 → v.toNat = 0 := fun hv h0 => by
    cases hb.symm.trans hv
    rw [h0]
    rfl
  simp only [bufferCommands, List.mem_cons, List.not_mem_nil, or_false] at hi
  rcases hi with rfl | rfl | rfl | rfl | rfl | rfl
  iterate 3
    · exact noNullBuffer_source fun a _ => noNullBuffer_source fun v hv => noNullBuffer_source fun _ _ =>
        hbuffer (hlen hv (by simpa using hn)) (quiet_readBytes fun _ => quiet_complete _)
  · exact noNullBuffer_source fun a _ => noNullBuffer_source fun v hv => noNullBuffer_source fun _ _ =>
      noNullBuffer_source fun d hre => noNullBuffer_notNull (fun _ => hlen hv (by simpa using hn)) <|
      noNullBuffer_notNull (absurd · (hd d hre)) <| noNullBuffer_admitted <| noNullBuffer_admitted
        (quiet_readBytes fun _ => quiet_writeBytes (quiet_complete _)).noNullBuffer
  · exact noNullBuffer_source fun a _ => noNullBuffer_source fun v hv =>
      hbuffer (hlen hv (by simpa using hn)) (quiet_randBytes (quiet_complete _))
  · have hmask : n &&& 1023 = 0 := by
      rcases hn with rfl | ⟨h, -⟩
      · rfl
      · exact h
    refine noNullBuffer_source fun a _ => noNullBuffer_source fun v hv => hbuffer ?_ (quiet_feed (quiet_complete _))
    cases hb.symm.trans hv
    rw [Config.feedMask, hmask]
    rfl

theorem Cause.code_injective : Function.Injective Cause.code := by
  intro c d h
  cases c <;> cases d <;> simp [Cause.code] at h ⊢

/-- Completing a command sets no fault. -/
@[simp] theorem statusFault_retire (ws : List (RegNo × Word)) (s : State) :
    statusFault (retire ws s).port.status = statusFault s.port.status := by
  obtain ⟨-, -, hstatus, -⟩ := Port.writeRegs_frame ws s.port
  rw [retire_port, advance_status, hstatus]
  split <;> simp

/-- The cause a command leaves where it had not faulted before is the one it raises. -/
theorem raises_of_exec {i : Instr} {s t : State} {c : Cause} (hs : statusFault s.port.status = false)
    (h : exec i s = .next t) (ht : statusFault t.port.status = true) (hc : statusCause t.port.status = c.code) :
    ∃ info, plan Config.env i s = .raise c info := by
  rcases exec_cases h with ⟨c', info, hp, rfl⟩ | ⟨-, g, ws, rfl⟩
  · obtain rfl : c' = c := Cause.code_injective (by simpa using hc)
    exact ⟨info, hp⟩
  · rw [statusFault_retire, setShared_port, hs] at ht
    cases ht

/-- Settles O11: the null-buffer rule comes after the sources and before everything else. -/
theorem nullBufferRaisesNullBuffer : Obligations.NullBufferRaisesNullBuffer := by
  refine ⟨fun s rd re ra rb rc n seed ha hb => ⟨fun h0 hc => ?_, fun d h0 hc hd => exec_takes ?_,
    fun h0 => exec_takes ?_, fun h0 => exec_takes ?_⟩,
    fun s re ra rb rc a n seed ha hb hc hd => exec_takes ?_,
    fun s t i rd re ra rb rc n hs hb hn hd hi h ht hcause => ?_⟩
  · have hhash : ∀ i ∈ registerHashes rd re ra rb rc,
        ∃ t, exec i s = .next t ∧ TookFault .nullBuffer 0 s t := fun i hi => by
      obtain ⟨ws, hp⟩ := plan_hash (e := Config.env) hi ha hb hc
      exact exec_takes (by rw [hp, notNull_zero h0])
    exact ⟨hhash _ (by simp [registerHashes]), hhash _ (by simp [registerHashes]), hhash _ (by simp [registerHashes])⟩
  · rw [plan_shash128b ha hb hc hd, notNull_zero h0]
  · rw [plan_randbytes ha hb, notNull_zero h0]
  · rw [plan_feed ha hb, notNull_zero h0]
  · rw [plan_shash128b ha hb hc hd, notNull_zero (n := 16) (by decide), notNull]
    exact ite_self _
  · obtain ⟨info, hp⟩ := raises_of_exec hs h ht hcause
    exact plan_noNullBuffer hb hn hd hi info hp

/-! ### Packing (20_memory.md R37 to R39, 40_mixing.md R64, R65) -/

theorem leNat_lt (bs : List Byte) : leNat bs < 2 ^ (8 * bs.length) := by
  induction bs with
  | nil => decide
  | cons b bs ih =>
    rw [leNat, List.length_cons, Nat.mul_succ, Nat.pow_add]
    have hb := b.isLt
    omega

/-- Byte `j` of the number a byte string stands for. -/
theorem leNat_shiftRight (bs : List Byte) (j : Nat) : (leNat bs >>> (8 * j)) % 2 ^ 8 = (bs.getD j 0).toNat := by
  induction bs generalizing j with
  | nil => simp [leNat]
  | cons b bs ih =>
    have hb := b.isLt
    cases j with
    | zero =>
      rw [leNat, Nat.mul_zero, Nat.shiftRight_zero, List.getD_cons_zero]
      omega
    | succ j =>
      have htail : leNat (b :: bs) >>> 8 = leNat bs := by
        rw [leNat, Nat.shiftRight_eq_div_pow]
        omega
      rw [Nat.mul_succ, Nat.add_comm, Nat.shiftRight_add, htail, ih, List.getD_cons_succ]

theorem toNat_byteOf (v : Word) (j : Nat) : (byteOf v j).toNat = (v.toNat >>> (8 * j)) % 2 ^ 8 := by
  rw [byteOf, BitVec.toNat_setWidth, BitVec.toNat_ushiftRight]

/-- Up to eight bytes fit a word. -/
theorem toNat_packLe {bs : List Byte} (h : bs.length ≤ 8) : (packLe bs).toNat = leNat bs :=
  Nat.mod_eq_of_lt ((leNat_lt bs).trans_le (Nat.pow_le_pow_right (by decide) (by omega)))

/-- Packing is little-endian (20_memory.md R39). -/
theorem byteOf_packLe {bs : List Byte} (h : bs.length ≤ 8) (j : Nat) : byteOf (packLe bs) j = bs.getD j 0 :=
  BitVec.eq_of_toNat_eq (by rw [toNat_byteOf, toNat_packLe h, leNat_shiftRight])

/-- A word is its eight bytes. -/
theorem word_eq_of_byteOf {v w : Word} (h : ∀ j < 8, byteOf v j = byteOf w j) : v = w := by
  have hbit : ∀ (u : Word) (i : Nat), (byteOf u (i / 8)).getLsbD (i % 8) = u.getLsbD i := fun u i => by
    simp [byteOf, Nat.mod_lt, Nat.div_add_mod]
  refine BitVec.eq_of_getLsbD_eq fun i hi => ?_
  rw [← hbit v, ← hbit w, h _ (by omega)]

@[simp] theorem length_leBytes (v : Word) : (leBytes v).length = 8 := rfl

theorem getD_leBytes (v : Word) {j : Nat} (hj : j < 8) : (leBytes v).getD j 0 = byteOf v j := by
  simp [leBytes, hj]

/-- Settles O25: byte `j` of a packed word is byte `j` packed, and a word is its bytes. -/
theorem packingIsLittleEndian : Obligations.PackingIsLittleEndian := by
  refine ⟨fun bs h => ⟨fun j _ => byteOf_packLe h j, ?_⟩, rfl, fun v => word_eq_of_byteOf fun j hj => ?_⟩
  · rw [toNat_packLe h]
    exact leNat_lt bs
  · rw [byteOf_packLe (length_leBytes v).le, getD_leBytes v hj]

/-! ### The byte accesses of a command (20_memory.md R43) -/

/-- The reads of the `n` bytes from `a` on, in ascending order. -/
def byteReads (a : Word) (n : Nat) : List Access := (List.range n).map fun j => .readByte (a + BitVec.ofNat 64 j)

/-- The writes of `bs` from `a` on, in ascending order. -/
def byteWrites (a : Word) (bs : List Byte) : List Access :=
  (List.range bs.length).map fun j => .writeByte (a + BitVec.ofNat 64 j) (bs.getD j 0)

/-- Reads one run behind the other. -/
theorem byteReads_add (a : Word) (n m : Nat) :
    byteReads a (n + m) = byteReads a n ++ byteReads (a + BitVec.ofNat 64 n) m := by
  simp [byteReads, List.range_add, BitVec.ofNat_add, BitVec.add_assoc]

/-- Writes one run behind the other. -/
theorem byteWrites_append (a : Word) (bs cs : List Byte) :
    byteWrites a (bs ++ cs) = byteWrites a bs ++ byteWrites (a + BitVec.ofNat 64 bs.length) cs := by
  simp only [byteWrites, List.length_append, List.range_add, List.map_append, List.map_map]
  refine congrArg₂ _ (List.map_congr_left fun j hj => ?_) (List.map_congr_left fun j _ => ?_)
  · rw [List.getD_append _ _ _ _ (List.mem_range.1 hj)]
  · rw [Function.comp_apply, List.getD_append_right _ _ _ _ (Nat.le_add_right _ _), Nat.add_sub_cancel_left,
      BitVec.ofNat_add, ← BitVec.add_assoc]

theorem byteWrites_singleton (a : Word) (b : Byte) : byteWrites a [b] = [.writeByte a b] := by
  simp [byteWrites]

/-- Bytes written, each once and in order (20_memory.md R43), and what comes after them. -/
theorem trace_writeBytes (e : Env) (bs : List Byte) (a : Word) (k : Act) (h : Shared) :
    (writeBytes bs a k).trace e h =
      byteWrites a bs ++ k.trace e { h with mem := Memory.writeRange h.mem a bs } := by
  induction bs generalizing a h with
  | nil => rfl
  | cons b bs ih =>
    have hcons : byteWrites a (b :: bs) = .writeByte a b :: byteWrites (a + 1) bs := by
      rw [← List.singleton_append, byteWrites_append, byteWrites_singleton]
      rfl
    rw [hcons]
    exact congrArg _ (ih (a + 1) { h with mem := Memory.write h.mem a.toNat b })

/-- An access to data memory. -/
def Access.isByte : Access → Bool
  | .readByte _ | .writeByte _ _ => true
  | _ => false

/-- The accesses to data memory that a command makes when nobody moves between them, in order. -/
def Act.byteTrace (e : Env) (a : Act) (h : Shared) : List Access := (a.trace e h).filter Access.isByte

theorem filter_byteReads (a : Word) (n : Nat) : (byteReads a n).filter Access.isByte = byteReads a n :=
  List.filter_eq_self.2 (by simp [byteReads, Access.isByte])

theorem filter_byteWrites (a : Word) (bs : List Byte) : (byteWrites a bs).filter Access.isByte = byteWrites a bs :=
  List.filter_eq_self.2 (by simp [byteWrites, Access.isByte])

/-- A reseed accesses no byte. -/
theorem byteTrace_reseed (e : Env) (k : Act) (h : Shared) :
    (reseed e.cfg k).byteTrace e h = k.byteTrace e (reseeded e h) := by
  have hjitter : ∀ cnt m i x, (jitterTrace e cnt m i x).filter Access.isByte = [] := by
    simp [jitterTrace, List.filter_flatMap, Access.isByte]
  rw [Act.byteTrace, trace_reseed, List.filter_append, reseedTrace]
  cases hr : e.cfg.hasRusage <;> simp [hjitter, Access.isByte, Act.byteTrace]

/-- The lane updates of a draw access no byte. -/
theorem byteTrace_drawLanes (e : Env) (c : Cfg) (k : Word → Act) (h : Shared) :
    (drawLanes c k).byteTrace e h =
      (k (drawnValue c h.prng)).byteTrace e (h.setPrng { h.prng with lanes := drawnLanes c h.prng }) := by
  have hlanes : (drawLanesTrace c h.prng).filter Access.isByte = [] := by
    simp [drawLanesTrace, List.filter_flatMap, Access.isByte]
  rw [Act.byteTrace, trace_drawLanes, List.filter_append, hlanes]
  rfl

/-- A draw accesses no byte (`run_draw`). -/
theorem byteTrace_draw (e : Env) (k : Word → Act) (h : Shared) :
    (draw e.cfg k).byteTrace e h =
      (k (drawnValue e.cfg (beforeLanes e h).prng)).byteTrace e (drawn e h) := by
  change (if reseedDue (h.prng.cnt + 1) then reseed e.cfg (drawLanes e.cfg k) else drawLanes e.cfg k).byteTrace e
    (h.setPrng { h.prng with cnt := h.prng.cnt + 1 }) = _
  unfold drawn beforeLanes
  split
  · rw [byteTrace_reseed, byteTrace_drawLanes]
  · rw [byteTrace_drawLanes]

/-! ### What FEED reads (43_prng.md R100) -/

/-- The only bytes the command accesses are the `n` from `a` on, which it reads, whatever it finds. -/
def Act.ReadsBytes (e : Env) (a : Word) (n : Nat) (act : Act) : Prop := ∀ h, act.byteTrace e h = byteReads a n

section Reads
variable {e : Env} {a : Word} {n m : Nat} {o : BitVec 2}

theorem Act.ReadsBytes.congr {act : Act} (h : act.ReadsBytes e a m) (hmn : m = n) : act.ReadsBytes e a n := hmn ▸ h

theorem readsBytes_complete (ws : List (RegNo × Word)) : (Act.complete ws).ReadsBytes e a 0 := fun _ => rfl

theorem readsBytes_readFofs {k : BitVec 2 → Act} (h : ∀ o, (k o).ReadsBytes e a n) : (readFofs k).ReadsBytes e a n :=
  fun g => h _ g

theorem readsBytes_writeFofs {k : Act} (h : k.ReadsBytes e a n) : (writeFofs o k).ReadsBytes e a n := fun _ => h _

theorem readsBytes_feedWord {w : Word} {k : BitVec 2 → Act} (h : ∀ o, (k o).ReadsBytes e a n) :
    (feedWord w o k).ReadsBytes e a n := fun _ => h _ _

theorem readsBytes_readBytes {k : List Byte → Act} (h : ∀ bs, (k bs).ReadsBytes e (a + BitVec.ofNat 64 n) m) :
    (readBytes n a k).ReadsBytes e a (n + m) := fun g => by
  rw [Act.byteTrace, trace_readBytes, List.filter_append, byteReads_add]
  exact congrArg₂ _ (filter_byteReads a n) (h _ g)

theorem readsBytes_feedChunks {k : BitVec 2 → Act} (h : ∀ o, (k o).ReadsBytes e (a + BitVec.ofNat 64 (8 * m)) n) :
    (feedChunks m a o k).ReadsBytes e a (8 * m + n) := by
  induction m generalizing a o with
  | zero => simpa [feedChunks] using h o
  | succ m ih =>
    have haddr : a + BitVec.ofNat 64 (8 * (m + 1)) = a + BitVec.ofNat 64 8 + BitVec.ofNat 64 (8 * m) := by
      rw [Nat.mul_succ, Nat.add_comm, BitVec.ofNat_add, BitVec.add_assoc]
    rw [show 8 * (m + 1) + n = 8 + (8 * m + n) by omega]
    rw [haddr] at h
    exact readsBytes_readBytes fun _ => readsBytes_feedWord fun _ => ih h

theorem readsBytes_feed : (feed a n (.complete [])).ReadsBytes e a n := by
  unfold feed
  split
  · next h0 =>
    rw [h0]
    exact readsBytes_complete _
  · refine readsBytes_readFofs fun o => (readsBytes_feedChunks (n := n % 8) fun o => ?_).congr (Nat.div_add_mod n 8)
    split
    · next hr =>
      rw [hr]
      exact readsBytes_writeFofs (readsBytes_complete _)
    · exact readsBytes_readBytes (n := n % 8) (m := 0) fun _ => readsBytes_feedWord fun _ =>
        readsBytes_writeFofs (readsBytes_complete _)

end Reads

/-! ### What RANDBYTES writes (43_prng.md R101) -/

/-- The only bytes the command accesses are the `n` from `a` on, which it writes, whatever it finds. -/
def Act.WritesBytes (e : Env) (a : Word) (n : Nat) (act : Act) : Prop :=
  ∀ h, ∃ bs, bs.length = n ∧ act.byteTrace e h = byteWrites a bs

section Writes
variable {e : Env} {a : Word} {n m : Nat}

theorem writesBytes_complete (ws : List (RegNo × Word)) : (Act.complete ws).WritesBytes e a 0 :=
  fun _ => ⟨[], rfl, rfl⟩

theorem writesBytes_writeBytes {bs : List Byte} {k : Act} (hbs : bs.length = n)
    (h : k.WritesBytes e (a + BitVec.ofNat 64 n) m) : (writeBytes bs a k).WritesBytes e a (n + m) := fun g => by
  obtain ⟨cs, hcs, hk⟩ := h { g with mem := Memory.writeRange g.mem a bs }
  refine ⟨bs ++ cs, by rw [List.length_append, hbs, hcs], ?_⟩
  rw [Act.byteTrace, trace_writeBytes, List.filter_append, filter_byteWrites, byteWrites_append, hbs, ← hk]
  rfl

/-- A batch of draws gives 32 bytes. -/
theorem writesBytes_drawBatch {k : List Byte → Act} (h : ∀ bs, bs.length = 32 → (k bs).WritesBytes e a n) :
    (drawBatch e.cfg k).WritesBytes e a n := fun g => by
  simp only [drawBatch, byteTrace_draw]
  exact h _ rfl _

theorem writesBytes_fillBlocks {k : Word → Act}
    (h : (k (a + BitVec.ofNat 64 (32 * m))).WritesBytes e (a + BitVec.ofNat 64 (32 * m)) n) :
    (fillBlocks e.cfg m a k).WritesBytes e a (32 * m + n) := by
  induction m generalizing a with
  | zero => simpa [fillBlocks] using h
  | succ m ih =>
    have haddr : a + BitVec.ofNat 64 (32 * (m + 1)) = a + BitVec.ofNat 64 32 + BitVec.ofNat 64 (32 * m) := by
      rw [Nat.mul_succ, Nat.add_comm, BitVec.ofNat_add, BitVec.add_assoc]
    rw [show 32 * (m + 1) + n = 32 + (32 * m + n) by omega]
    rw [haddr] at h
    exact writesBytes_drawBatch fun bs hbs => writesBytes_writeBytes hbs (ih h)

theorem writesBytes_randBytes : (randBytes e.cfg a n (.complete [])).WritesBytes e a n := by
  have hfill : (randBytes e.cfg a n (.complete [])).WritesBytes e a (32 * (n / 32) + n % 32) := by
    refine writesBytes_fillBlocks ?_
    split
    · next hr =>
      rw [hr]
      exact writesBytes_complete _
    · exact writesBytes_drawBatch fun bs hbs => writesBytes_writeBytes (n := n % 32) (m := 0)
        (by rw [List.length_take, hbs]; omega) (writesBytes_complete _)
  rwa [Nat.div_add_mod] at hfill

end Writes

/-- Settles O44: after the checks, which access nothing, a hash command is its reads; FEED and RANDBYTES by what they
read and write. -/
theorem bytesAccessedOnceInOrder : Obligations.BytesAccessedOnceInOrder := by
  intro e s rd re ra rb rc a n reads isByte ha hb
  have hbyte : isByte = Access.isByte := funext fun q => by cases q <;> rfl
  refine ⟨fun seed hc huse => ?_, fun huse => ?_, fun huse => ?_⟩
  · have hhash : ∀ i ∈ registerHashes rd re ra rb rc,
        (plan e i s).trace e s.shared = byteReads a n.toNat := fun i hi => by
      obtain ⟨ws, hp⟩ := plan_hash (e := e) hi ha hb hc
      rw [hp, (huse.passes _).1, (huse.passes _).2, trace_readBytes, trace_complete, List.append_nil]
      rfl
    refine ⟨hhash _ (by simp [registerHashes]), hhash _ (by simp [registerHashes]), hhash _ (by simp [registerHashes]),
      fun d hd hd0 hadm => ?_⟩
    have hdst : Usable s .write d 16 := ⟨(absurd · hd0), hadm⟩
    rw [plan_shash128b ha hb hc hd, (huse.passes _).1, (hdst.passes _).1, (huse.passes _).2, (hdst.passes _).2,
      trace_readBytes, trace_writeBytes, trace_complete, List.append_nil]
    exact ⟨leBytes _ ++ leBytes _, rfl, rfl⟩
  · rw [hbyte, plan_feed ha hb, (huse.passes _).1, (huse.passes _).2]
    exact readsBytes_feed s.shared
  · rw [hbyte, plan_randbytes ha hb, (huse.passes _).1, (huse.passes _).2]
    obtain ⟨bs, hbs, hw⟩ := writesBytes_randBytes (e := e) (a := a) (n := n.toNat) s.shared
    exact ⟨bs, hbs, hw.trans (by rw [byteWrites, hbs])⟩

/-! ### Two ports in lockstep (20_memory.md R49) -/

/-- The busy port `p` has `act` left of the command at its `ci`, under admission `ad`. -/
structure Port.HasLeft (p : Port) (ad : List Region) (act : Act) : Prop where
  busy : statusBusy p.status = true
  left : ∃ w i, p.fetch = some w ∧ decode w = .ok i ∧
    ∀ s : State, s.port = p → s.admits = ad → planLeft Config.env i s = act

/-- After an access the port has left what follows from the answer. -/
theorem Port.HasLeft.answered {p : Port} {ad : List Region} {q : Access} {k : Ans → Act}
    (h : p.HasLeft ad (.access q k)) (r : Ans) : { p with flight := p.flight ++ [r] }.HasLeft ad (k r) := by
  obtain ⟨hb, w, i, hf, hd, hleft⟩ := h
  refine ⟨hb, w, i, hf, hd, fun s hp ha => ?_⟩
  have hplan : plan Config.env i s = plan Config.env i (s.setPort p) :=
    plan_congr _ _ (by rw [hp]; rfl) (by rw [hp]; rfl) rfl
  have hbefore : (plan Config.env i s).resume p.flight = .access q k := by
    rw [hplan]
    exact hleft (s.setPort p) rfl ha
  rw [planLeft, hp, resume_concat, hbefore]
  exact resume_nil _

/-- An access of port `n` is the next access of what it has left. -/
theorem access_apply {u : State} {n : Nat} {p : Port} {act : Act} (hn : u.ports[n]? = some p)
    (h : p.HasLeft u.admits act) :
    ∃ v, u.focus n = some v ∧ v.port = p ∧ (Event.access n).apply u = some (act.once Config.env v) := by
  obtain ⟨hlt, hget⟩ := List.getElem?_eq_some_iff.1 hn
  have hdrop : u.ports.drop n = p :: u.ports.drop (n + 1) := by rw [List.drop_eq_getElem_cons hlt, hget]
  have hfocus : u.focus n = some { u with before := u.ports.take n, port := p, after := u.ports.drop (n + 1) } := by
    rw [State.focus, hdrop]
  refine ⟨_, hfocus, rfl, event_apply_iff.2 (.inr (.inl ⟨n, _, rfl, hfocus, ?_⟩))⟩
  obtain ⟨hb, w, i, hf, hd, hleft⟩ := h
  exact hleft { u with before := u.ports.take n, port := p, after := u.ports.drop (n + 1) } rfl rfl ▸
    PortMove.command hb hf hd

theorem runEvents_cons {ev : Event} {s t : State} (h : ev.apply s = some t) (evs : List Event) :
    runEvents (ev :: evs) s = runEvents evs t := by simp [runEvents, h]

/-- Making the access again gives the same answer and changes nothing more. -/
def Access.Repeatable (q : Access) : Prop :=
  ∀ (e : Env) (h : Shared), perform e (perform e h q).2 q = perform e h q

/-- What an access of a command does to its port and to what is shared depends on nothing else. -/
theorem once_congr (e : Env) (act : Act) {s t : State} (hp : t.port = s.port) (hs : t.shared = s.shared) :
    (act.once e t).port = (act.once e s).port ∧ (act.once e t).shared = (act.once e s).shared := by
  cases act <;> simp [Act.once, hp, hs]

/-- What a command does to its port and to what is shared depends on nothing else. -/
theorem run_congr (e : Env) (act : Act) {s t : State} (hp : t.port = s.port) (hs : t.shared = s.shared) :
    (act.run e t).port = (act.run e s).port ∧ (act.run e t).shared = (act.run e s).shared := by
  induction act generalizing s t with
  | complete | raise => simp [hp, hs]
  | access q k ih =>
    simp only [Act.run, hs]
    exact ih _ hp rfl

/-- The access of the second of two ports, after the same of the first, does as if there had been no first. -/
theorem once_after_once (e : Env) {act : Act} (hrep : ∀ x k, act = .access x k → x.Repeatable) {s t : State}
    (hs : t.shared = (act.once e s).shared) :
    (act.once e t).port = (act.once e (s.setPort t.port)).port ∧ (act.once e t).shared = t.shared := by
  cases act with
  | complete | raise => exact ⟨by simp [Act.once], rfl⟩
  | access x k =>
    have hagain : perform e t.shared x = perform e s.shared x := by
      rw [hs]
      exact hrep x k rfl e s.shared
    simp only [Act.once, setPort_port, setPort_shared, setShared_shared, hagain, true_and]
    exact hs.symm

/-- Two ports with the same left of a command that next makes a repeatable access, or none, move in turn: each does as
if it were alone, and what is shared changes once. -/
theorem runEvents_round {u : State} {p q : Port} {act : Act} (hports : u.ports = [p, q]) (hp : p.HasLeft u.admits act)
    (hq : q.HasLeft u.admits act) (hrep : ∀ x k, act = .access x k → x.Repeatable) (evs : List Event) :
    ∃ t, runEvents ([.access 0, .access 1] ++ evs) u = runEvents evs t ∧ t.admits = u.admits ∧
      t.shared = (act.once Config.env (u.setPort p)).shared ∧
      t.ports = [(act.once Config.env (u.setPort p)).port, (act.once Config.env (u.setPort q)).port] := by
  obtain ⟨hbefore, hafter, -, -⟩ := once_ownPortOnly Config.env
  have hadm : ∀ s, (act.once Config.env s).admits = s.admits := fun s => by cases act <;> rfl
  obtain ⟨v, hv, hvp, happ⟩ := access_apply (n := 0) (by rw [hports]; rfl) hp
  obtain ⟨hvports, hvn, hvs, hva⟩ := focus_eq_some_iff.1 hv
  obtain ⟨hfirst, hshared⟩ := once_congr Config.env act (s := u.setPort p) (t := v) hvp hvs
  have hports' : (act.once Config.env v).ports = [(act.once Config.env v).port, q] := by
    rw [ports_of_frame (hbefore _ _) (hafter _ _), hvports, hvn, hports]
    rfl
  obtain ⟨w, hw, hwp, happ'⟩ := access_apply (u := act.once Config.env v) (n := 1) (by rw [hports']; rfl)
    (by rwa [hadm, hva])
  obtain ⟨hwports, hwn, hws, hwa⟩ := focus_eq_some_iff.1 hw
  obtain ⟨hsecond, hsame⟩ := once_after_once Config.env hrep hws
  obtain ⟨hsecond', -⟩ := once_congr Config.env act (s := u.setPort q) (t := v.setPort w.port) hwp hvs
  refine ⟨act.once Config.env w, ?_, by rw [hadm, hwa, hadm, hva], by rw [hsame, hws, hshared], ?_⟩
  · rw [List.cons_append, runEvents_cons happ, List.cons_append, runEvents_cons happ', List.nil_append]
  · rw [ports_of_frame (hbefore _ _) (hafter _ _), hwports, hwn, hports', hsecond, hsecond', hfirst]
    rfl

/-- After its first access, what is left of a command does what the command does; the answers so far are no
part of it. -/
theorem run_after_once (e : Env) {x : Access} {k : Ans → Act} {s t : State}
    (hp : t.port = ((Act.access x k).once e s).port) (hs : t.shared = ((Act.access x k).once e s).shared) :
    ((k (perform e s.shared x).1).run e t).port = ((Act.access x k).run e s).port ∧
      ((k (perform e s.shared x).1).run e t).shared = ((Act.access x k).run e s).shared := by
  have hflight := run_setPort_flight e (k (perform e s.shared x).1) (s.setShared (perform e s.shared x).2)
    (s.port.flight ++ [(perform e s.shared x).1])
  rw [Act.run, ← hflight]
  exact run_congr e _ hp hs

/-- Two ports with the same left of a command of repeatable accesses end it in lockstep: each does as if it were alone,
and what is shared changes once. -/
theorem runEvents_lockstep {act : Act} {u : State} {p q : Port} (hports : u.ports = [p, q])
    (hp : p.HasLeft u.admits act) (hq : q.HasLeft u.admits act)
    (hrep : ∀ x ∈ act.trace Config.env u.shared, x.Repeatable) :
    ∃ t, runEvents (List.replicate ((act.trace Config.env u.shared).length + 1) [.access 0, .access 1]).flatten u =
        some t ∧ t.shared = (act.run Config.env (u.setPort p)).shared ∧
      t.ports = [(act.run Config.env (u.setPort p)).port, (act.run Config.env (u.setPort q)).port] := by
  induction act generalizing u p q with
  | complete | raise =>
    obtain ⟨t, hround, -, hts, htp⟩ := runEvents_round hports hp hq (by simp) []
    exact ⟨t, hround, hts, htp⟩
  | access x k ih =>
    have hfirst : ∀ y k', Act.access x k = .access y k' → y.Repeatable := by
      rintro y k' ⟨⟩
      exact hrep x List.mem_cons_self
    obtain ⟨t, hround, hta, hts, htp⟩ := runEvents_round hports hp hq hfirst
      (List.replicate ((Act.access x k).trace Config.env u.shared).length [.access 0, .access 1]).flatten
    rw [List.replicate_succ, List.flatten_cons, hround]
    have hshared : t.shared = (perform Config.env u.shared x).2 := hts
    rw [← hta] at hp hq
    obtain ⟨t', hrun, hts', htp'⟩ := ih _ htp (hp.answered _) (hq.answered _)
      (fun y hy => hrep y (List.mem_cons_of_mem _ (by rwa [hshared] at hy)))
    obtain ⟨hportp, hsharedp⟩ := run_after_once Config.env (s := u.setPort p) (t := t.setPort _) rfl hts
    obtain ⟨hportq, -⟩ := run_after_once Config.env (s := u.setPort q) (t := t.setPort _) rfl hts
    refine ⟨t', ?_, hts'.trans hsharedp, htp'.trans (congrArg₂ _ hportp (congrArg₂ _ hportq rfl))⟩
    rw [← hrun, hshared]
    rfl

/-! ### The benign race (20_memory.md R49) -/

theorem repeatable_readL (i : Lane) : (Access.readL i).Repeatable := fun _ _ => rfl
theorem repeatable_readCnt : Access.readCnt.Repeatable := fun _ _ => rfl
theorem repeatable_writeCnt (v : Word) : (Access.writeCnt v).Repeatable := fun _ _ => rfl
theorem repeatable_writeL (i : Lane) (v : Word) : (Access.writeL i v).Repeatable := fun e h => by
  simp [perform, Shared.setPrng]

/-- What RAND64 does once its word is decoded (43_prng.md R102). -/
def drawTo (rd : RegNo) : Act := draw Config.env.cfg fun v => .complete [(rd, v)]

/-- A port that has just been given the word of a RAND64 has all of it left. -/
theorem hasLeft_submit_rand64 (p : Port) (ad : List Region) (rd : RegNo) :
    (p.submit [encode (.rand64 rd)]).HasLeft ad (drawTo rd) where
  busy := by simp
  left := ⟨_, _, rfl, decode_encode _, fun s hp _ => by
    rw [planLeft, hp]
    exact resume_nil _⟩

theorem reseedDue_eq_false {c : Word} (h : c.toNat % 4096 ≠ 0) : reseedDue c = false := by
  simpa [reseedDue, Config.reseedPeriod] using h

/-- A draw without a reseed makes eleven accesses, each repeatable (43_prng.md R94). -/
theorem trace_drawTo {h : Shared} (rd : RegNo) (hdue : (h.prng.cnt + 1).toNat % 4096 ≠ 0) :
    ((drawTo rd).trace Config.env h).length = 11 ∧ ∀ x ∈ (drawTo rd).trace Config.env h, x.Repeatable := by
  simp only [drawTo, trace_draw, reseedDue_eq_false hdue, Bool.false_eq_true, if_false, trace_drawLanes,
    trace_complete, List.append_nil]
  refine ⟨by simp [drawLanesTrace], fun x hx => ?_⟩
  simp only [drawLanesTrace, List.mem_cons, List.mem_flatMap, List.not_mem_nil, or_false] at hx
  obtain rfl | rfl | rfl | ⟨i, -, rfl | rfl⟩ := hx
  · exact repeatable_readCnt
  · exact repeatable_writeCnt _
  · exact repeatable_readCnt
  · exact repeatable_readL i
  · exact repeatable_writeL i _

/-- What a draw leaves of the counter when no reseed is due. -/
theorem drawn_cnt {h : Shared} (hdue : (h.prng.cnt + 1).toNat % 4096 ≠ 0) (e : Env) :
    (drawn e h).prng.cnt = h.prng.cnt + 1 := by
  simp only [drawn, beforeLanes, reseedDue_eq_false hdue, Bool.false_eq_true, if_false, setPrng_prng]

/-- A stream of one RAND64 that nobody disturbs: the value drawn, `DONE`, and what is shared. -/
theorem run_drawTo_submit (s : State) (p : Port) (w : Cmd) {rd : RegNo} (hrd : rd ≠ 0) :
    let t := (drawTo rd).run Config.env (s.setPort (p.submit [w]))
    t.port.readReg rd = some (drawnValue Config.env.cfg (beforeLanes Config.env s.shared).prng) ∧
      statusDone t.port.status = true ∧ t.shared = drawn Config.env s.shared := by
  dsimp only
  rw [drawTo, run_draw, run_complete]
  refine ⟨by rw [readReg_retire_one, if_neg hrd]; rfl, ?_, rfl⟩
  obtain ⟨hstream, hci, -⟩ := Port.writeRegs_frame
    [(rd, drawnValue Config.env.cfg (beforeLanes Config.env s.shared).prng)] (p.submit [w])
  rw [retire_port, advance_status, setShared_port, setPort_port, setPort_shared, hstream, hci]
  exact statusDone_setDone _ true

/-- The host submits a stream to an idle port that has not faulted. -/
theorem submit_apply {s : State} {n : Nat} {p : Port} {cs : List Cmd} (hn : s.ports[n]? = some p)
    (hb : statusBusy p.status = false) (hf : statusFault p.status = false) (hl : cs.length < 2 ^ 64) :
    (Event.host (.submit n cs)).apply s = some (s.replacePort n (p.submit cs)) :=
  event_apply_iff.2 (.inr (.inr ⟨_, _, rfl, hostMove_submit_iff.2 ⟨p, hn, hb, hf, hl, rfl, rfl⟩⟩))

/-- The host submits streams to both of two idle ports that have not faulted. -/
theorem submit_both {s : State} {p q : Port} (hports : s.ports = [p, q]) (hp : statusBusy p.status = false)
    (hpf : statusFault p.status = false) (hq : statusBusy q.status = false) (hqf : statusFault q.status = false)
    (w : Cmd) (evs : List Event) :
    ∃ u, runEvents ([.host (.submit 0 [w]), .host (.submit 1 [w])] ++ evs) s = runEvents evs u ∧
      u.ports = [p.submit [w], q.submit [w]] ∧ u.shared = s.shared := by
  have hports' : (s.replacePort 0 (p.submit [w])).ports = [p.submit [w], q] := by
    rw [replacePort_ports, hports]
    rfl
  have hfirst := submit_apply (n := 0) (cs := [w]) (by rw [hports]; rfl) hp hpf (by simp)
  have hsecond := submit_apply (s := s.replacePort 0 (p.submit [w])) (n := 1) (cs := [w]) (by rw [hports']; rfl) hq hqf
    (by simp)
  refine ⟨(s.replacePort 0 (p.submit [w])).replacePort 1 (q.submit [w]), ?_, ?_, ?_⟩
  · rw [List.cons_append, runEvents_cons hfirst, List.cons_append, runEvents_cons hsecond, List.nil_append]
  · rw [replacePort_ports, hports']
    rfl
  · rw [replacePort_shared, replacePort_shared]

/-- Settles O50: two streams of one RAND64 in lockstep, twelve moves each. -/
theorem racingPortsDrawTheSame : Obligations.RacingPortsDrawTheSame := by
  rintro s hbefore ⟨q, hafter, hqb, hqf⟩ hb hf hdue
  have hword : (0x00000140 : Cmd) = encode (.rand64 1) := by decide
  have hports : s.ports = [s.port, q] := by rw [State.ports, hbefore, hafter, List.nil_append]
  rw [hword]
  obtain ⟨u, hsubmit, huports, hushared⟩ := submit_both hports hb hf hqb hqf (encode (.rand64 1))
    (List.replicate 12 [.access 0, .access 1]).flatten
  rw [← hushared] at hdue ⊢
  obtain ⟨hlength, hrep⟩ := trace_drawTo 1 hdue
  obtain ⟨t, hrun, hshared, htports⟩ := runEvents_lockstep huports (hasLeft_submit_rand64 _ _ 1)
    (hasLeft_submit_rand64 _ _ 1) hrep
  obtain ⟨hp, hpdone, hdrawn⟩ := run_drawTo_submit u s.port (encode (.rand64 1)) (rd := 1) (by decide)
  obtain ⟨hq, hqdone, -⟩ := run_drawTo_submit u q (encode (.rand64 1)) (rd := 1) (by decide)
  rw [hlength] at hrun
  exact ⟨t, _, _, _, hsubmit.trans hrun, htports, hp, hq, hpdone, hqdone, by rw [hshared, hdrawn, drawn_cnt hdue]⟩

end Sys2Proof.Machine

/-! The encoding (30_encoding.md): the decoder from the side of the words, the rows of the opcode table, and the statements
about them. -/

namespace Sys2Proof.Machine

/-! ### The decoder from the side of the words -/

/-- A word with clear reserved bits is assembled from its fields (30_encoding.md R55). -/
theorem assemble_regFields {w : Cmd} (hz : w.extractLsb' 28 4 = 0) :
    assemble (w.extractLsb' 0 8) (regField w 8) (regField w 12) (regField w 16) (regField w 20) (regField w 24) = w := by
  obtain ⟨hop, hrd, hra, hrb, hrc, hre, hz'⟩ :=
    assemble_fields (w.extractLsb' 0 8) (regField w 8) (regField w 12) (regField w 16) (regField w 20) (regField w 24)
  exact word_eq_of_fields hop hrd hra hrb hrc hre (hz'.trans hz.symm)

theorem accept_eq_ok_iff {w : Cmd} {unused : List RegNo} {i j : Instr} :
    accept w unused i = .ok j ↔ w.extractLsb' 28 4 = 0 ∧ (∀ r ∈ unused, r = 0) ∧ i = j := by
  simp only [accept, List.all_eq_true, decide_eq_true_eq]
  split_ifs with hz hu
  · exact ⟨nofun, fun h => absurd h.1 hz⟩
  · exact ⟨fun h => ⟨not_not.1 hz, hu, Except.ok.inj h⟩, fun h => congrArg _ h.2.2⟩
  · exact ⟨nofun, fun h => absurd h.2.1 hu⟩

/-- A word that decodes is the word of its command: each of its fields is an operand of the command, or clear
(30_encoding.md R55, R58). -/
theorem encode_of_decode {w : Cmd} {i : Instr} (h : decode w = .ok i) : encode i = w := by
  dsimp only [decode] at h
  split_ifs at h
  all_goals
    obtain ⟨hz, hunused, rfl⟩ := accept_eq_ok_iff.1 h
    refine Eq.trans ?_ (assemble_regFields hz)
    simp_all [encode]

/-- Settles O1: each field of the word of a command reads back. -/
theorem decodeUndoesEncode : Obligations.DecodeUndoesEncode := decode_encode

/-- Settles O2: a word that decodes has no bit outside its `op` and its command's operands. -/
theorem encodeUndoesDecode : Obligations.EncodeUndoesDecode := fun _ _ => encode_of_decode

/-- Settles O4: the words decode by evaluation, and a command encodes to the word it was decoded from. -/
theorem workedEncodings : Obligations.WorkedEncodings := by
  refine ⟨fun x hx => ?_, fun op rd ra rb rc re => ?_⟩
  · have hd : decode x.1 = .ok x.2 := by
      revert x
      decide
    exact ⟨hd, encode_of_decode hd⟩
  · rw [show (0 : Cmd) <<< 28 = 0#32 by decide, BitVec.zero_or]
    rfl

/-! ### The rows of the opcode table -/

/-- The encoding of a command lies in the row of its mnemonic. -/
theorem ownRow : ∀ i : Instr, Laws.OwnRow.Statement i
  | .mixnum rd ra rb => Laws.OwnRow.mixnum rd ra rb
  | .mixptr rd ra => Laws.OwnRow.mixptr rd ra
  | .rhash rd ra rb rc => Laws.OwnRow.rhash rd ra rb rc
  | .shash rd ra rb rc => Laws.OwnRow.shash rd ra rb rc
  | .shash128 rd re ra rb rc => Laws.OwnRow.shash128 rd re ra rb rc
  | .shash128b re ra rb rc => Laws.OwnRow.shash128b re ra rb rc
  | .rand64 rd => Laws.OwnRow.rand64 rd
  | .randbytes ra rb => Laws.OwnRow.randbytes ra rb
  | .feed ra rb => Laws.OwnRow.feed ra rb
  | .reseed => Laws.OwnRow.reseed

/-- A word that decodes lies in the row of its command's mnemonic. -/
theorem ownRow_of_decode {w : Cmd} {i : Instr} (h : decode w = .ok i) :
    ∃ r ∈ opcodeTable, r.holds w = true ∧ r.mnemonic = i.mnemonic := by
  obtain ⟨r, hr, hname, hholds⟩ := ownRow i
  exact ⟨r, hr, encode_of_decode h ▸ hholds, hname⟩

/-- Every row fixes all bits of `op`, and those above `op` at 0 (30_encoding.md R57). -/
theorem opcodeTable_op : ∀ r ∈ opcodeTable, r.mask &&& 0xFF = 0xFF ∧ r.pattern &&& 0xFF = r.pattern := by decide

/-- No two rows have the same `op` (30_encoding.md R57). -/
theorem opcodeTable_nodup_pattern : (opcodeTable.map OpRow.pattern).Nodup := by decide

/-- A word is its bits under a mask and those outside. -/
theorem and_or_and_not (x m : Cmd) : x &&& m ||| x &&& ~~~m = x := by
  rw [← BitVec.and_or_distrib_left, BitVec.or_not_self, BitVec.and_allOnes]

/-- A word lies in a row when its `op` is the row's and the other bits the row fixes are clear (30_encoding.md R57, R58). -/
theorem holds_iff {r : OpRow} (hr : r ∈ opcodeTable) (w : Cmd) :
    r.holds w = true ↔ w &&& 0xFF = r.pattern ∧ w &&& r.mask &&& ~~~0xFF = 0 := by
  obtain ⟨hmask, hpattern⟩ := opcodeTable_op r hr
  have hop : w &&& r.mask &&& 0xFF = w &&& 0xFF := by rw [BitVec.and_assoc, hmask]
  rw [OpRow.holds, beq_iff_eq]
  constructor
  · intro h
    exact ⟨by rw [← hop, h, hpattern], by rw [h, ← hpattern, BitVec.and_assoc]; exact BitVec.and_zero⟩
  · rintro ⟨h, hfixed⟩
    rw [← and_or_and_not (w &&& r.mask) 0xFF, hop, h, hfixed]
    exact BitVec.or_zero

/-- At most one row holds a word, as the pattern of such a row is the word's `op`. -/
theorem length_filter_holds_le_one (w : Cmd) : (opcodeTable.filter fun r => r.holds w).length ≤ 1 := by
  have hop : (opcodeTable.filter fun r => r.holds w).map OpRow.pattern = List.replicate _ (w &&& 0xFF) :=
    List.map_eq_replicate_iff.2 fun r hr => by
      obtain ⟨hmem, hholds⟩ := List.mem_filter.1 hr
      exact ((holds_iff hmem w).1 hholds).1.symm
  exact List.nodup_replicate.1 (hop ▸ opcodeTable_nodup_pattern.sublist (List.filter_sublist.map _))

theorem wordLegal_eq_true_iff {w : Cmd} : wordLegal w = true ↔ ∃ r ∈ opcodeTable, r.holds w = true := List.any_eq_true

/-- A field that a word's row fixes is the row's. -/
theorem extractLsb'_of_holds {r : OpRow} {w : Cmd} (h : r.holds w = true) {lo n : Nat}
    (hmask : r.mask.extractLsb' lo n = BitVec.allOnes n) : w.extractLsb' lo n = r.pattern.extractLsb' lo n := by
  rw [← beq_iff_eq.1 h, BitVec.extractLsb'_and, hmask, BitVec.and_allOnes]

/-- The reserved bits and unused fields of a word pass when its row fixes them at 0. -/
theorem accept_of_holds {r : OpRow} {w : Cmd} (h : r.holds w = true) (unused : List Nat) (i : Instr)
    (hfixed : ∀ lo ∈ 28 :: unused, r.mask.extractLsb' lo 4 = BitVec.allOnes 4 ∧ r.pattern.extractLsb' lo 4 = 0) :
    accept w (unused.map (regField w)) i = .ok i := by
  have hclear : ∀ lo ∈ 28 :: unused, w.extractLsb' lo 4 = 0 := fun lo hlo =>
    (extractLsb'_of_holds h (hfixed lo hlo).1).trans (hfixed lo hlo).2
  refine accept_eq_ok_iff.2 ⟨hclear 28 List.mem_cons_self, fun x hx => ?_, rfl⟩
  obtain ⟨lo, hlo, rfl⟩ := List.mem_map.1 hx
  rw [regField, hclear lo (List.mem_cons_of_mem _ hlo)]
  rfl

/-- A word of a row decodes: the row's `op` selects a command, whose unused fields the row fixes at 0. -/
theorem decode_of_holds {r : OpRow} (hr : r ∈ opcodeTable) {w : Cmd} (h : r.holds w = true) : ∃ i, decode w = .ok i := by
  have hmask : ∀ r ∈ opcodeTable, r.mask.extractLsb' 0 8 = BitVec.allOnes 8 := by decide
  have hop := extractLsb'_of_holds h (hmask r hr)
  simp only [opcodeTable, List.mem_cons, List.not_mem_nil, or_false] at hr
  rcases hr with rfl | rfl | rfl | rfl | rfl | rfl | rfl | rfl | rfl | rfl <;> simp only [decode, hop]
  · exact ⟨_, accept_of_holds h [20, 24] _ (by decide)⟩
  · exact ⟨_, accept_of_holds h [16, 20, 24] _ (by decide)⟩
  · exact ⟨_, accept_of_holds h [24] _ (by decide)⟩
  · exact ⟨_, accept_of_holds h [24] _ (by decide)⟩
  · exact ⟨_, accept_of_holds h [] _ (by decide)⟩
  · exact ⟨_, accept_of_holds h [8] _ (by decide)⟩
  · exact ⟨_, accept_of_holds h [12, 16, 20, 24] _ (by decide)⟩
  · exact ⟨_, accept_of_holds h [8, 20, 24] _ (by decide)⟩
  · exact ⟨_, accept_of_holds h [8, 20, 24] _ (by decide)⟩
  · exact ⟨_, accept_of_holds h [8, 12, 16, 20, 24] _ (by decide)⟩

theorem decodes_iff_wordLegal {w : Cmd} : (∃ i, decode w = .ok i) ↔ wordLegal w = true := by
  rw [wordLegal_eq_true_iff]
  constructor
  · rintro ⟨i, hd⟩
    obtain ⟨r, hr, hholds, -⟩ := ownRow_of_decode hd
    exact ⟨r, hr, hholds⟩
  · rintro ⟨r, hr, hholds⟩
    exact decode_of_holds hr hholds

/-- Settles O3: the words of the rows decode, a word that decodes lies in its command's row, and the rows differ in `op`. -/
theorem decodesExactlyTheTable : Obligations.DecodesExactlyTheTable := fun w =>
  ⟨decodes_iff_wordLegal, length_filter_holds_le_one w, fun _ => ownRow_of_decode⟩

/-! ### Illegal words -/

/-- The two ways for a word to lie in no row: an `op` of no row, or a bit set that the row of its `op` fixes at 0. -/
theorem wordLegal_eq_false_iff {w : Cmd} :
    wordLegal w = false ↔
      (∀ r ∈ opcodeTable, w &&& 0xFF ≠ r.pattern) ∨
        ∃ r ∈ opcodeTable, w &&& 0xFF = r.pattern ∧ w &&& r.mask &&& ~~~0xFF ≠ 0 := by
  rw [← Bool.not_eq_true, wordLegal_eq_true_iff]
  constructor
  · intro hno
    by_cases hop : ∃ r ∈ opcodeTable, w &&& 0xFF = r.pattern
    · obtain ⟨r, hr, hp⟩ := hop
      exact .inr ⟨r, hr, hp, fun hfixed => hno ⟨r, hr, (holds_iff hr w).2 ⟨hp, hfixed⟩⟩⟩
    · exact .inl fun r hr hp => hop ⟨r, hr, hp⟩
  · rintro hill ⟨r, hr, hholds⟩
    obtain ⟨hp, hfixed⟩ := (holds_iff hr w).1 hholds
    rcases hill with hop | ⟨r', hr', hp', hset⟩
    · exact hop r hr hp
    · cases List.inj_on_of_nodup_map opcodeTable_nodup_pattern hr hr' (hp.symm.trans hp')
      exact hset hfixed

theorem decode_of_wordLegal_eq_false {w : Cmd} (h : wordLegal w = false) : ∃ x, decode w = .error x := by
  cases hd : decode w with
  | error x => exact ⟨x, rfl⟩
  | ok i => exact absurd (decodes_iff_wordLegal.1 ⟨i, hd⟩) (by simp [h])

/-- Settles O5: the rows against `op` and the bits above it, and the move of a port at a word that does not decode. -/
theorem illegalWordRaisesIllegalCmd : Obligations.IllegalWordRaisesIllegalCmd := by
  refine ⟨fun w => wordLegal_eq_false_iff, by decide, fun s w hb hf hl => ?_⟩
  obtain ⟨x, hd⟩ := decode_of_wordLegal_eq_false hl
  exact ⟨_, step_eq_next_iff.2 (.illegal hb hf hd), tookFault_enterFault _ _ _⟩

end Sys2Proof.Machine

/-! Mixing and the word primitives (40_mixing.md): rotation, byte swap, and the results of MIXNUM and MIXPTR. -/

namespace Sys2Proof.Machine

/-! ### Rotation (40_mixing.md R62) -/

/-- The model's rotation is the library's: where nothing is rotated in, the right shift by 64 gives 0. -/
theorem rotl64_eq_rotateLeft (v : Word) (r : Nat) : rotl64 v r = v.rotateLeft r := by
  rw [rotl64, BitVec.rotateLeft_def]
  by_cases h : r % 64 = 0
  · rw [if_pos h, h, BitVec.ushiftRight_eq_zero (Nat.le_refl 64), BitVec.or_zero, BitVec.shiftLeft_zero]
  · rw [if_neg h]

theorem getLsbD_rotl64 (v : Word) (r : Nat) {i : Nat} (hi : i < 64) :
    (rotl64 v r).getLsbD i = v.getLsbD ((i + (64 - r % 64)) % 64) := by
  rw [rotl64_eq_rotateLeft, BitVec.getLsbD_rotateLeft]
  by_cases h : i < r % 64
  · have hwrap : (i + (64 - r % 64)) % 64 = 64 - r % 64 + i := by omega
    rw [hwrap, decide_eq_true h, cond_true]
  · have hlow : (i + (64 - r % 64)) % 64 = i - r % 64 := by omega
    rw [hlow, decide_eq_false h, cond_false, decide_eq_true hi, Bool.true_and]

/-- Settles O23: the bits by the library's rotation, the two forms by definition. -/
theorem rotateLeft : Obligations.RotateLeft := fun v r =>
  ⟨fun _ hi => getLsbD_rotl64 v r hi, fun h => if_pos h, fun h => if_neg h⟩

/-! ### Byte swap (40_mixing.md R63) -/

theorem byteOf_bswap64 (v : Word) {j : Nat} (hj : j < 8) : byteOf (bswap64 v) j = byteOf v (7 - j) := by
  have hlen : (leBytes v).reverse.length = 8 := List.length_reverse
  rw [bswap64, byteOf_packLe hlen.le, List.getD_reverse _ (by simpa using hj), length_leBytes, getD_leBytes v (by omega)]

theorem bswap64_bswap64 (v : Word) : bswap64 (bswap64 v) = v := word_eq_of_byteOf fun j hj => by
  rw [byteOf_bswap64 _ hj, byteOf_bswap64 _ (by omega), show 7 - (7 - j) = j by omega]

/-- Settles O24: the bytes of a packed reversal, and reversing the bytes twice. -/
theorem byteSwap : Obligations.ByteSwap := fun v => ⟨fun _ hj => byteOf_bswap64 v hj, bswap64_bswap64 v⟩

/-! ### The results of MIXNUM and MIXPTR (40_mixing.md R66 to R69) -/

/-- A command whose run leaves `g` of what is shared and completes with the one write of `v` to `x[rd]` writes `v`, or
discards it into r0 (10_state.md R17), and touches nothing else. -/
theorem exec_writes_one {i : Instr} {s : State} {g : Shared} {rd : RegNo} {v : Word}
    (h : (plan Config.env i s).run Config.env s = retire [(rd, v)] (s.setShared g)) :
    ∃ t, exec i s = .next t ∧ Completed [rd] s t ∧ t.shared = g ∧
      t.port.readReg rd = some (if rd = 0 then 0 else v) :=
  ⟨_, by rw [exec_eq_runWhole, runWhole, h], completed_retire _ _ (by simp) s g, rfl, readReg_retire_one _ rd v⟩

section Plans
variable {e : Env} {s : State} {rd ra rb : RegNo} {n seed p : Word}

/-- With its operands written, MIXNUM has nothing to do but complete (40_mixing.md R68). -/
theorem plan_mixnum (ha : s.port.readReg ra = some n) (hb : s.port.readReg rb = some seed) :
    plan e (.mixnum rd ra rb) s = .complete [(rd, e.cfg.mixNumeral n seed)] := by
  simp only [plan, planMixnum, source_some ha, source_some hb]

/-- With its operand written, MIXPTR completes with no check of the address (40_mixing.md R69). -/
theorem plan_mixptr (ha : s.port.readReg ra = some p) :
    plan e (.mixptr rd ra) s = .complete [(rd, mixPointer e.cfg p)] := by
  simp only [plan, planMixptr, source_some ha]

end Plans

/-- Settles O17: with both sources read, the command is its one write. -/
theorem mixnumResult : Obligations.MixnumResult := fun s rd ra rb n seed ha hb =>
  exec_writes_one (g := s.shared) (by rw [plan_mixnum ha hb]; rfl)

/-- Settles O18: with its source read, the command is its one write, of the address mixed with the fixed salt. -/
theorem mixptrResult : Obligations.MixptrResult := fun s rd ra p ha =>
  exec_writes_one (g := s.shared) (by rw [plan_mixptr ha]; rfl)

end Sys2Proof.Machine

/-! RiskyHash (41_riskyhash.md): what each lane absorbs before the finaliser, and the result of RHASH. -/

namespace Sys2Proof.Machine

/-! ### One lane and the words it absorbs (41_riskyhash.md R70 to R76) -/

/-- What a round leaves in its own lane (41_riskyhash.md R70). -/
def riskyAbsorb (c : Cfg) (k : Lane) (v w : Word) : Word := (rotl64 (v + w) 29 + w) * c.riskyP.get k

/-- The words lane `k` absorbs of an input: of every full block, of the whole tail words, and the padded tail word
(41_riskyhash.md R73 to R76). -/
def riskyLaneWords (c : Cfg) (bs : List Byte) (k : Lane) : List Word :=
  (List.range (bs.length / 32)).map (fun b => le64At bs (32 * b + 8 * k.val)) ++
    (if k.val < bs.length % 32 / 8 then [le64At bs (32 * (bs.length / 32) + 8 * k.val)] else []) ++
    (if k.val = bs.length % 32 / 8 ∧ (bs.length % 8 ≠ 0 ∨ c.riskyFeedEmptyTail = true) then [riskyTailWord bs] else [])

theorem riskyRound_get_eq_riskyAbsorb (c : Cfg) (i k : Lane) (w : Word) (v : Quad) :
    (riskyRound c i w v).get k = if k = i then riskyAbsorb c k (v.get k) w else v.get k := by
  rw [riskyRound_get]
  by_cases h : k = i
  · rw [if_pos h, if_pos h, h, riskyAbsorb]
  · rw [if_neg h, if_neg h]

/-- Full blocks, seen from lane `k`: one word of each block. -/
theorem foldl_riskyBlock_get (c : Cfg) (bs : List Byte) (k : Lane) (ns : List Nat) (v : Quad) :
    (ns.foldl (riskyBlock c bs) v).get k =
      (ns.map fun b => le64At bs (32 * b + 8 * k.val)).foldl (riskyAbsorb c k) (v.get k) := by
  rw [List.foldl_map]
  exact (List.foldl_hom (fun v : Quad => v.get k) fun v b => (riskyBlock_get c bs v b k).symm).symm

/-- Rounds of different lanes, each on its own word: a lane takes part once or not at all. -/
theorem foldl_riskyRound_get (c : Cfg) (w : Lane → Word) (k : Lane) {is : List Lane} (h : is.Nodup) (v : Quad) :
    (is.foldl (fun v i => riskyRound c i (w i) v) v).get k =
      if k ∈ is then riskyAbsorb c k (v.get k) (w k) else v.get k := by
  induction is generalizing v with
  | nil => simp
  | cons i is ih =>
    obtain ⟨hi, his⟩ := List.nodup_cons.1 h
    rw [List.foldl_cons, ih his, riskyRound_get_eq_riskyAbsorb]
    by_cases hk : k = i
    · subst hk
      simp [hi]
    · simp [hk]

/-- The whole tail words go into the lanes below the lane of the tail word (41_riskyhash.md R74). -/
theorem riskyTailWords_get (c : Cfg) (bs : List Byte) (v : Quad) (k : Lane) :
    (riskyTailWords c bs v).get k =
      if k < riskyTailLane bs.length then
        riskyAbsorb c k (v.get k) (le64At bs (32 * (bs.length / 32) + 8 * k.val))
      else v.get k := by
  have hmem : ∀ t k : Lane, k ∈ [0, 1, 2].filter (· < t) ↔ k < t := by decide
  have hnodup : ([0, 1, 2].filter (· < riskyTailLane bs.length)).Nodup := List.Nodup.filter _ (by decide)
  rw [riskyTailWords, foldl_riskyRound_get c (fun j => le64At bs (32 * (bs.length / 32) + 8 * j.val)) k hnodup]
  exact if_congr (hmem _ k) rfl rfl

theorem foldl_ite_singleton (f : Word → Word → Word) (v w : Word) (p : Prop) [Decidable p] :
    (if p then [w] else []).foldl f v = if p then f v w else v := by
  split <;> rfl

/-- A lane before the finaliser holds what it has absorbed, starting from its initial value. -/
theorem riskyLanes_get (c : Cfg) (bs : List Byte) (seed : Word) (k : Lane) :
    (riskyLanes c bs seed).get k = (riskyLaneWords c bs k).foldl (riskyAbsorb c k) ((riskyInit c seed).get k) := by
  have htail : k = riskyTailLane bs.length ↔ k.val = bs.length % 32 / 8 := Fin.ext_iff
  rw [riskyLaneWords, List.foldl_append, List.foldl_append, foldl_ite_singleton, foldl_ite_singleton,
    ← foldl_riskyBlock_get]
  simp only [riskyLanes]
  by_cases hfed : bs.length % 8 ≠ 0 ∨ c.riskyFeedEmptyTail = true
  · rw [if_pos hfed, riskyRound_get_eq_riskyAbsorb, riskyTailWords_get]
    exact if_congr (htail.trans (and_iff_left hfed).symm) rfl rfl
  · rw [if_neg hfed, if_neg fun h => hfed h.2, riskyTailWords_get]
    rfl

/-- Settles O29: `riskyLanes_get`, with the words of a lane written out. -/
theorem riskyLanesByRounds : Obligations.RiskyLanesByRounds := riskyLanes_get

/-! ### Independence of the lanes (41_riskyhash.md R71) -/

/-- A word read from a byte string is its eight bytes, those past the end reading as 0. -/
theorem byteOf_le64At (bs : List Byte) (o : Nat) {j : Nat} (hj : j < 8) : byteOf (le64At bs o) j = bs.getD (o + j) 0 := by
  rw [le64At, byteOf_packLe (List.length_take_le 8 _)]
  simp [List.getD_eq_getElem?_getD, hj]

theorem le64At_congr {bs cs : List Byte} {o : Nat} (h : ∀ j < 8, bs.getD (o + j) 0 = cs.getD (o + j) 0) :
    le64At bs o = le64At cs o :=
  word_eq_of_byteOf fun j hj => by rw [byteOf_le64At bs o hj, byteOf_le64At cs o hj, h j hj]

/-- The leftover bytes of the tail word are fewer than eight, so packing them is reading a word there. -/
theorem riskyTailWord_eq (bs : List Byte) :
    riskyTailWord bs = le64At bs (8 * (bs.length / 8)) ||| BitVec.ofNat 64 (bs.length % 256) <<< 56 := by
  have hlen : (bs.drop (8 * (bs.length / 8))).length ≤ 8 := by
    rw [List.length_drop]
    omega
  rw [riskyTailWord, le64At, List.take_of_length_le hlen]

/-- What a lane absorbs depends only on the length and on the bytes at that lane's offsets. -/
theorem riskyLaneWords_congr (c : Cfg) {bs cs : List Byte} {k : Lane} (hlen : bs.length = cs.length)
    (h : ∀ o, o % 32 / 8 = k.val → bs.getD o 0 = cs.getD o 0) : riskyLaneWords c bs k = riskyLaneWords c cs k := by
  have hk := k.isLt
  have hword : ∀ b, le64At bs (32 * b + 8 * k.val) = le64At cs (32 * b + 8 * k.val) := fun b =>
    le64At_congr fun j hj => h _ (by omega)
  have htail : k.val = cs.length % 32 / 8 → riskyTailWord bs = riskyTailWord cs := fun hkt => by
    rw [riskyTailWord_eq, riskyTailWord_eq, hlen, le64At_congr fun j hj => h _ (by omega)]
  simp only [riskyLaneWords, hlen, hword]
  refine congrArg _ (if_ctx_congr Iff.rfl (fun hp => ?_) fun _ => rfl)
  rw [htail hp.1]

/-- Settles O27: the bytes outside lane `i` decide what the other lanes absorb. -/
theorem riskyLanesAreIndependent : Obligations.RiskyLanesAreIndependent := fun c seed bs cs i hlen h k hk => by
  have hother : ∀ o, o % 32 / 8 = k.val → bs.getD o 0 = cs.getD o 0 := fun o ho =>
    h o fun hi => hk (Fin.ext (ho.symm.trans hi))
  rw [riskyLanes_get, riskyLanes_get, riskyLaneWords_congr c hlen hother]

/-! ### Seed injection (41_riskyhash.md R72) -/

/-- A seed of 0 is not injected. -/
@[simp] theorem riskyInit_zero (c : Cfg) : riskyInit c 0 = c.riskyIV := if_pos rfl

theorem riskyInit_get {seed : Word} (h : seed ≠ 0) (c : Cfg) (i : Lane) :
    (riskyInit c seed).get i =
      if i = 0 then c.riskyIV.get i * seed else c.riskyIV.get i * seed ^^^ seed := by
  rw [riskyInit, if_neg h, Vector.get_eq_getElem, Vector.getElem_ofFn]

/-- Settles O26: the two branches of the initialisation, lane by lane. -/
theorem riskySeedInjection : Obligations.RiskySeedInjection := fun c seed => by
  refine ⟨fun h => h ▸ riskyInit_zero c, fun h => ⟨?_, fun i hi => ?_⟩⟩
  · rw [riskyInit_get h, if_pos rfl]
  · rw [riskyInit_get h, if_neg hi]

/-! ### Short buffers (41_riskyhash.md R80) -/

/-- An input of 1 to 7 bytes is one padded tail word of lane 0. -/
theorem riskyLaneWords_of_short (c : Cfg) {bs : List Byte} (h1 : 1 ≤ bs.length) (h7 : bs.length ≤ 7) (k : Lane) :
    riskyLaneWords c bs k = if k = 0 then [packLe bs ||| BitVec.ofNat 64 bs.length <<< 56] else [] := by
  have hblocks : bs.length / 32 = 0 := by omega
  have hlane : bs.length % 32 / 8 = 0 := by omega
  have hwords : bs.length / 8 = 0 := by omega
  have hlen : bs.length % 256 = bs.length := by omega
  have hleft : bs.length % 8 ≠ 0 := by omega
  simp [riskyLaneWords, riskyTailWord, hblocks, hlane, hwords, hlen, hleft]

/-- Settles O28: lane 0 absorbs the one word there is, and the other lanes none. -/
theorem riskyHashOfShortBuffer : Obligations.RiskyHashOfShortBuffer := by
  intro c bs hredirect h1 h7 tw
  have hlanes : ∀ k : Lane, (riskyLanes c bs 0).get k =
      (if k = 0 then [tw] else []).foldl (riskyAbsorb c k) (c.riskyIV.get k) := fun k => by
    rw [riskyLanes_get, riskyLaneWords_of_short c h1 h7, riskyInit_zero]
  rw [riskyHash, hredirect, if_neg Bool.false_ne_true]
  congr 1
  refine Vector.ext fun i hi => (hlanes ⟨i, hi⟩).trans ?_
  match i, hi with
  | 0, _ => rfl
  | 1, _ => rfl
  | 2, _ => rfl
  | 3, _ => rfl

/-! ### The result of RHASH (41_riskyhash.md R78 to R80) -/

/-- With its operands written and its buffer usable, RHASH reads the buffer and completes with the hash. -/
theorem plan_rhash {e : Env} {s : State} {rd ra rb rc : RegNo} {a n seed : Word} (ha : s.port.readReg ra = some a)
    (hb : s.port.readReg rb = some n) (hc : s.port.readReg rc = some seed) (h : Usable s .read a n.toNat) :
    plan e (.rhash rd ra rb rc) s =
      readBytes n.toNat a fun bs => .complete [(rd, riskyHash e.cfg bs seed)] := by
  simp only [plan, planRhash, source_some ha, source_some hb, source_some hc, (h.passes _).1, (h.passes _).2]

/-- The hash of `n` bytes passes `n` to the finaliser. -/
theorem riskyHash_readRange (c : Cfg) (m : Memory) (a n seed : Word) :
    let bs := Memory.readRange m a n.toNat
    riskyHash c bs seed =
      if c.useStableHashForRiskyHash then stableHash c bs seed else c.riskyFinal (riskyLanes c bs seed) n seed := by
  intro bs
  rw [riskyHash, Memory.length_readRange, BitVec.ofNat_toNat, BitVec.setWidth_eq]

/-- Settles O19: once its checks are passed, the command is its reads and one write. -/
theorem rhashResult : Obligations.RhashResult := fun s rd ra rb rc a n seed ha hb hc huse => by
  intro bs
  rw [← riskyHash_readRange]
  exact exec_writes_one (g := s.shared) (by rw [plan_rhash ha hb hc huse, run_readBytes]; rfl)

end Sys2Proof.Machine

/-! StableHash (42_stablehash.md): the mixed seed, what each lane absorbs before the finaliser, what the hashes depend on, and
the results of SHASH, SHASH128 and SHASH128B. -/

namespace Sys2Proof.Machine

/-! ### The mixed seed (42_stablehash.md R81) -/

/-- The step that makes the mixed seed odd: every bit moves up by one, the top one is lost, and bit 0 is set. -/
theorem getLsbD_shiftLeft_one_or_one (x : Word) :
    (x <<< 1 ||| 1).getLsbD 0 = true ∧ ∀ j < 63, (x <<< 1 ||| 1).getLsbD (j + 1) = x.getLsbD j := by
  refine ⟨by simp, fun j hj => ?_⟩
  have hone : (1 : Word).getLsbD (j + 1) = false := by simp [BitVec.getLsbD_one]
  rw [BitVec.getLsbD_or, hone, Bool.or_false, BitVec.getLsbD_shiftLeft]
  simp [show j + 1 < 64 by omega]

/-- Settles O30: the bits of `s2 << 1 | 1`. -/
theorem stableSeedMixing : Obligations.StableSeedMixing := fun _ _ => ⟨rfl, getLsbD_shiftLeft_one_or_one _⟩

/-- The seed goes into the hash through the mixed seed only. -/
theorem stableHash_congr_seed (c : Cfg) (bs : List Byte) {seed seed' : Word}
    (h : stableSeed seed (BitVec.ofNat 64 bs.length) = stableSeed seed' (BitVec.ofNat 64 bs.length)) :
    stableHash c bs seed = stableHash c bs seed' := by
  rw [stableHash, stableHash, h]

/-- Settles O31: both seeds give the mixed seed 1. -/
theorem stableHashOfEmptyBuffer : Obligations.StableHashOfEmptyBuffer := fun c => by
  have h0 : stableSeed 0 0 = 1 := by decide
  have h1 : stableSeed (BitVec.allOnes 64) 0 = 1 := by decide
  exact ⟨h0, h1, stableHash_congr_seed c [] (h0.trans h1.symm)⟩

/-! ### One lane and the words it absorbs (42_stablehash.md R82 to R86) -/

/-- What a round with mixed seed `ms` leaves in its own lane (42_stablehash.md R83). -/
def stableAbsorb (c : Cfg) (ms : Word) (k : Lane) (v w : Word) : Word :=
  let q := (c.stableQ.get k).setWidth 64
  (v + w + q) * q + (rotl64 w 19 + ms)

theorem stableRounds_get_eq_stableAbsorb (c : Cfg) (ms : Word) (w : Lane → Word) (v : Quad) (k : Lane) :
    (stableRounds c ms w v).get k = stableAbsorb c ms k (v.get k) (w k) := stableRounds_get c ms w v k

/-- Full blocks, seen from lane `k`: one word of each block. -/
theorem foldl_stableBlock_get (c : Cfg) (ms : Word) (bs : List Byte) (k : Lane) (ns : List Nat) (v : Quad) :
    (ns.foldl (stableBlock c ms bs) v).get k =
      (ns.map fun b => le64At bs (32 * b + 8 * k.val)).foldl (stableAbsorb c ms k) (v.get k) := by
  rw [List.foldl_map]
  refine (List.foldl_hom (fun v : Quad => v.get k) fun v b => ?_).symm
  rw [stableBlock, stableRounds_get_eq_stableAbsorb]

/-- A lane before the finaliser holds what it has absorbed, starting from the mixed seed. -/
theorem stableLanes_get (c : Cfg) (bs : List Byte) (ms : Word) (k : Lane) :
    (stableLanes c bs ms).get k =
      ((List.range (bs.length / 32)).map (fun b => le64At bs (32 * b + 8 * k.val)) ++ [stableTailWord bs k]).foldl
        (stableAbsorb c ms k) ms := by
  have hinit : (Vector.replicate 4 ms).get k = ms := by simp [Vector.get_eq_getElem]
  rw [List.foldl_append, stableLanes, stableRounds_get_eq_stableAbsorb, foldl_stableBlock_get, hinit]
  rfl

/-- A word read from a byte string, as its eight bytes packed. -/
theorem le64At_eq_packLe (bs : List Byte) (o : Nat) :
    le64At bs o = packLe ((List.range 8).map fun m => bs.getD (o + m) 0) :=
  word_eq_of_byteOf fun j hj => by
    rw [byteOf_le64At bs o hj, byteOf_packLe (by simp)]
    simp [List.getD_eq_getElem?_getD, hj]

/-- Byte `m` of the zero-padded tail block (42_stablehash.md R85). -/
theorem getD_drop_fullBlocks (bs : List Byte) (m : Nat) :
    (bs.drop (32 * (bs.length / 32))).getD m 0 =
      if m < bs.length % 32 then bs.getD (32 * (bs.length / 32) + m) 0 else 0 := by
  rw [List.getD_eq_getElem?_getD, List.getElem?_drop, ← List.getD_eq_getElem?_getD]
  split
  · rfl
  · exact List.getD_eq_default _ _ (by omega)

/-- A word of the tail block, with the length added into the last (42_stablehash.md R85). -/
theorem stableTailWord_eq (bs : List Byte) (j : Lane) :
    stableTailWord bs j =
      packLe ((List.range 8).map fun m => if 8 * j.val + m < bs.length % 32
        then bs.getD (32 * (bs.length / 32) + (8 * j.val + m)) 0 else 0) +
      if j = 3 then BitVec.ofNat 64 bs.length else 0 := by
  simp only [stableTailWord, le64At_eq_packLe, getD_drop_fullBlocks]
  split
  · rfl
  · exact (BitVec.add_zero _).symm

/-- Settles O32: `stableLanes_get`, with the words of a lane written out. -/
theorem stableLanesByRounds : Obligations.StableLanesByRounds := fun c bs ms i => by
  intro q absorb nb T tw
  have htail : stableTailWord bs i = tw := stableTailWord_eq bs i
  exact ⟨htail, htail ▸ stableLanes_get c bs ms i⟩

/-! ### StableHash is frozen (42_stablehash.md R90) -/

/-- The lanes depend on no configuration field but the primes. -/
theorem stableLanes_congr {c d : Cfg} (hq : c.stableQ = d.stableQ) (bs : List Byte) (ms : Word) :
    stableLanes c bs ms = stableLanes d bs ms := by
  have habsorb : stableAbsorb c = stableAbsorb d := by
    funext ms k v w
    rw [stableAbsorb, stableAbsorb, hq]
  have hget : ∀ k : Lane, (stableLanes c bs ms).get k = (stableLanes d bs ms).get k := fun k => by
    rw [stableLanes_get, stableLanes_get, habsorb]
  exact Quad.ext4 (hget 0) (hget 1) (hget 2) (hget 3)

/-- Settles O33: the lanes by their primes, the finaliser by its own fields. -/
theorem stableHashIsFrozen : Obligations.StableHashIsFrozen := fun c d hq haval h64 hA hB bs seed => by
  constructor
  · simp only [stableHash, stableLanes_congr hq, haval, h64]
  · simp only [stableHash128, stableLanes_congr hq, haval, hA, hB]

/-! ### The results of SHASH and SHASH128 (42_stablehash.md R88 to R92) -/

section Plans
variable {e : Env} {s : State} {rd re ra rb rc : RegNo} {a n seed : Word}

/-- With its operands written and its buffer usable, SHASH reads the buffer and completes with the hash. -/
theorem plan_shash (ha : s.port.readReg ra = some a) (hb : s.port.readReg rb = some n)
    (hc : s.port.readReg rc = some seed) (h : Usable s .read a n.toNat) :
    plan e (.shash rd ra rb rc) s = readBytes n.toNat a fun bs => .complete [(rd, stableHash e.cfg bs seed)] := by
  simp only [plan, planShash, source_some ha, source_some hb, source_some hc, (h.passes _).1, (h.passes _).2]

/-- With its operands written and its buffer usable, SHASH128 reads the buffer and completes with both halves. -/
theorem plan_shash128 (ha : s.port.readReg ra = some a) (hb : s.port.readReg rb = some n)
    (hc : s.port.readReg rc = some seed) (h : Usable s .read a n.toNat) :
    plan e (.shash128 rd re ra rb rc) s = readBytes n.toNat a fun bs =>
      .complete [(rd, (stableHash128 e.cfg bs seed).1), (re, (stableHash128 e.cfg bs seed).2)] := by
  simp only [plan, planShash128, source_some ha, source_some hb, source_some hc, (h.passes _).1, (h.passes _).2]

end Plans

/-- The hash of `n` bytes passes `n` to the seed derivation and the finaliser. -/
theorem stableHash_readRange (c : Cfg) (m : Memory) (a n seed : Word) :
    let ms := stableSeed seed n
    let v := stableLanes c (Memory.readRange m a n.toNat) ms
    stableHash c (Memory.readRange m a n.toNat) seed = c.stableAval (laneSum v) v c.stableK64 n ms := by
  simp only [stableHash, Memory.length_readRange, BitVec.ofNat_toNat, BitVec.setWidth_eq]

theorem stableHash128_readRange (c : Cfg) (m : Memory) (a n seed : Word) :
    let ms := stableSeed seed n
    let v := stableLanes c (Memory.readRange m a n.toNat) ms
    stableHash128 c (Memory.readRange m a n.toNat) seed =
      (c.stableAval (laneSum v) v c.stableK128A n ms, c.stableAval (laneXor v) v c.stableK128B n ms) := by
  simp only [stableHash128, Memory.length_readRange, BitVec.ofNat_toNat, BitVec.setWidth_eq]

/-- Settles O20: once its checks are passed, the command is its reads and one write. -/
theorem shashResult : Obligations.ShashResult := fun s rd ra rb rc a n seed ha hb hc huse => by
  refine exec_writes_one (g := s.shared) ?_
  rw [plan_shash ha hb hc huse, run_readBytes, stableHash_readRange]
  rfl

/-- Executing a command is running its plan. -/
theorem exec_of_run {i : Instr} {s t : State} (h : (plan Config.env i s).run Config.env s = t) : exec i s = .next t := by
  rw [exec_eq_runWhole, runWhole, h]

/-- The destinations of a command that writes two registers: the later write stands where they are one register
(42_stablehash.md R92). -/
theorem readReg_retire_two (s : State) (rd re : RegNo) (v w : Word) :
    (rd ≠ re → (retire [(rd, v), (re, w)] s).port.readReg rd = some (if rd = 0 then 0 else v)) ∧
      (retire [(rd, v), (re, w)] s).port.readReg re = some (if re = 0 then 0 else w) := by
  constructor
  · intro hne
    rw [← readReg_retire_one s rd v]
    simp only [retire_port, Port.readReg_advance, Port.writeRegs_cons, Port.writeRegs_nil]
    rw [Port.readReg_writeReg, if_neg fun h => hne h.1]
  · exact readReg_retire_one (s.setPort (s.port.writeReg rd v)) re w

/-- Settles O21: once its checks are passed, the command is its reads and two writes. -/
theorem shash128Result : Obligations.Shash128Result := fun s rd re ra rb rc a n seed ha hb hc huse => by
  intro ms v h0 h1
  have hrun : (plan Config.env (.shash128 rd re ra rb rc) s).run Config.env s = retire [(rd, h0), (re, h1)] s := by
    rw [plan_shash128 ha hb hc huse, run_readBytes, stableHash128_readRange]
    rfl
  exact ⟨_, exec_of_run hrun, completed_retire _ _ (by simp) s s.shared, rfl, readReg_retire_two s rd re h0 h1⟩

/-! ### The result of SHASH128B (42_stablehash.md R93) -/

/-- Two words stored one behind the other: their bytes at their places, and every other byte as it was (20_memory.md R38). -/
theorem read_writeRange_leBytes_append (m : Memory) {d : Word} (v w : Word) (hd : d.toNat + 16 ≤ 2 ^ 64) :
    let m' := Memory.writeRange m d (leBytes v ++ leBytes w)
    (∀ j < 8, Memory.read m' (d.toNat + j) = byteOf v j) ∧ (∀ j < 8, Memory.read m' (d.toNat + 8 + j) = byteOf w j) ∧
      ∀ x, x < d.toNat ∨ d.toNat + 16 ≤ x → Memory.read m' x = Memory.read m x := by
  have hlen : (leBytes v ++ leBytes w).length = 16 := rfl
  have hread := fun x => Memory.read_writeRange (leBytes v ++ leBytes w) m d x (hlen ▸ hd)
  simp only [hlen] at hread
  refine ⟨fun j hj => ?_, fun j hj => ?_, fun x hx => ?_⟩
  · rw [hread, if_pos (by omega), Nat.add_sub_cancel_left, List.getD_append _ _ _ _ hj, getD_leBytes v hj]
  · rw [hread, if_pos (by omega), Nat.add_assoc, Nat.add_sub_cancel_left, List.getD_append_right _ _ _ _ (by simp),
      length_leBytes, Nat.add_sub_cancel_left, getD_leBytes w hj]
  · rw [hread, if_neg (by omega)]

/-- Settles O22: the bytes are all read before the first is written, and the 16 bytes do not wrap. -/
theorem shash128bResult : Obligations.Shash128bResult := fun s re ra rb rc a n seed d ha hb hc hd huse hd0 hadm => by
  intro h
  have hdst : Usable s .write d 16 := ⟨(absurd · hd0), hadm⟩
  have hrun : (plan Config.env (.shash128b re ra rb rc) s).run Config.env s = retire []
      (s.setShared { s.shared with mem := Memory.writeRange s.shared.mem d (leBytes h.1 ++ leBytes h.2) }) := by
    rw [plan_shash128b ha hb hc hd, (huse.passes _).1, (hdst.passes _).1, (huse.passes _).2, (hdst.passes _).2,
      run_readBytes, run_writeBytes]
    rfl
  exact ⟨_, exec_of_run hrun, completed_retire _ _ (by simp) s _, rfl, read_writeRange_leBytes_append _ h.1 h.2 hadm.1⟩

end Sys2Proof.Machine

/-! The PRNG commands (43_prng.md): draws and reseeds, the cadence of reseeds, feeding, and the bulk fill. -/

namespace Sys2Proof.Machine

/-! ### The lane update (43_prng.md R95) -/

/-- The multipliers as the table of R95. -/
theorem laneMultiplier_eq_get (c : Cfg) (i : Lane) :
    laneMultiplier c i = #v[c.prngM0, c.prngM1, ~~~c.prngM0, ~~~c.prngM1].get i := by
  fin_cases i <;> rfl

/-- The additive terms as the table of R95. -/
theorem laneAddend_eq_get (i : Lane) (cnt : Word) : laneAddend i cnt = #v[cnt, 0, cnt, 0].get i := by
  fin_cases i <;> rfl

/-- The complement of an odd word is even. -/
theorem getLsbD_zero_not {m : Word} (h : m.getLsbD 0 = true) : (~~~m).getLsbD 0 = false := by
  rw [BitVec.getLsbD_not, h]
  rfl

/-- Settles O34: the two forms with the tables of R95, and the parity the configuration asks of the first two multipliers. -/
theorem laneUpdateFormulas : Obligations.LaneUpdateFormulas := by
  intro c s cnt m add
  refine ⟨fun i hform => ?_, fun i hform => ?_, c.prngM0_odd, c.prngM1_odd, getLsbD_zero_not c.prngM0_odd,
    getLsbD_zero_not c.prngM1_odd⟩
  · simp only [laneNext, hform, laneMultiplier_eq_get, laneAddend_eq_get, m, add]
  · simp only [laneNext, hform, laneMultiplier_eq_get, laneAddend_eq_get, m, add]

/-! ### RESEED (43_prng.md R98, R105) -/

/-- RESEED completes from every state and leaves of what is shared what `reseeded` says. -/
theorem exec_reseed (s : State) :
    ∃ t, exec .reseed s = .next t ∧ Completed [] s t ∧ t.shared = reseeded Config.env s.shared :=
  ⟨_, exec_of_run (run_reseed Config.env _ s), completed_retire [] [] (by simp) s _, rfl⟩

/-- Settles O37: `exec_reseed`, with `reseeded` written out. -/
theorem reseedResult : Obligations.ReseedResult := fun s => by
  obtain ⟨t, ht, hcompleted, hshared⟩ := exec_reseed s
  refine ⟨t, ht, hcompleted, ?_⟩
  rw [hshared]
  exact ⟨rfl, rfl, rfl, rfl⟩

/-- The jitter samples take one clock answer each. -/
theorem jitterLoop_calls (e : Env) (cnt : Word) (m i : Nat) (x : Clock × Word × Word) :
    (jitterLoop e cnt m i x).1.calls = x.1.calls + m := by
  induction m generalizing i x with
  | zero => rfl
  | succ m ih =>
    rw [jitterLoop, ih]
    exact Nat.add_right_comm _ 1 m

theorem reseeded_calls (e : Env) (h : Shared) :
    (reseeded e h).clock.calls = h.clock.calls + sampleCount (h.prng.lanes.get 0) := jitterLoop_calls e _ _ _ _

theorem reseeded_cnt (e : Env) (h : Shared) :
    (reseeded e h).prng.cnt = h.prng.cnt + BitVec.ofNat 64 (sampleCount (h.prng.lanes.get 0)) := rfl

theorem reseeded_rusageCalls_le (e : Env) (h : Shared) : (reseeded e h).rusageCalls ≤ h.rusageCalls + 1 := by
  have hone : (if e.cfg.hasRusage then 1 else 0) ≤ 1 := by split <;> decide
  exact Nat.add_le_add_left hone _

/-- Settles O38: the bounds of the sample count, and what `reseeded` leaves of the counter and the inputs. -/
theorem reseedSampleCount : Obligations.ReseedSampleCount := fun s t h => by
  obtain ⟨hlow, hhigh⟩ := sampleCount_bounds (s.shared.prng.lanes.get 0)
  rw [exec_reseed_shared h]
  exact ⟨hlow, hhigh, reseeded_calls _ _, reseeded_cnt _ _, reseeded_rusageCalls_le _ _⟩

/-- A reseed moves the counter: the sample count is neither 0 nor a multiple of 2^64. -/
theorem reseeded_cnt_ne (e : Env) (h : Shared) : (reseeded e h).prng.cnt ≠ h.prng.cnt := by
  obtain ⟨hlow, hhigh⟩ := sampleCount_bounds (h.prng.lanes.get 0)
  rw [reseeded_cnt, Ne, add_eq_left]
  intro hzero
  have hmod : sampleCount (h.prng.lanes.get 0) % 2 ^ 64 = 0 := congrArg BitVec.toNat hzero
  omega

/-- Settles O39: the counters differ (90_conflicts.md C1). -/
theorem reseedIsNotIdempotent : Obligations.ReseedIsNotIdempotent := fun s t u _ hu heq => by
  rw [exec_reseed_shared hu] at heq
  exact reseeded_cnt_ne _ _ (congrArg Prng.cnt heq)

/-! ### RAND64 (43_prng.md R94, R96, R102) -/

theorem reseedDue_eq_true {c : Word} (h : c.toNat % 4096 = 0) : reseedDue c = true := by
  simpa [reseedDue, Config.reseedPeriod] using h

/-- What is shared with its draw counter counted once. -/
def counted (h : Shared) : Shared := h.setPrng { h.prng with cnt := h.prng.cnt + 1 }

theorem beforeLanes_of_not_due {h : Shared} (hdue : (h.prng.cnt + 1).toNat % 4096 ≠ 0) (e : Env) :
    beforeLanes e h = counted h := by
  rw [beforeLanes, reseedDue_eq_false hdue]
  rfl

theorem beforeLanes_of_due {h : Shared} (hdue : (h.prng.cnt + 1).toNat % 4096 = 0) (e : Env) :
    beforeLanes e h = reseeded e (counted h) := by
  rw [beforeLanes, reseedDue_eq_true hdue]
  rfl

/-- RAND64 completes from every state, with what `drawn` and `drawnValue` say of its lane updates. -/
theorem exec_rand64 (s : State) (rd : RegNo) :
    let g := beforeLanes Config.env s.shared
    ∃ t, exec (.rand64 rd) s = .next t ∧ Completed [rd] s t ∧
      t.shared = g.setPrng { g.prng with lanes := drawnLanes Config.cfg g.prng } ∧
      t.port.readReg rd = some (if rd = 0 then 0 else drawnValue Config.cfg g.prng) :=
  exec_writes_one (run_draw Config.env _ s)

/-- Settles O35: with no reseed due, the lane updates start from the counted state. -/
theorem rand64Result : Obligations.Rand64Result := fun s rd hdue => by
  have hexec := exec_rand64 s rd
  rw [beforeLanes_of_not_due hdue] at hexec
  exact hexec

/-- Settles O36: with a reseed due, the lane updates start from what RESEED leaves of the counted state. -/
theorem rand64ReseedsWhenDue : Obligations.Rand64ReseedsWhenDue := fun s u rd hdue hu => by
  have hexec := exec_rand64 s rd
  have hushared : u.shared = reseeded Config.env (counted s.shared) := exec_reseed_shared hu
  rw [beforeLanes_of_due hdue, ← hushared] at hexec
  exact hexec

/-! ### The cadence of reseeds (43_prng.md R97) -/

/-- `n` draws whose values are discarded, and what they leave of what is shared. -/
theorem execTimes_rand64 (n : Nat) (s : State) :
    ∃ t, execTimes (.rand64 0) n s = .next t ∧ t.shared = (drawn Config.env)^[n] s.shared := by
  induction n generalizing s with
  | zero => exact ⟨s, rfl, rfl⟩
  | succ n ih =>
    obtain ⟨u, hu, -, hushared, -⟩ := exec_rand64 s 0
    obtain ⟨t, ht, htshared⟩ := ih u
    refine ⟨t, ?_, ?_⟩
    · rw [execTimes, hu]
      exact ht
    · rw [htshared, hushared, Function.iterate_succ_apply]
      rfl

/-- The counter, seen modulo the reseed period, which divides 2^64. -/
theorem toNat_add_ofNat_mod (c : Word) (k : Nat) : (c + BitVec.ofNat 64 k).toNat % 4096 = (c.toNat + k) % 4096 := by
  rw [BitVec.toNat_add, BitVec.toNat_ofNat]
  omega

theorem add_ofNat_add_one (c : Word) (k : Nat) : c + BitVec.ofNat 64 k + 1 = c + BitVec.ofNat 64 (k + 1) := by
  rw [BitVec.ofNat_add, ← BitVec.add_assoc]
  rfl

/-- `g` is `h` after `k` draws of which none made a reseed, as far as the counter, the feed buffer and the inputs go. -/
structure CountedOnly (k : Nat) (h g : Shared) : Prop where
  cnt : g.prng.cnt = h.prng.cnt + BitVec.ofNat 64 k
  clock : g.clock = h.clock
  feed : g.prng.feed = h.prng.feed
  rusageCalls : g.rusageCalls = h.rusageCalls

/-- Draws that stay below the next multiple of the period make no reseed. -/
theorem countedOnly_iterate_drawn (e : Env) (h : Shared) {k : Nat} (hk : h.prng.cnt.toNat % 4096 + k < 4096) :
    CountedOnly k h ((drawn e)^[k] h) := by
  induction k with
  | zero => exact ⟨(BitVec.add_zero _).symm, rfl, rfl, rfl⟩
  | succ k ih =>
    obtain ⟨hcnt, hclock, hfeed, husage⟩ := ih (by omega)
    have hdue : (((drawn e)^[k] h).prng.cnt + 1).toNat % 4096 ≠ 0 := by
      rw [hcnt, add_ofNat_add_one, toNat_add_ofNat_mod]
      omega
    rw [Function.iterate_succ_apply', drawn, beforeLanes_of_not_due hdue]
    refine ⟨?_, hclock, hfeed, husage⟩
    rw [← add_ofNat_add_one, ← hcnt]
    rfl

/-- A draw that reaches a multiple of the period makes one reseed. -/
theorem drawn_of_due {h : Shared} (hdue : (h.prng.cnt + 1).toNat % 4096 = 0) (e : Env) :
    let ns := sampleCount (h.prng.lanes.get 0)
    (drawn e h).prng.cnt = h.prng.cnt + 1 + BitVec.ofNat 64 ns ∧ (drawn e h).clock.calls = h.clock.calls + ns := by
  rw [drawn, beforeLanes_of_due hdue]
  exact ⟨rfl, reseeded_calls e (counted h)⟩

/-- Settles O40: all draws but the last count only, and the last reaches a multiple of the period. -/
theorem reseedCadence : Obligations.ReseedCadence := fun s => by
  intro left
  have hleft : left = 4096 - s.shared.prng.cnt.toNat % 4096 := rfl
  refine ⟨fun k hk => ?_, ?_⟩
  · obtain ⟨t, ht, hshared⟩ := execTimes_rand64 k s
    obtain ⟨hcnt, hclock, hfeed, husage⟩ := countedOnly_iterate_drawn Config.env s.shared (k := k) (by omega)
    exact ⟨t, ht, by rw [hshared, hcnt], by rw [hshared, hclock], by rw [hshared, hfeed], by rw [hshared, husage]⟩
  · obtain ⟨k, hk⟩ : ∃ k, left = k + 1 := Nat.exists_eq_add_one.2 (by omega)
    obtain ⟨t, ht, hshared⟩ := execTimes_rand64 left s
    obtain ⟨hcnt, hclock, -, -⟩ := countedOnly_iterate_drawn Config.env s.shared (k := k) (by omega)
    rw [hk, Function.iterate_succ_apply'] at hshared
    generalize (drawn Config.env)^[k] s.shared = g at hcnt hclock hshared
    have hnext : g.prng.cnt + 1 = s.shared.prng.cnt + BitVec.ofNat 64 left := by rw [hcnt, add_ofNat_add_one, hk]
    have hdue : (s.shared.prng.cnt + BitVec.ofNat 64 left).toNat % 4096 = 0 := by
      rw [toNat_add_ofNat_mod]
      omega
    obtain ⟨hlast, hcalls⟩ := drawn_of_due (hnext ▸ hdue) Config.env
    obtain ⟨hlow, hhigh⟩ := sampleCount_bounds (g.prng.lanes.get 0)
    rw [hnext, ← hshared] at hlast
    refine ⟨t, _, ht, hlow, hhigh, hlast, by rw [hshared, hcalls, hclock], ?_⟩
    rw [hlast, toNat_add_ofNat_mod]
    omega

/-! ### FEED (43_prng.md R100, R104) -/

/-- A run of bytes within a range that was read. -/
theorem take_drop_readRange (m : Memory) (a : Word) {n i k : Nat} (h : i + k ≤ n) :
    ((Memory.readRange m a n).drop i).take k = Memory.readRange m (a + BitVec.ofNat 64 i) k := by
  obtain ⟨l, rfl⟩ := Nat.exists_eq_add_of_le h
  rw [Nat.add_assoc, Memory.readRange_add, List.drop_append_of_le_length (by simp), Memory.readRange_add,
    List.drop_eq_nil_of_le (by simp), List.nil_append, List.take_append_of_le_length (by simp),
    List.take_of_length_le (by simp)]

/-- A whole piece of a range that was read. -/
theorem feedPiece_readRange (m : Memory) (a : Word) {n i : Nat} (h : 8 * i + 8 ≤ n) :
    feedPiece (Memory.readRange m a n) i = packLe (Memory.readRange m (a + BitVec.ofNat 64 (8 * i)) 8) := by
  rw [feedPiece, take_drop_readRange m a h]

/-- The last piece of a range that was read, which has fewer than eight bytes. -/
theorem feedPiece_readRange_last (m : Memory) (a : Word) (n : Nat) :
    feedPiece (Memory.readRange m a n) (n / 8) =
      packLe (Memory.readRange m (a + BitVec.ofNat 64 (8 * (n / 8))) (n % 8)) := by
  rw [feedPiece, ← take_drop_readRange m a (n := n) (by omega), List.take_of_length_le (by simp; omega),
    List.take_of_length_le (by simp; omega)]

/-- The whole 8-byte words from `a` on. -/
def chunkWords (m : Memory) (a : Word) (k : Nat) : List Word :=
  (List.range k).map fun i => packLe (Memory.readRange m (a + BitVec.ofNat 64 (8 * i)) 8)

theorem chunkWords_succ (m : Memory) (a : Word) (k : Nat) :
    chunkWords m a (k + 1) = packLe (Memory.readRange m a 8) :: chunkWords m (a + 8) k := by
  have haddr : ∀ i, a + BitVec.ofNat 64 (8 * (i + 1)) = a + 8 + BitVec.ofNat 64 (8 * i) := fun i => by
    rw [Nat.mul_succ, Nat.add_comm, BitVec.ofNat_add, ← BitVec.add_assoc]
    rfl
  simp only [chunkWords, List.range_succ_eq_map, List.map_cons, List.map_map, Function.comp_def, haddr]
  simp

/-- What is shared after words went into the feed buffer from offset `o` on, the offset not yet stored. -/
def Shared.putFeeds (h : Shared) (ws : List Word) (o : BitVec 2) : Shared :=
  h.setPrng { h.prng with feed := Machine.putFeeds ws o h.prng.feed }

/-- The chunk loop feeds its words and ends with the offset behind them. -/
theorem run_feedChunks (e : Env) (k : Nat) (a : Word) (o : BitVec 2) (next : BitVec 2 → Act) (s : State) :
    (feedChunks k a o next).run e s = (next (o + BitVec.ofNat 2 k)).run e
      (s.setShared (s.shared.putFeeds (chunkWords s.shared.mem a k) o)) := by
  induction k generalizing a o s with
  | zero =>
    simp only [feedChunks, BitVec.add_zero]
    rfl
  | succ k ih =>
    have ho : o + BitVec.ofNat 2 (k + 1) = o + 1 + BitVec.ofNat 2 k := by
      rw [Nat.add_comm, BitVec.ofNat_add, ← BitVec.add_assoc]
      rfl
    rw [feedChunks, run_readBytes, run_feedWord, ih, chunkWords_succ, ho]
    rfl

/-- What is shared after `bs` was fed. -/
def fed (h : Shared) (bs : List Byte) : Shared :=
  h.setPrng { h.prng with
    feed := feedFold bs h.prng.fofs h.prng.feed
    fofs := h.prng.fofs + BitVec.ofNat 2 ((bs.length + 7) / 8) }

/-- Feeding nothing changes nothing. -/
theorem fed_nil (h : Shared) : fed h [] = h := by
  have hofs : h.prng.fofs + BitVec.ofNat 2 (([] : List Byte).length / 8) = h.prng.fofs := BitVec.add_zero _
  exact congrArg (fun o => h.setPrng { h.prng with fofs := o }) hofs

/-- The pieces of a range that was read are its whole words and, with bytes left over, one more. -/
theorem pieces_readRange (m : Memory) (a : Word) (n : Nat) :
    (List.range ((n + 7) / 8)).map (feedPiece (Memory.readRange m a n)) =
      chunkWords m a (n / 8) ++
        if n % 8 = 0 then [] else [packLe (Memory.readRange m (a + BitVec.ofNat 64 (8 * (n / 8))) (n % 8))] := by
  have hwhole : (List.range (n / 8)).map (feedPiece (Memory.readRange m a n)) = chunkWords m a (n / 8) :=
    List.map_congr_left fun i hi => by
      rw [List.mem_range] at hi
      exact feedPiece_readRange m a (by omega)
  by_cases hr : n % 8 = 0
  · rw [if_pos hr, List.append_nil, show (n + 7) / 8 = n / 8 by omega, hwhole]
  · rw [if_neg hr, show (n + 7) / 8 = n / 8 + 1 by omega, List.range_succ, List.map_append, hwhole, List.map_singleton,
      feedPiece_readRange_last]

/-- A feed leaves what `fed` says of the bytes memory holds. -/
theorem run_feed (e : Env) (a : Word) (n : Nat) (k : Act) (s : State) :
    (feed a n k).run e s = k.run e (s.setShared (fed s.shared (Memory.readRange s.shared.mem a n))) := by
  by_cases h0 : n = 0
  · rw [feed, if_pos h0, h0, Memory.readRange, fed_nil, setShared_self]
  · have hlen : (chunkWords s.shared.mem a (n / 8)).length = n / 8 := by simp [chunkWords]
    rw [fed, feedFold_eq_putFeeds, Memory.length_readRange, pieces_readRange, putFeeds_append, hlen,
      feed, if_neg h0, run_readFofs, run_feedChunks]
    by_cases hr : n % 8 = 0
    · rw [if_pos hr, if_pos hr, run_writeFofs, show (n + 7) / 8 = n / 8 by omega]
      rfl
    · rw [if_neg hr, if_neg hr, run_readBytes, run_feedWord, run_writeFofs, show (n + 7) / 8 = n / 8 + 1 by omega,
        BitVec.ofNat_add, ← BitVec.add_assoc]
      rfl

/-- Settles O41: once its checks are passed, the command is a feed of the masked length. -/
theorem feedResult : Obligations.FeedResult := fun s ra rb a len ha hb => by
  intro n huse
  have hrun : (plan Config.env (.feed ra rb) s).run Config.env s =
      retire [] (s.setShared (fed s.shared (Memory.readRange s.shared.mem a n))) := by
    rw [plan_feed ha hb, (huse.passes _).1, (huse.passes _).2, run_feed, run_complete]
  refine ⟨_, exec_of_run hrun, completed_retire [] [] (by simp) s _, ?_⟩
  rw [retire_shared, setShared_shared, fed, Memory.length_readRange]

/-- What FEED has to do depends on nothing but its address, its masked length and the admission. -/
theorem plan_feed_congr {e : Env} {s t : State} {ra rb : RegNo} (ha : t.port.readReg ra = s.port.readReg ra)
    (hb : (t.port.readReg rb).map (· &&& 1023) = (s.port.readReg rb).map (· &&& 1023)) (hadm : t.admits = s.admits) :
    plan e (.feed ra rb) t = plan e (.feed ra rb) s := by
  have hd : ∀ kind a n k, admitted t kind a n k = admitted s kind a n k := fun kind a n k => by
    unfold admitted; rw [hadm]
  rcases hsa : s.port.readReg ra with _ | a
  · rw [hsa] at ha
    simp only [plan, planFeed, source_none ha, source_none hsa]
  · rw [hsa] at ha
    rcases hsb : s.port.readReg rb with _ | w <;> rcases htb : t.port.readReg rb with _ | v <;>
      simp only [hsb, htb, Option.map_none, Option.map_some, Option.some.injEq, reduceCtorEq] at hb
    · simp only [plan, planFeed, source_some ha, source_some hsa, source_none hsb, source_none htb]
    · rw [plan_feed ha htb, plan_feed hsa hsb, hb, hd]

/-- What a command does to what is shared and to STATUS does not depend on the registers, once its operands are read. -/
theorem run_congr_of_regs (e : Env) (a : Act) {s t : State} (hshared : t.shared = s.shared)
    (hstatus : t.port.status = s.port.status) (hci : t.port.ci = s.port.ci) (hstream : t.port.stream = s.port.stream) :
    (a.run e t).shared = (a.run e s).shared ∧ (a.run e t).port.status = (a.run e s).port.status := by
  induction a generalizing s t with
  | complete ws =>
    obtain ⟨hs1, hs2, hs3, -⟩ := Port.writeRegs_frame ws s.port
    obtain ⟨ht1, ht2, ht3, -⟩ := Port.writeRegs_frame ws t.port
    simp [hs1, hs2, hs3, ht1, ht2, ht3, hshared, hstatus, hci, hstream]
  | raise c info => simp [hshared, hstatus]
  | access q k ih =>
    simp only [Act.run, hshared]
    exact ih _ rfl hstatus hci hstream

/-- Settles O42: the two states have one plan, which runs the same from both. -/
theorem feedTruncatesByMask : Obligations.FeedTruncatesByMask := fun s t u ra rb v w hne hmask ht hu => by
  have hplan : plan Config.env (.feed ra rb) (s.setPort (s.port.writeReg rb v)) =
      plan Config.env (.feed ra rb) (s.setPort (s.port.writeReg rb w)) := by
    refine plan_feed_congr ?_ ?_ rfl
    · simp only [setPort_port, Port.readReg_writeReg, hne, false_and, if_false]
    · simp only [setPort_port, Port.readReg_writeReg, true_and]
      split
      · simp only [Option.map_some, hmask]
      · rfl
  rw [exec_eq_runWhole] at ht hu
  cases ht
  cases hu
  rw [hplan]
  exact run_congr_of_regs _ _ rfl (by simp) (by simp) (by simp)

/-! ### RANDBYTES (43_prng.md R101, R103) -/

/-- The values of `n` draws in order, from `h` on. -/
def drawnValues (e : Env) : Nat → Shared → List Word
  | 0, _ => []
  | n + 1, h => drawnValue e.cfg (beforeLanes e h).prng :: drawnValues e n (drawn e h)

/-- One draw as RAND64 makes it. -/
theorem drawOnce_eq (s : State) :
    drawOnce s = some (drawnValue Config.cfg (beforeLanes Config.env s.shared).prng, drawn Config.env s.shared) := by
  obtain ⟨t, ht, -, hshared, hreg⟩ := exec_rand64 s 1
  rw [if_neg (by decide)] at hreg
  rw [drawOnce, ht]
  simp only [hreg, hshared, Option.map_some]
  rfl

/-- `n` draws as RAND64 makes them. -/
theorem drawTimes_eq (n : Nat) (s : State) :
    drawTimes n s = some (drawnValues Config.env n s.shared, (drawn Config.env)^[n] s.shared) := by
  induction n generalizing s with
  | zero => rfl
  | succ n ih =>
    rw [drawTimes, drawOnce_eq]
    simp only [ih, setShared_shared]
    rfl

@[simp] theorem length_drawnValues (e : Env) (n : Nat) (h : Shared) : (drawnValues e n h).length = n := by
  induction n generalizing h with
  | zero => rfl
  | succ n ih => rw [drawnValues, List.length_cons, ih]

theorem drawnValues_add (e : Env) (n k : Nat) (h : Shared) :
    drawnValues e (n + k) h = drawnValues e n h ++ drawnValues e k ((drawn e)^[n] h) := by
  induction n generalizing h with
  | zero => rw [Nat.zero_add]; rfl
  | succ n ih =>
    rw [Nat.add_right_comm, drawnValues, ih]
    rfl

/-- The bytes of `n` draws in order, from `h` on, each draw's little-endian. -/
def drawnBytes (e : Env) (n : Nat) (h : Shared) : List Byte := (drawnValues e n h).flatMap leBytes

@[simp] theorem length_drawnBytes (e : Env) (n : Nat) (h : Shared) : (drawnBytes e n h).length = 8 * n := by
  simp [drawnBytes, List.length_flatMap, Nat.mul_comm]

theorem drawnBytes_add (e : Env) (n k : Nat) (h : Shared) :
    drawnBytes e (n + k) h = drawnBytes e n h ++ drawnBytes e k ((drawn e)^[n] h) := by
  rw [drawnBytes, drawnValues_add, List.flatMap_append]
  rfl

/-- Byte `j` of words laid out one behind the other. -/
theorem getD_flatMap_leBytes (vs : List Word) (j : Nat) :
    (vs.flatMap leBytes).getD j 0 = byteOf (vs.getD (j / 8) 0) (j % 8) := by
  induction vs generalizing j with
  | nil => simp [byteOf]
  | cons v vs ih =>
    rw [List.flatMap_cons]
    by_cases hj : j < 8
    · rw [List.getD_append _ _ _ _ hj, getD_leBytes v hj, Nat.div_eq_of_lt hj, Nat.mod_eq_of_lt hj, List.getD_cons_zero]
    · obtain ⟨i, rfl⟩ := Nat.exists_eq_add_of_le' (Nat.le_of_not_lt hj)
      rw [List.getD_append_right _ _ _ _ (Nat.le_add_left 8 i), length_leBytes, Nat.add_sub_cancel, ih,
        Nat.add_div_right i (by decide), Nat.add_mod_right, List.getD_cons_succ]

/-- A draw does not look at data memory and leaves it. -/
theorem drawn_setMem (e : Env) (h : Shared) (m : Memory) :
    drawnValue e.cfg (beforeLanes e { h with mem := m }).prng = drawnValue e.cfg (beforeLanes e h).prng ∧
      drawn e { h with mem := m } = { drawn e h with mem := m } := by
  unfold drawn beforeLanes
  cases reseedDue (h.prng.cnt + 1) <;> exact ⟨rfl, rfl⟩

/-- Draws do not look at data memory and leave it. -/
theorem draws_setMem (e : Env) (n : Nat) (h : Shared) (m : Memory) :
    drawnValues e n { h with mem := m } = drawnValues e n h ∧
      (drawn e)^[n] { h with mem := m } = { (drawn e)^[n] h with mem := m } := by
  induction n generalizing h with
  | zero => exact ⟨rfl, rfl⟩
  | succ n ih =>
    obtain ⟨hvalue, hshared⟩ := drawn_setMem e h m
    rw [drawnValues, drawnValues, Function.iterate_succ_apply, Function.iterate_succ_apply, hvalue, hshared,
      (ih _).1, (ih _).2]
    exact ⟨rfl, rfl⟩

/-- What is shared after `n` draws, with `bs` written to data memory from `a` on. -/
def filled (e : Env) (a : Word) (bs : List Byte) (n : Nat) (h : Shared) : Shared :=
  { (drawn e)^[n] h with mem := Memory.writeRange h.mem a bs }

/-- Draws after a fill are the draws that follow those before it. -/
theorem drawnBytes_filled (e : Env) (a : Word) (bs : List Byte) (n k : Nat) (h : Shared) :
    drawnBytes e k (filled e a bs n h) = drawnBytes e k ((drawn e)^[n] h) :=
  congrArg (List.flatMap leBytes) (draws_setMem e k ((drawn e)^[n] h) _).1

/-- One fill behind the other. -/
theorem filled_filled (e : Env) (a : Word) (bs cs : List Byte) (n k : Nat) (h : Shared) :
    filled e (a + BitVec.ofNat 64 bs.length) cs k (filled e a bs n h) = filled e a (bs ++ cs) (n + k) h := by
  rw [filled, filled, (draws_setMem e k _ _).2, filled, Memory.writeRange_append, Nat.add_comm n k,
    Function.iterate_add_apply]

/-- A batch is four draws and their 32 bytes. -/
theorem run_drawBatch (e : Env) (k : List Byte → Act) (s : State) :
    (drawBatch e.cfg k).run e s = (k (drawnBytes e 4 s.shared)).run e (s.setShared ((drawn e)^[4] s.shared)) := by
  simp only [drawBatch, run_draw, setShared_shared, setShared_setShared]
  simp only [drawnBytes, drawnValues, List.flatMap_cons, List.flatMap_nil, List.append_nil, List.append_assoc]
  rfl

/-- A batch of which bytes are written, and what comes after it. -/
theorem run_drawBatch_writeBytes (e : Env) (f : List Byte → List Byte) (a : Word) (k : Act) (s : State) :
    (drawBatch e.cfg fun bs => writeBytes (f bs) a k).run e s =
      k.run e (s.setShared (filled e a (f (drawnBytes e 4 s.shared)) 4 s.shared)) := by
  have hmem : ((drawn e)^[4] s.shared).mem = s.shared.mem :=
    (congrArg Shared.mem (draws_setMem e 4 s.shared s.shared.mem).2 :)
  rw [run_drawBatch, run_writeBytes, setShared_shared, hmem]
  rfl

/-- Whole batches: the bytes of their draws, and the address behind them. -/
theorem run_fillBlocks (e : Env) (m : Nat) (a : Word) (k : Word → Act) (s : State) :
    (fillBlocks e.cfg m a k).run e s = (k (a + BitVec.ofNat 64 (32 * m))).run e
      (s.setShared (filled e a (drawnBytes e (4 * m) s.shared) (4 * m) s.shared)) := by
  induction m generalizing a s with
  | zero =>
    rw [fillBlocks, Nat.mul_zero, BitVec.add_zero]
    rfl
  | succ m ih =>
    have haddr : a + BitVec.ofNat 64 (32 * (m + 1)) = a + 32 + BitVec.ofNat 64 (32 * m) := by
      rw [Nat.mul_succ, Nat.add_comm, BitVec.ofNat_add, ← BitVec.add_assoc]
      rfl
    have hfill := filled_filled e a (drawnBytes e 4 s.shared) (drawnBytes e (4 * m) ((drawn e)^[4] s.shared)) 4 (4 * m)
      s.shared
    rw [length_drawnBytes] at hfill
    rw [fillBlocks, run_drawBatch_writeBytes e (fun bs => bs), ih, haddr, setShared_shared, setShared_setShared,
      drawnBytes_filled, Nat.mul_succ, Nat.add_comm (4 * m), drawnBytes_add, ← hfill]
    rfl

/-- A bulk fill of `n` bytes makes four draws for every 32 bytes begun, and writes the first `n` of their bytes. -/
theorem run_randBytes (e : Env) (a : Word) (n : Nat) (k : Act) (s : State) :
    let N := 4 * ((n + 31) / 32)
    (randBytes e.cfg a n k).run e s =
      k.run e (s.setShared (filled e a ((drawnBytes e N s.shared).take n) N s.shared)) := by
  dsimp only
  rw [randBytes, run_fillBlocks]
  by_cases hr : n % 32 = 0
  · rw [if_pos hr, show (n + 31) / 32 = n / 32 by omega, List.take_of_length_le (by rw [length_drawnBytes]; omega)]
  · let full := drawnBytes e (4 * (n / 32)) s.shared
    let last := drawnBytes e 4 ((drawn e)^[4 * (n / 32)] s.shared)
    have hfull : full.length = 32 * (n / 32) := by
      rw [length_drawnBytes]
      omega
    have htake : (full ++ last).take n = full ++ last.take (n % 32) := by
      rw [← List.take_length_add_append, hfull, Nat.div_add_mod]
    rw [if_neg hr, run_drawBatch_writeBytes, setShared_shared, setShared_setShared, drawnBytes_filled, ← hfull,
      filled_filled, ← htake, ← drawnBytes_add, show (n + 31) / 32 = n / 32 + 1 by omega, Nat.mul_succ]

/-- Settles O43: the draws are RAND64's (`drawTimes_eq`), and the bytes written are read back at their places. -/
theorem randbytesResult : Obligations.RandbytesResult := fun s ra rb a n ha hb huse => by
  let N := 4 * ((n.toNat + 31) / 32)
  let bs := (drawnBytes Config.env N s.shared).take n.toNat
  have hlen : bs.length = n.toNat := by
    rw [List.length_take, length_drawnBytes]
    omega
  have hrun : (plan Config.env (.randbytes ra rb) s).run Config.env s =
      retire [] (s.setShared (filled Config.env a bs N s.shared)) := by
    rw [plan_randbytes ha hb, (huse.passes _).1, (huse.passes _).2, run_randBytes, run_complete]
  have hread := fun x => Memory.read_writeRange bs s.shared.mem a x (hlen ▸ huse.2.1)
  simp only [hlen] at hread
  refine ⟨_, _, _, drawTimes_eq N s, exec_of_run hrun, completed_retire [] [] (by simp) s _, rfl, fun j hj => ?_,
    fun x hx => ?_⟩
  · refine (hread _).trans ?_
    rw [if_pos (by omega), Nat.add_sub_cancel_left, ← getD_flatMap_leBytes]
    simp [bs, drawnBytes, List.getD_eq_getElem?_getD, hj]
  · exact (hread x).trans (if_neg (by omega))

end Sys2Proof.Machine

/-! Exceptions (60_exceptions.md): a port that is not busy, taking a fault, a halted port, and the clock input. -/

namespace Sys2Proof.Machine

/-! ### A port that is not busy, and taking a fault (60_exceptions.md R109 to R111) -/

/-- Settles O7: the move of a port that is not busy is the idle one, for a step and for an access. -/
theorem idlePortExecutesNothing : Obligations.IdlePortExecutesNothing := fun _ hb =>
  ⟨step_eq_next_iff.2 (.idle hb), accessStep_eq_next_iff.2 (.idle hb)⟩

/-- Settles O14: the faulted port is not busy, so that it executes nothing. -/
theorem faultEntry : Obligations.FaultEntry := fun c info s =>
  have hfault := tookFault_enterFault c info s
  ⟨hfault, idlePortExecutesNothing _ hfault.busy⟩

/-- A command that sets `FAULT` is one whose plan, on its operands, is that fault. -/
theorem enterFault_of_exec {i : Instr} {s t : State} (h : exec i s = .next t)
    (hs : statusFault s.port.status = false) (ht : statusFault t.port.status = true) :
    ∃ c info, plan Config.env i s = .raise c info ∧ t = enterFault c info s := by
  rcases exec_cases h with hfault | ⟨-, g, ws, rfl⟩
  · exact hfault
  · rw [statusFault_retire, setShared_port, hs] at ht
    cases ht

/-- Settles O15: the plan is the fault alone, with no access before it, and taking it leaves what `TookFault` says. -/
theorem faultsArePrecise : Obligations.FaultsArePrecise := by
  intro i s t h hs ht
  obtain ⟨c, info, hp, rfl⟩ := enterFault_of_exec h hs ht
  have hfault := tookFault_enterFault c info s
  exact ⟨by rw [hp]; rfl, hfault.shared, hfault.regs, hfault.written, hfault.ci, hfault.faultCi⟩

/-! ### A halted port (60_exceptions.md R111) -/

/-- A port that is not busy makes no move but the idle one. -/
theorem PortMove.eq_of_idle {f : Act → State → State} {s t : State} (h : PortMove f s t)
    (hb : statusBusy s.port.status = false) : t = s := by
  cases h with
  | idle => rfl
  | command hbusy | illegal hbusy | endStream hbusy => cases hb.symm.trans hbusy

/-- A port that is not busy is left as it is by every move of every port, its own included. -/
theorem focused_move_idle {f : Act → State → State} (hf : OwnPortOnly f) {s t u : State} {n m : Nat} {p : Port}
    (hp : s.ports[n]? = some p) (hb : statusBusy p.status = false) (hu : s.focus m = some u) (h : PortMove f u t) :
    t.ports[n]? = some p := by
  by_cases hnm : m = n
  · subst hnm
    obtain rfl : p = u.port := Option.some.inj (hp.symm.trans (focus_port hu))
    obtain ⟨-, -, hports, -⟩ := focus_frame hu
    rw [h.eq_of_idle hb, hports, hp]
  · rw [focused_move_ports hf hu h, List.getElem?_set_ne hnm, hp]

theorem replacePort_getElem?_ne {n m : Nat} (h : m ≠ n) (s : State) (q : Port) :
    (s.replacePort m q).ports[n]? = s.ports[n]? := by rw [replacePort_ports, List.getElem?_set_ne h]

/-- Of the host moves other than Reset(), only a register write changes a halted port. -/
theorem hostMove_halted {e : Env} {s t : State} {m : HostMove} {r : HostReply} {n : Nat} {p : Port}
    (hp : s.ports[n]? = some p) (hfault : statusFault p.status = true) (hm : m ≠ .reset)
    (h : hostMove e s m = some (r, t)) :
    t.ports[n]? = some p ∨ ∃ i v, t.ports[n]? = some (p.writeReg i v) := by
  cases m with
  | writeReg k i v =>
    obtain ⟨q, hq, -, -, -, rfl⟩ := hostMove_writeReg_iff.1 h
    by_cases hk : k = n
    · subst hk
      obtain rfl : p = q := Option.some.inj (hp.symm.trans hq)
      exact .inr ⟨i, v, replacePort_getElem?_same hp _⟩
    · exact .inl ((replacePort_getElem?_ne hk s _).trans hp)
  | submit k cs =>
    obtain ⟨q, hq, -, hnofault, -, -, rfl⟩ := hostMove_submit_iff.1 h
    have hk : k ≠ n := by
      rintro rfl
      obtain rfl : p = q := Option.some.inj (hp.symm.trans hq)
      cases hfault.symm.trans hnofault
    exact .inl ((replacePort_getElem?_ne hk s _).trans hp)
  | readReg k i =>
    obtain ⟨q, hq, -, rfl, -⟩ := hostMove_readReg_iff.1 h
    rw [replacePort_self hq]
    exact .inl hp
  | readStatus k =>
    obtain ⟨q, hq, -, rfl⟩ := hostMove_readStatus_iff.1 h
    rw [replacePort_self hq]
    exact .inl hp
  | readCfg => obtain ⟨-, rfl⟩ := hostMove_readCfg_iff.1 h; exact .inl hp
  | prngRead => obtain ⟨-, -, rfl⟩ := hostMove_prngRead_iff.1 h; exact .inl hp
  | prngWrite st => obtain ⟨-, -, rfl⟩ := hostMove_prngWrite_iff.1 h; exact .inl hp
  | memWrite a bs => obtain ⟨-, -, rfl⟩ := hostMove_memWrite_iff.1 h; exact .inl hp
  | memRead a k => obtain ⟨-, -, rfl⟩ := hostMove_memRead_iff.1 h; exact .inl hp
  | reset => exact absurd rfl hm

/-- Of the events other than Reset(), only a register write of the host changes a halted port. -/
theorem event_halted {ev : Event} {s t : State} {n : Nat} {p : Port} (hp : s.ports[n]? = some p)
    (hfault : statusFault p.status = true) (hb : statusBusy p.status = false) (hev : ev ≠ .host .reset)
    (h : ev.apply s = some t) : t.ports[n]? = some p ∨ ∃ i v, t.ports[n]? = some (p.writeReg i v) := by
  obtain ⟨k, u, -, hu, hm⟩ | ⟨k, u, -, hu, hm⟩ | ⟨m, r, rfl, hm⟩ := event_apply_iff.1 h
  · exact .inl (focused_move_idle (run_ownPortOnly _) hp hb hu hm)
  · exact .inl (focused_move_idle (once_ownPortOnly _) hp hb hu hm)
  · exact hostMove_halted hp hfault (fun hreset => hev (congrArg _ hreset)) hm

/-- The host cannot submit to a halted port: it waits. -/
theorem hostMove_submit_halted (e : Env) {s : State} {n : Nat} {p : Port} (hp : s.ports[n]? = some p)
    (hfault : statusFault p.status = true) (cs : List Cmd) : hostMove e s (.submit n cs) = none := by
  refine Option.eq_none_iff_forall_ne_some.2 fun ⟨r, t⟩ h => ?_
  obtain ⟨q, hq, -, hnofault, -⟩ := hostMove_submit_iff.1 h
  obtain rfl : p = q := Option.some.inj (hp.symm.trans hq)
  cases hfault.symm.trans hnofault

/-- The host can read every register of a port that is not busy. -/
theorem hostMove_readReg_idle (e : Env) {s : State} {n : Nat} {p : Port} (hp : s.ports[n]? = some p)
    (hb : statusBusy p.status = false) (r : RegNo) :
    ∃ v t, hostMove e s (.readReg n r) = some (v, t) ∧ ∀ w, p.readReg r = some w → v = .value w := by
  cases hr : p.readReg r with
  | none => exact ⟨_, _, hostMove_readReg_iff.2 ⟨p, hp, hb, rfl, .inr ⟨hr, rfl⟩⟩, fun w hw => by cases hw⟩
  | some x => exact ⟨_, _, hostMove_readReg_iff.2 ⟨p, hp, hb, rfl, .inl ⟨x, hr, rfl⟩⟩, fun w hw => by cases hw; rfl⟩

/-- Settles O16: of the fields spoken of, a register write of the host changes none, and no other event but Reset() changes
the port. -/
theorem faultStaysUntilReset : Obligations.FaultStaysUntilReset := by
  intro s n p hp hfault hb
  refine ⟨hostMove_submit_halted _ hp hfault, hostMove_readReg_idle _ hp hb,
    ⟨_, hostMove_readStatus_iff.2 ⟨p, hp, rfl, rfl⟩⟩, ⟨_, Port.reset, rfl, ?_, by decide⟩, fun ev t hev h => ?_⟩
  · obtain ⟨hn, -⟩ := List.getElem?_eq_some_iff.1 hp
    rw [resetBlock_ports, List.getElem?_replicate_of_lt hn]
  · obtain hq | ⟨i, v, hq⟩ := event_halted hp hfault hb hev h
    · exact ⟨p, hq, rfl, rfl, rfl, rfl, rfl, rfl⟩
    · exact ⟨p.writeReg i v, hq, by simp⟩

/-! ### The clock input (60_exceptions.md R116) -/

/-- The clock may go on from `c` to `d`: no timestamp below the last, and no call taken back. -/
def Clock.MayBecome (c d : Clock) : Prop := c.last.toNat ≤ d.last.toNat ∧ c.calls ≤ d.calls

theorem Clock.MayBecome.refl (c : Clock) : c.MayBecome c := ⟨le_rfl, le_rfl⟩

theorem Clock.MayBecome.trans {b c d : Clock} (h : b.MayBecome c) (h' : c.MayBecome d) : b.MayBecome d :=
  ⟨h.1.trans h'.1, h.2.trans h'.2⟩

/-- The next timestamp is not below the last: the sum does not wrap, and 2^64 - 1 is above every other. -/
theorem last_le_clockNext (e : Env) (c : Clock) : c.last.toNat ≤ (clockNext e c).toNat := by
  simp only [clockNext]
  split
  · next hlt =>
    rw [BitVec.toNat_add_of_lt hlt]
    exact Nat.le_add_right _ _
  · rw [BitVec.toNat_allOnes]
    exact Nat.le_pred_of_lt c.last.isLt

theorem perform_clock_mayBecome (e : Env) (h : Shared) (q : Access) : h.clock.MayBecome (perform e h q).2.clock := by
  cases q with
  | clock => exact ⟨last_le_clockNext e h.clock, Nat.le_succ _⟩
  | _ => exact .refl _

theorem run_clock_mayBecome (e : Env) (a : Act) (s : State) :
    s.shared.clock.MayBecome (a.run e s).shared.clock := by
  induction a generalizing s with
  | complete ws => exact .refl _
  | raise c info => exact .refl _
  | access q k ih => exact (perform_clock_mayBecome e s.shared q).trans (ih _ (s.setShared (perform e s.shared q).2))

theorem once_clock_mayBecome (e : Env) (a : Act) (s : State) :
    s.shared.clock.MayBecome (a.once e s).shared.clock := by
  cases a with
  | complete ws => exact .refl _
  | raise c info => exact .refl _
  | access q k => exact perform_clock_mayBecome e s.shared q

/-- A move of the port in focus does not turn the clock back. -/
theorem focused_move_clock {f : Act → State → State}
    (hf : ∀ (a : Act) (s : State), s.shared.clock.MayBecome (f a s).shared.clock) {s t u : State} {n : Nat}
    (hu : s.focus n = some u) (h : PortMove f u t) : s.shared.clock.MayBecome t.shared.clock := by
  obtain ⟨-, hshared, -⟩ := focus_frame hu
  rw [← hshared]
  cases h with
  | command => exact hf _ u
  | idle | illegal | endStream => exact .refl _

/-- No host move touches the clock, Reset() included (70_reset_and_hazards.md R123). -/
theorem hostMove_clock {e : Env} {s t : State} {m : HostMove} {r : HostReply} (h : hostMove e s m = some (r, t)) :
    t.shared.clock = s.shared.clock := by
  have hport : ∀ {n f}, hostPortMove s n f = some (r, t) → t.shared.clock = s.shared.clock := fun h => by
    obtain ⟨p, q, -, -, rfl⟩ := hostPortMove_eq_some.1 h
    rw [replacePort_shared]
  cases m with
  | writeReg | readReg | submit | readStatus =>
    simp only [hostMove] at h
    exact hport h
  | readCfg | reset => cases h; rfl
  | prngRead | prngWrite | memWrite | memRead =>
    obtain ⟨-, h⟩ := Option.ite_none_right_eq_some.1 h
    cases h
    rfl

/-- Settles O53: an access is the only thing that moves the clock, and its answer is the next timestamp. -/
theorem clockNeverGoesBack : Obligations.ClockNeverGoesBack := by
  refine ⟨fun ev s t h => ?_, fun h h' v hv => ?_⟩
  · obtain ⟨n, u, -, hu, hm⟩ | ⟨n, u, -, hu, hm⟩ | ⟨m, r, -, hm⟩ := event_apply_iff.1 h
    · exact focused_move_clock (run_clock_mayBecome _) hu hm
    · exact focused_move_clock (once_clock_mayBecome _) hu hm
    · rw [hostMove_clock hm]
      exact Clock.MayBecome.refl _
  · cases hv
    exact ⟨rfl, rfl, last_le_clockNext _ _, rfl⟩

end Sys2Proof.Machine

/-! Reset and hazards (70_reset_and_hazards.md): the end of a stream, progress, the bytes a hash command hashes, and the bounds
on the accesses of every command. -/

namespace Sys2Proof.Machine

/-! ### The end of a stream, and the next one (70_reset_and_hazards.md R126) -/

/-- A command that moves `ci` has completed, as a fault leaves `ci`. -/
theorem exec_completed_of_ci {i : Instr} {s t : State} (h : exec i s = .next t) (hci : t.port.ci = s.port.ci + 1) :
    ∃ dst, Completed dst s t := by
  rcases exec_cases h with ⟨c, info, -, rfl⟩ | ⟨-, g, ws, rfl⟩
  · have hne : s.port.ci ≠ s.port.ci + 1 := by bv_omega
    exact absurd hci hne
  · exact ⟨ws.map Prod.fst, completed_retire ws _ (fun _ => List.mem_map_of_mem) s g⟩

/-- A port whose `ci` is at the end of its stream has no word to fetch. -/
theorem Port.fetch_eq_none_iff {p : Port} : p.fetch = none ↔ p.stream.length ≤ p.ci.toNat := List.getElem?_eq_none_iff

/-- Settles O8: a completed command by its `Completed` status, an empty stream by the move that ends it, and the host's moves
by what allows them. -/
theorem streamEndsWithItsLastCommand : Obligations.StreamEndsWithItsLastCommand := by
  refine ⟨fun i s t h hci => ?_, fun s hb hempty hci => ?_, fun s n p cs hp hb hf hcs => ?_⟩
  · obtain ⟨dst, hdone⟩ := exec_completed_of_ci h hci
    have hstatus := hdone.status
    rw [← hci] at hstatus
    split
    · next hend => rw [hstatus, if_pos hend]; simp
    · next hend => rw [hstatus, if_neg hend]
  · have hend : s.port.ci.toNat = s.port.stream.length := by rw [hempty, hci]; rfl
    exact ⟨_, step_eq_next_iff.2 (.endStream hb (Port.fetch_eq_none_iff.2 hend.ge) hend), by simp, by simp, rfl⟩
  · refine ⟨_, p.submit cs, hostMove_submit_iff.2 ⟨p, hp, hb, hf, of_decide_eq_true hcs, rfl, rfl⟩,
      replacePort_getElem?_same hp _, rfl, rfl, Port.readReg_congr rfl rfl, fun r => ?_⟩
    obtain ⟨v, t, hread, -⟩ := hostMove_readReg_idle Config.env hp hb r
    rw [hread]
    rfl

/-! ### Progress (70_reset_and_hazards.md R127, 20_memory.md R49) -/

/-- A port that meets the invariant always has a move: where a busy one has no word to fetch, its stream is at its end. -/
theorem exists_portMove (f : Act → State → State) {s : State} (h : s.port.Inv) : ∃ t, PortMove f s t := by
  cases hb : statusBusy s.port.status with
  | false => exact ⟨s, .idle hb⟩
  | true =>
    cases hw : s.port.fetch with
    | none => exact ⟨_, .endStream hb hw (h.index.antisymm (Port.fetch_eq_none_iff.1 hw))⟩
    | some w =>
      cases hd : decode w with
      | ok i => exact ⟨_, .command hb hw hd⟩
      | error x => exact ⟨_, .illegal hb hw hd⟩

/-- Settles O9: the port that moves has a move by a whole command and one by an access. -/
theorem noPortIsEverStuck : Obligations.NoPortIsEverStuck := fun _ h =>
  ⟨(exists_portMove _ h.port).imp fun _ => step_eq_next_iff.2,
    (exists_portMove _ h.port).imp fun _ => accessStep_eq_next_iff.2⟩

/-! ### The bytes a hash command hashes (70_reset_and_hazards.md R130) -/

/-- A buffer read goes on with the bytes its reads were answered. -/
theorem resume_readBytes (bs : List Byte) (a : Word) (k : List Byte → Act) :
    (readBytes bs.length a k).resume (bs.map .byte) = k bs := by
  induction bs generalizing a k with
  | nil => exact resume_nil _
  | cons b bs ih => exact ih (a + 1) fun cs => k (b :: cs)

/-- Settles O46: past its checks each command is a buffer read of `n` bytes. -/
theorem hashIsOfTheBytesRead : Obligations.HashIsOfTheBytesRead := by
  intro e s rd re ra rb rc a n seed bs ha hb hc huse hlen
  refine ⟨?_, ?_, ?_, fun d hd hd0 hadm => ?_⟩
  · rw [plan_rhash ha hb hc huse, ← hlen, resume_readBytes]
  · rw [plan_shash ha hb hc huse, ← hlen, resume_readBytes]
  · rw [plan_shash128 ha hb hc huse, ← hlen, resume_readBytes]
  · have hdst : Usable s .write d 16 := ⟨(absurd · hd0), hadm⟩
    rw [plan_shash128b ha hb hc hd, (huse.passes _).1, (hdst.passes _).1, (huse.passes _).2, (hdst.passes _).2, ← hlen,
      resume_readBytes]

/-! ### What a command is past its checks (60_exceptions.md R108) -/

/-- The command is a fault, with no access before it, or satisfies `P`. -/
def Act.RaisesOr (P : Act → Prop) (a : Act) : Prop := (∃ c info, a = .raise c info) ∨ P a

section RaisesOr
variable {P : Act → Prop} {s : State}

theorem raisesOr_source {i : RegNo} {k : Word → Act} (h : ∀ v, s.port.readReg i = some v → (k v).RaisesOr P) :
    (source s i k).RaisesOr P := by
  cases hv : s.port.readReg i with
  | none => exact .inl ⟨_, _, source_none hv⟩
  | some v =>
    rw [source_some hv]
    exact h v hv

theorem raisesOr_notNull {a : Word} {n : Nat} {k : Act} (h : k.RaisesOr P) : (notNull a n k).RaisesOr P := by
  unfold notNull
  split
  · exact .inl ⟨_, _, rfl⟩
  · exact h

theorem raisesOr_admitted {kind : AccessKind} {a : Word} {n : Nat} {k : Act} (h : k.RaisesOr P) :
    (admitted s kind a n k).RaisesOr P := by
  cases hr : rejected s.admits kind a n with
  | none => rwa [admitted_of hr]
  | some b => exact .inl ⟨_, _, admitted_rejected hr⟩

/-- What every fault satisfies need not be checked of the faults. -/
theorem Act.RaisesOr.elim {a : Act} (h : a.RaisesOr P) (hraise : ∀ c info, P (.raise c info)) : P a := by
  rcases h with ⟨c, info, rfl⟩ | h
  · exact hraise c info
  · exact h

end RaisesOr

/-! ### Accesses by kind -/

def Access.isReadByte : Access → Bool
  | .readByte _ => true
  | _ => false

def Access.isWriteByte : Access → Bool
  | .writeByte _ _ => true
  | _ => false

/-- An update of a feed word (43_prng.md R100). -/
def Access.isWriteF : Access → Bool
  | .writeF _ _ => true
  | _ => false

/-- A write of the draw counter, which a draw makes once and a reseed once (43_prng.md R94, R98). -/
def Access.isWriteCnt : Access → Bool
  | .writeCnt _ => true
  | _ => false

@[simp] theorem length_byteReads (a : Word) (n : Nat) : (byteReads a n).length = n := by simp [byteReads]

@[simp] theorem length_byteWrites (a : Word) (bs : List Byte) : (byteWrites a bs).length = bs.length := by
  simp [byteWrites]

/-- A kind that holds of every read of a byte, or of none. -/
theorem countP_byteReads {p : Access → Bool} (b : Bool) (hp : ∀ x, p (.readByte x) = b) (a : Word) (n : Nat) :
    (byteReads a n).countP p = if b then n else 0 := by
  cases b <;> simp [byteReads, List.countP_map, Function.comp_def, hp]

/-- A kind that holds of every write of a byte, or of none. -/
theorem countP_byteWrites {p : Access → Bool} (b : Bool) (hp : ∀ x v, p (.writeByte x v) = b) (a : Word)
    (bs : List Byte) : (byteWrites a bs).countP p = if b then bs.length else 0 := by
  cases b <;> simp [byteWrites, List.countP_map, Function.comp_def, hp]

theorem isByte_of_isReadByte (q : Access) (h : q.isReadByte = true) : q.isByte = true := by
  cases q with
  | readByte a => rfl
  | _ => cases h

theorem isByte_of_isWriteByte (q : Access) (h : q.isWriteByte = true) : q.isByte = true := by
  cases q with
  | writeByte a b => rfl
  | _ => cases h

/-- Byte accesses are counted among the byte accesses. -/
theorem countP_byteTrace {p : Access → Bool} (hp : ∀ q, p q = true → q.isByte = true) (e : Env) (a : Act) (h : Shared) :
    (a.trace e h).countP p = (a.byteTrace e h).countP p := by
  rw [Act.byteTrace, List.countP_filter]
  refine List.countP_congr fun q _ => ?_
  simpa using hp q

theorem Act.ReadsBytes.reads {e : Env} {a : Word} {n : Nat} {act : Act} (hact : act.ReadsBytes e a n) (h : Shared) :
    (act.trace e h).countP Access.isReadByte = n := by
  rw [countP_byteTrace isByte_of_isReadByte, hact h, countP_byteReads true fun _ => rfl]
  rfl

theorem Act.WritesBytes.counts {e : Env} {a : Word} {n : Nat} {act : Act} (hact : act.WritesBytes e a n) (h : Shared) :
    (act.trace e h).countP Access.isWriteByte = n ∧ (act.trace e h).countP Access.isReadByte = 0 := by
  obtain ⟨bs, hbs, hl⟩ := hact h
  rw [countP_byteTrace isByte_of_isWriteByte, countP_byteTrace isByte_of_isReadByte, hl,
    countP_byteWrites true fun _ _ => rfl, countP_byteWrites false fun _ _ => rfl]
  exact ⟨hbs, rfl⟩

/-! ### The hash commands (41_riskyhash.md R80, 42_stablehash.md R91 to R93) -/

/-- The command reads at most `n` bytes one behind the other, then writes at most `m` so, and makes no other access. -/
def Act.ReadsThenWrites (e : Env) (n m : Nat) (act : Act) : Prop :=
  ∀ h, ∃ a k d bs, k ≤ n ∧ bs.length ≤ m ∧ act.trace e h = byteReads a k ++ byteWrites d bs

theorem readsThenWrites_raise (e : Env) (n m : Nat) (c : Cause) (info : Word) :
    (Act.raise c info).ReadsThenWrites e n m := fun _ => ⟨0, 0, 0, [], Nat.zero_le _, Nat.zero_le _, rfl⟩

theorem readsThenWrites_readBytes (e : Env) (n : Nat) (a : Word) (ws : List Byte → List (RegNo × Word)) :
    (readBytes n a fun bs => .complete (ws bs)).ReadsThenWrites e n 0 := fun _ =>
  ⟨a, n, 0, [], le_rfl, le_rfl, trace_readBytes n a _⟩

theorem readsThenWrites_readBytes_writeBytes (e : Env) {n m : Nat} (a d : Word) {f : List Byte → List Byte}
    (hf : ∀ bs, (f bs).length ≤ m) :
    (readBytes n a fun bs => writeBytes (f bs) d (.complete [])).ReadsThenWrites e n m := fun h =>
  ⟨a, n, d, f (Memory.readRange h.mem a n), le_rfl, hf _, by
    rw [trace_readBytes, trace_writeBytes, trace_complete, List.append_nil]; rfl⟩

/-- A hash command that leaves its digest in registers reads at most `x[rb]` bytes and makes no other access. -/
theorem readsThenWrites_plan_hash (e : Env) {s : State} {rd re ra rb rc : RegNo} {n : Word} {i : Instr}
    (hi : i ∈ registerHashes rd re ra rb rc) (hn : s.port.readReg rb = some n) :
    (plan e i s).ReadsThenWrites e n.toNat 0 := by
  refine Act.RaisesOr.elim ?_ (readsThenWrites_raise e _ _)
  simp only [registerHashes, List.mem_cons, List.not_mem_nil, or_false] at hi
  rcases hi with rfl | rfl | rfl
  all_goals
    refine raisesOr_source fun a _ => raisesOr_source fun v hv => raisesOr_source fun seed _ => ?_
    cases hn.symm.trans hv
    exact raisesOr_notNull (raisesOr_admitted (.inr (readsThenWrites_readBytes e _ a _)))

/-- SHASH128B reads at most `x[rb]` bytes, then writes at most 16. -/
theorem readsThenWrites_plan_shash128b (e : Env) {s : State} (re ra : RegNo) {rb : RegNo} (rc : RegNo) {n : Word}
    (hn : s.port.readReg rb = some n) : (plan e (.shash128b re ra rb rc) s).ReadsThenWrites e n.toNat 16 := by
  refine Act.RaisesOr.elim ?_ (readsThenWrites_raise e _ _)
  refine raisesOr_source fun a _ => raisesOr_source fun v hv => raisesOr_source fun seed _ => raisesOr_source fun d _ => ?_
  cases hn.symm.trans hv
  exact raisesOr_notNull (raisesOr_notNull (raisesOr_admitted (raisesOr_admitted (.inr
    (readsThenWrites_readBytes_writeBytes e a d fun _ => le_rfl)))))

/-- Such a command by the numbers of its accesses. -/
theorem Act.ReadsThenWrites.counts {e : Env} {n m : Nat} {act : Act} (hact : act.ReadsThenWrites e n m) (h : Shared) :
    let l := act.trace e h
    l.countP Access.isReadByte ≤ n ∧ l.countP Access.isWriteByte ≤ m ∧
      l.length = l.countP Access.isReadByte + l.countP Access.isWriteByte := by
  obtain ⟨a, k, d, bs, hk, hbs, hl⟩ := hact h
  have hreads : (act.trace e h).countP Access.isReadByte = k := by
    rw [hl, List.countP_append, countP_byteReads true fun _ => rfl, countP_byteWrites false fun _ _ => rfl]
    rfl
  have hwrites : (act.trace e h).countP Access.isWriteByte = bs.length := by
    rw [hl, List.countP_append, countP_byteReads false fun _ => rfl, countP_byteWrites true fun _ _ => rfl]
    exact Nat.zero_add _
  refine ⟨hreads.trans_le hk, hwrites.trans_le hbs, ?_⟩
  rw [hreads, hwrites, hl, List.length_append, length_byteReads, length_byteWrites]

/-! ### Draws and reseeds (43_prng.md R94, R98) -/

/-- The accesses make `d` draws and `r` reseeds, with what these ask of the platform inputs: a reseed is known by its read of
`S.F[0]`, a draw by its write of `S.CNT`, of which a reseed makes one of its own. -/
structure DrawsAndReseeds (d r : Nat) (l : List Access) : Prop where
  counts : l.countP Access.isWriteCnt = d + r
  reseeds : l.count (.readF 0) = r
  clocks : l.count .clock ≤ 31 * r
  snapshots : l.count .rusage ≤ r

theorem DrawsAndReseeds.append {d r d' r' : Nat} {l l' : List Access} (h : DrawsAndReseeds d r l)
    (h' : DrawsAndReseeds d' r' l') : DrawsAndReseeds (d + d') (r + r') (l ++ l') := by
  obtain ⟨hcnt, hres, hclk, hsnap⟩ := h
  obtain ⟨hcnt', hres', hclk', hsnap'⟩ := h'
  constructor <;> simp only [List.countP_append, List.count_append] <;> omega

theorem drawsAndReseeds_nil : DrawsAndReseeds 0 0 [] := ⟨rfl, rfl, Nat.zero_le _, Nat.zero_le _⟩

/-- Byte writes are no part of a draw. -/
theorem drawsAndReseeds_byteWrites (a : Word) (bs : List Byte) : DrawsAndReseeds 0 0 (byteWrites a bs) := by
  constructor
  case counts => exact countP_byteWrites false (fun _ _ => rfl) a bs
  all_goals simp [byteWrites, List.count_eq_zero]

/-- A jitter sample is one clock call. -/
theorem count_jitterTrace (e : Env) (cnt : Word) (m i : Nat) (x : Clock × Word × Word) :
    (jitterTrace e cnt m i x).countP Access.isWriteCnt = 0 ∧ (jitterTrace e cnt m i x).count (.readF 0) = 0 ∧
      (jitterTrace e cnt m i x).count .clock = m ∧ (jitterTrace e cnt m i x).count .rusage = 0 := by
  refine ⟨?_, ?_, ?_, ?_⟩ <;>
    simp [jitterTrace, List.countP_flatMap, List.count_flatMap, Function.comp_def, Access.isWriteCnt]

/-- A reseed makes at most 31 clock calls and one snapshot. -/
theorem drawsAndReseeds_reseedTrace (e : Env) (h : Shared) : DrawsAndReseeds 0 1 (reseedTrace e h) := by
  have hsamples := (sampleCount_bounds (h.prng.lanes.get 0)).2
  unfold reseedTrace
  constructor <;> cases e.cfg.hasRusage <;>
    simp [count_jitterTrace, Access.isWriteCnt, hsamples]

/-- RESEED is one reseed (43_prng.md R105). -/
theorem drawsAndReseeds_plan_reseed (e : Env) (s : State) (h : Shared) :
    DrawsAndReseeds 0 1 ((plan e .reseed s).trace e h) := by
  rw [plan, planReseed, trace_reseed, trace_complete, List.append_nil]
  exact drawsAndReseeds_reseedTrace e h

/-- The lane updates of a draw count nothing. -/
theorem drawsAndReseeds_drawLanesTrace (c : Cfg) (p : Prng) : DrawsAndReseeds 0 0 (drawLanesTrace c p) := by
  constructor <;> simp [drawLanesTrace, List.countP_flatMap, List.count_flatMap, Function.comp_def, Access.isWriteCnt]

/-- The reseed of a draw, where it is due. -/
def dueReseedTrace (e : Env) (h : Shared) : List Access := if reseedDue h.prng.cnt then reseedTrace e h else []

/-- The accesses of a draw: counting, the reseed if it is due, the lane updates; and what comes after it (`run_draw`). -/
theorem trace_draw_parts (e : Env) (k : Word → Act) (h : Shared) :
    (draw e.cfg k).trace e h =
      [.readCnt, .writeCnt (h.prng.cnt + 1)] ++ dueReseedTrace e (h.setPrng { h.prng with cnt := h.prng.cnt + 1 }) ++
        drawLanesTrace e.cfg (beforeLanes e h).prng ++
        (k (drawnValue e.cfg (beforeLanes e h).prng)).trace e (drawn e h) := by
  rw [trace_draw]
  unfold drawn beforeLanes dueReseedTrace
  cases hdue : reseedDue (h.prng.cnt + 1) <;>
    simp only [setPrng_prng, hdue, Bool.false_eq_true, if_false, if_true, trace_reseed, trace_drawLanes, List.cons_append,
      List.nil_append, List.append_assoc]

/-- The command makes `d` draws, each with at most one reseed, whatever it finds. -/
def Act.Draws (e : Env) (d : Nat) (act : Act) : Prop := ∀ h, ∃ r ≤ d, DrawsAndReseeds d r (act.trace e h)

section Draws
variable {e : Env} {d : Nat}

theorem draws_complete (ws : List (RegNo × Word)) : (Act.complete ws).Draws e 0 :=
  fun _ => ⟨0, le_rfl, drawsAndReseeds_nil⟩

theorem draws_raise (c : Cause) (info : Word) : (Act.raise c info).Draws e 0 :=
  fun _ => ⟨0, le_rfl, drawsAndReseeds_nil⟩

theorem draws_draw {k : Word → Act} (hk : ∀ v, (k v).Draws e d) : (draw e.cfg k).Draws e (1 + d) := fun h => by
  obtain ⟨r, hr, hrest⟩ := hk (drawnValue e.cfg (beforeLanes e h).prng) (drawn e h)
  have hcount : DrawsAndReseeds 1 0 [.readCnt, .writeCnt (h.prng.cnt + 1)] :=
    ⟨rfl, rfl, Nat.le_refl 0, Nat.le_refl 0⟩
  obtain ⟨q, hq, hdue⟩ : ∃ q ≤ 1,
      DrawsAndReseeds 0 q (dueReseedTrace e (h.setPrng { h.prng with cnt := h.prng.cnt + 1 })) := by
    unfold dueReseedTrace
    split
    · exact ⟨1, le_rfl, drawsAndReseeds_reseedTrace e _⟩
    · exact ⟨0, Nat.zero_le _, drawsAndReseeds_nil⟩
  rw [trace_draw_parts]
  have htotal := ((hcount.append hdue).append (drawsAndReseeds_drawLanesTrace e.cfg (beforeLanes e h).prng)).append hrest
  exact ⟨_, by omega, htotal⟩

theorem draws_writeBytes {bs : List Byte} {a : Word} {k : Act} (hk : k.Draws e d) : (writeBytes bs a k).Draws e d :=
  fun h => by
    obtain ⟨r, hr, hrest⟩ := hk { h with mem := Memory.writeRange h.mem a bs }
    rw [trace_writeBytes]
    have htotal := (drawsAndReseeds_byteWrites a bs).append hrest
    rw [Nat.zero_add, Nat.zero_add] at htotal
    exact ⟨r, hr, htotal⟩

theorem draws_drawBatch {k : List Byte → Act} (hk : ∀ bs, (k bs).Draws e d) : (drawBatch e.cfg k).Draws e (4 + d) := by
  rw [show 4 + d = 1 + (1 + (1 + (1 + d))) by omega]
  exact draws_draw fun _ => draws_draw fun _ => draws_draw fun _ => draws_draw fun _ => hk _

theorem draws_fillBlocks {m : Nat} {a : Word} {k : Word → Act} (hk : ∀ a, (k a).Draws e d) :
    (fillBlocks e.cfg m a k).Draws e (4 * m + d) := by
  induction m generalizing a with
  | zero => simpa [fillBlocks] using hk a
  | succ m ih =>
    rw [show 4 * (m + 1) + d = 4 + (4 * m + d) by omega]
    exact draws_drawBatch fun _ => draws_writeBytes ih

/-- A bulk fill makes four draws for every 32 bytes begun (43_prng.md R101). -/
theorem draws_randBytes {a : Word} {n : Nat} : (randBytes e.cfg a n (.complete [])).Draws e (4 * ((n + 31) / 32)) := by
  by_cases hr : n % 32 = 0
  · rw [show 4 * ((n + 31) / 32) = 4 * (n / 32) + 0 by omega]
    refine draws_fillBlocks fun a => ?_
    rw [if_pos hr]
    exact draws_complete _
  · rw [show 4 * ((n + 31) / 32) = 4 * (n / 32) + (4 + 0) by omega]
    refine draws_fillBlocks fun a => ?_
    rw [if_neg hr]
    exact draws_drawBatch fun _ => draws_writeBytes (draws_complete _)

end Draws

/-- RANDBYTES makes at most four draws for every 32 bytes begun, writes at most `x[rb]` bytes, and reads none. -/
theorem draws_and_writesBytes_plan_randbytes (e : Env) {s : State} (ra : RegNo) {rb : RegNo} {n : Word}
    (hn : s.port.readReg rb = some n) :
    (∃ d ≤ 4 * ((n.toNat + 31) / 32), (plan e (.randbytes ra rb) s).Draws e d) ∧
      ∃ a, ∃ m ≤ n.toNat, (plan e (.randbytes ra rb) s).WritesBytes e a m := by
  refine Act.RaisesOr.elim (P := fun act => (∃ d ≤ _, act.Draws e d) ∧ ∃ a, ∃ m ≤ n.toNat, act.WritesBytes e a m) ?_
    fun c info => ⟨⟨0, Nat.zero_le _, draws_raise c info⟩, 0, 0, Nat.zero_le _, fun _ => ⟨[], rfl, rfl⟩⟩
  refine raisesOr_source fun a _ => raisesOr_source fun v hv => ?_
  cases hn.symm.trans hv
  exact raisesOr_notNull (raisesOr_admitted (.inr
    ⟨⟨_, le_rfl, draws_randBytes⟩, a, _, le_rfl, writesBytes_randBytes⟩))

/-! ### FEED (43_prng.md R100, R104) -/

/-- The command updates `n` feed words, whatever it finds. -/
def Act.Updates (e : Env) (n : Nat) (act : Act) : Prop := ∀ h, (act.trace e h).countP Access.isWriteF = n

section Updates
variable {e : Env} {n : Nat}

theorem updates_readBytes {m : Nat} {a : Word} {k : List Byte → Act} (hk : ∀ bs, (k bs).Updates e n) :
    (readBytes m a k).Updates e n := fun h => by
  rw [trace_readBytes, List.countP_append, hk]
  exact (congrArg (· + n) (countP_byteReads false (fun _ => rfl) a m)).trans (Nat.zero_add n)

theorem updates_feedWord {w : Word} {o : BitVec 2} {k : BitVec 2 → Act} (hk : ∀ o, (k o).Updates e n) :
    (feedWord w o k).Updates e (n + 1) := fun h => by
  rw [feedWord, trace_readF, trace_writeF, List.countP_cons, List.countP_cons, hk]
  rfl

theorem updates_feedChunks {m : Nat} {a : Word} {o : BitVec 2} {k : BitVec 2 → Act} (hk : ∀ o, (k o).Updates e n) :
    (feedChunks m a o k).Updates e (n + m) := by
  induction m generalizing a o with
  | zero => exact hk o
  | succ m ih => exact updates_readBytes fun _ => updates_feedWord fun _ => ih

theorem updates_readFofs {k : BitVec 2 → Act} (hk : ∀ o, (k o).Updates e n) : (readFofs k).Updates e n :=
  fun h => hk _ h

theorem updates_writeFofs {o : BitVec 2} (ws : List (RegNo × Word)) : (writeFofs o (.complete ws)).Updates e 0 :=
  fun _ => rfl

/-- A feed updates one word for every eight bytes begun. -/
theorem updates_feed {a : Word} : (feed a n (.complete [])).Updates e ((n + 7) / 8) := by
  unfold feed
  split
  · next h0 => subst h0; exact fun _ => rfl
  · refine updates_readFofs fun o => ?_
    by_cases hr : n % 8 = 0
    · rw [show (n + 7) / 8 = 0 + n / 8 by omega]
      refine updates_feedChunks fun o => ?_
      rw [if_pos hr]
      exact updates_writeFofs _
    · rw [show (n + 7) / 8 = (0 + 1) + n / 8 by omega]
      refine updates_feedChunks fun o => ?_
      rw [if_neg hr]
      exact updates_readBytes fun _ => updates_feedWord fun _ => updates_writeFofs _

end Updates

/-- FEED reads at most 1023 bytes and updates one feed word for every eight of them begun. -/
theorem readsBytes_and_updates_plan_feed (e : Env) (s : State) (ra rb : RegNo) :
    ∃ a, ∃ m ≤ 1023, (plan e (.feed ra rb) s).ReadsBytes e a m ∧ (plan e (.feed ra rb) s).Updates e ((m + 7) / 8) := by
  refine Act.RaisesOr.elim (P := fun act => ∃ a, ∃ m ≤ 1023, act.ReadsBytes e a m ∧ act.Updates e ((m + 7) / 8)) ?_
    fun c info => ⟨0, 0, Nat.zero_le _, fun _ => rfl, fun _ => rfl⟩
  refine raisesOr_source fun a _ => raisesOr_source fun v _ => raisesOr_notNull (raisesOr_admitted (.inr
    ⟨a, _, ?_, readsBytes_feed, updates_feed⟩))
  rw [Config.feedMask, BitVec.toNat_and]
  exact Nat.and_le_right

/-! ### The mixing commands (40_mixing.md R68, R69) -/

/-- A command that, its operands read, has only to complete makes no access. -/
theorem trace_plan_mixing (e : Env) (s : State) (rd ra rb : RegNo) (h : Shared) :
    (plan e (.mixnum rd ra rb) s).trace e h = [] ∧ (plan e (.mixptr rd ra) s).trace e h = [] := by
  constructor
  · refine Act.RaisesOr.elim (P := fun act => act.trace e h = []) ?_ fun _ _ => rfl
    exact raisesOr_source fun _ _ => raisesOr_source fun _ _ => .inr rfl
  · refine Act.RaisesOr.elim (P := fun act => act.trace e h = []) ?_ fun _ _ => rfl
    exact raisesOr_source fun _ _ => .inr rfl

/-! ### The bounds of every command (70_reset_and_hazards.md R127) -/

/-- Settles O47: the bounds of each command past its checks, which access nothing. -/
theorem commandsAreBounded : Obligations.CommandsAreBounded := by
  intro e s rd re ra rb rc trace reads writes updates reseeds drawsAre
  have hreads : reads = List.countP Access.isReadByte := congrArg List.countP (funext fun q => by cases q <;> rfl)
  have hwrites : writes = List.countP Access.isWriteByte := congrArg List.countP (funext fun q => by cases q <;> rfl)
  have hupdates : updates = List.countP Access.isWriteF := congrArg List.countP (funext fun q => by cases q <;> rfl)
  have hdraws : ∀ {d : Nat} {act : Act}, act.Draws e d → drawsAre d (act.trace e s.shared) := fun h => by
    obtain ⟨r, hr, hcnt, rfl, hclk, hsnap⟩ := h s.shared
    refine ⟨(List.countP_congr fun q _ => ?_).trans hcnt, hr, hclk, hsnap⟩
    cases q <;> rfl
  rw [hreads, hwrites, hupdates]
  refine ⟨trace_plan_mixing e s rd ra rb s.shared, fun n hn => ?_, ?_, hdraws (draws_draw fun _ => draws_complete _), ?_⟩
  · obtain ⟨hread, hwrite, hlen⟩ := (readsThenWrites_plan_shash128b e re ra rc hn).counts s.shared
    obtain ⟨⟨d, hd, hdraw⟩, a, m, hm, hbytes⟩ := draws_and_writesBytes_plan_randbytes e ra hn
    obtain ⟨hfill, hnoread⟩ := hbytes.counts s.shared
    refine ⟨fun i hi => ?_, hlen.trans_le (Nat.add_le_add hread hwrite), hread, hwrite, ⟨d, hd, hdraws hdraw⟩,
      hfill.trans_le hm, hnoread⟩
    obtain ⟨hread, hwrite, hlen⟩ := (readsThenWrites_plan_hash (re := re) e hi hn).counts s.shared
    rw [Nat.le_zero.1 hwrite, Nat.add_zero] at hlen
    exact ⟨hlen.trans_le hread, hlen.symm⟩
  · obtain ⟨a, m, hm, hread, hupdate⟩ := readsBytes_and_updates_plan_feed e s ra rb
    exact ⟨(hread.reads s.shared).trans_le hm, (hupdate s.shared).trans_le (by omega)⟩
  · obtain ⟨-, hreseeds, hclocks, hsnapshots⟩ := drawsAndReseeds_plan_reseed e s s.shared
    exact ⟨hreseeds, hclocks, hsnapshots⟩

end Sys2Proof.Machine
